-- ==== Sys2Proof/Word.lean ====
section
/-! DEFINITION. The machine's words, bytes, register numbers and the condition flag's three values
(00_scope.md R8, 10_state.md R20, R27). -/

namespace Sys2Proof

/-- A register, memory cell, address or instruction: a 16-bit pattern (R8). -/
abbrev Word := BitVec 16

/-- A character code or console byte (R5, R67). -/
abbrev Byte := BitVec 8

/-- A general register's number, 0 to 7 (R20, R21). -/
abbrev Reg := Fin 8

/-- The condition flag: exactly one of three values, never a fourth (R27). -/
inductive Flag where
  | neg
  | zero
  | pos
  deriving DecidableEq, Repr, Inhabited

end Sys2Proof
end

