-- ==== Sys2Proof/Config.lean ====
section
/-! DEFINITION. What the spec leaves to a parameter (00_scope.md R6) and the free values it leaves open
(10_state.md R22, R29; 20_memory.md R55, R67). A free value is an opaque constant applied to a counter of the state:
no proof can see what it is. -/

namespace Sys2Proof

/-- `MMIO_WRITE_POLICY` (20_memory.md R56): what a write to KBSR or KBDR does. -/
inductive MmioWritePolicy where
  | discard
  | fault
  deriving DecidableEq, Repr

/-- The parameters of R6 that are fixed for one machine. The defaults are the spec's. DESIGN CHOICE: they
stand in `State`, which no step changes there, so that a claim covers every value of them (log 9). -/
structure Params where
  mmioWritePolicy   : MmioWritePolicy := .discard
  /-- `JSRR_BASE_READ_FIRST` (41_control.md R112). -/
  jsrrBaseReadFirst : Bool := false
  /-- Bits 14..0 of `KBSR_READY`, whose bit 15 is 1 (20_memory.md R54; 93_implementation_defined.md I10). -/
  kbsrReadyLow      : BitVec 15 := 0#15
  /-- Bits 14..0 of `KBSR_NOT_READY`, whose bit 15 is 0. -/
  kbsrNotReadyLow   : BitVec 15 := 0#15
  deriving DecidableEq, Repr

/-- The value of the n-th draw, for a read of a never-written general register (R22). -/
opaque Config.freeWord : Nat → Word

/-- The value of the n-th draw, for a read of the never-set condition flag (R29). -/
opaque Config.freeFlag : Nat → Flag

/-- The value of the n-th draw, for a KBDR read with no character buffered (R55). -/
opaque Config.freeByte : Nat → Byte

/-- Character number n of an infinite `InputStream` (R6, R67): the host's choice, of which nothing is known. A
claim about it holds of every infinite stream (log 10). -/
opaque Config.streamByte : Nat → Byte

end Sys2Proof
end

