-- ==== Sys2Proof/Machine/State.lean ====
section
/-! DEFINITION. The machine's state (10_state.md R20 to R39, 60_exceptions.md R170, R171), as plain data, and
the state a core is constructed in. -/

namespace Sys2Proof.Machine

/-- The seven fault kinds (R170). -/
inductive FaultKind where
  | reservedInstructionFound
  | unknownTrapRoutine
  | ioError
  | rtiUnimplemented
  | fetchOutOfRange
  | memoryReadOutOfRange
  | memoryWriteOutOfRange
  deriving DecidableEq, Repr

/-- The `info` of a fault record (R171): a vector, an effective address, or nothing. -/
inductive FaultInfo where
  | nothing
  | vector (v : BitVec 8)
  | address (a : Word)
  deriving DecidableEq, Repr

/-- A fault record (R171). `word` is absent for FetchOutOfRange only. -/
structure FaultRecord where
  kind : FaultKind
  addr : Word
  word : Option Word
  info : FaultInfo
  deriving DecidableEq, Repr

/-- Why a run ended normally (R35, R37). -/
inductive HaltReason where
  | trapHalt
  | endOfProgram
  deriving DecidableEq, Repr

/-- The run state (R35). -/
inductive RunState where
  | notStarted
  | running
  | halted (reason : HaltReason)
  | faulted (record : FaultRecord)
  deriving DecidableEq, Repr

/-- The two routines that may wait for a character (R39). -/
inductive InputRoutine where
  | getc
  | input
  deriving DecidableEq, Repr

/-- The `wait` component (R39). DESIGN CHOICE: the suspended instruction's word is kept beside the routine,
since a failing echo of IN records it (R171; log 20). -/
inductive Wait where
  | none
  | waitingInput (routine : InputRoutine) (word : Word)
  deriving DecidableEq, Repr

/-- Who moves next (log 11): the core, the keyboard producer (20_memory.md R67), or the host with its start
request (R35). -/
inductive Turn where
  | core
  | producer
  | start
  deriving DecidableEq, Repr

/-- `InputStream` (00_scope.md R6), the characters that the host has yet to deliver: those listed, the first one
next, and then either no more (`endless = none`, a finite stream) or without end the characters
`Config.streamByte k`, `Config.streamByte (k + 1)`, ... (`endless = some k`, an infinite stream; log 10). -/
structure InputStream where
  listed  : List Byte
  endless : Option Nat
  deriving DecidableEq, Repr

/-- The listed words of memory, as (address, word). The spec's smallest unit is the 16-bit word (20_memory.md
R50, R58), so a cell holds one word (log 13). -/
abbrev Memory := List (Nat × Word)

/-- Everything the spec gives the machine, then the environment the step reads, then the model's own
counter. -/
structure State where
  /-- R0 to R7 (R20). -/
  regs             : Vector Word 8
  /-- `gpr_written` (R22). -/
  gprWritten       : Vector Bool 8
  /-- The program counter (R24). -/
  pc               : Word
  /-- The condition flag (R27). -/
  cc               : Flag
  /-- `cc_set` (R29). -/
  ccSet            : Bool
  /-- `mem` (R31). -/
  mem              : Memory
  /-- `instruction_count` (R31). -/
  instructionCount : Nat
  /-- `kb_ready` (R32). -/
  kbReady          : Bool
  /-- `kb_latch` (R32). -/
  kbLatch          : Byte
  /-- The input channel, head first (R33). -/
  channel          : List Byte
  /-- The console output, oldest byte first (R34). -/
  output           : List Byte
  /-- The run state (R35). -/
  run              : RunState
  /-- The `wait` component (R39). -/
  wait             : Wait
  /-- `InputStream`: the characters the producer has yet to take from the host (20_memory.md R67; log 10). -/
  inputStream      : InputStream
  /-- The producer has stopped, its send having failed after the end of the run (20_memory.md R68). -/
  producerStopped  : Bool
  /-- `OutputOracle`: success or failure of the console writes to come; success past its end (43_trap.md
  R149; log 12). -/
  writeOutcomes    : List Bool
  /-- Who moves next; the core past its end (log 11). -/
  schedule         : List Turn
  /-- The machine's parameters, which no step changes (00_scope.md R6; log 9). -/
  params           : Params
  /-- The model's own: how many free draws have been taken (log 8). -/
  draws            : Nat
  deriving DecidableEq, Repr

/-- A core as constructed, before its load (70_reset_and_hazards.md R190, R193): pc at 0x3000, no register
written, the flag not set, memory empty, the run not started. DESIGN CHOICE: the values of `regs`, `cc` and
`kbLatch`, which no instruction can observe (logs 5, 6, 7), `instructionCount` before a load (log 15), and the
environment's and the model's own fields (logs 8 to 12). -/
def State.reset : State where
  regs             := Vector.replicate 8 0#16
  gprWritten       := Vector.replicate 8 false
  pc               := 0x3000#16
  cc               := .zero
  ccSet            := false
  mem              := []
  instructionCount := 0
  kbReady          := false
  kbLatch          := 0#8
  channel          := []
  output           := []
  run              := .notStarted
  wait             := .none
  inputStream      := { listed := [], endless := none }
  producerStopped  := false
  writeOutcomes    := []
  schedule         := []
  params           := {}
  draws            := 0

/-- Why a step stops the machine. -/
inductive Fault where
  /-- Raised by `coreTurn` when the core, whose run is already `Faulted` with this record, is asked to move: no
  transition leaves Faulted (R35, R172). The step that raised the fault answered a next state. Safe: the
  machine stops where the spec says it has stopped. -/
  | runFaulted (record : FaultRecord)
  deriving DecidableEq, Repr

/-- Why a step has no meaning. -/
inductive Refusal where
  /-- Raised by an arm of `exec` that has no meaning yet. No arm is in that case. Safe. -/
  | notModelled (mnemonic : String)
  deriving DecidableEq, Repr

end Sys2Proof.Machine
end

