-- ==== Sys2Proof/Machine/Ops.lean ====
section
/-! DEFINITION. The named operations over registers, memory, the keyboard and the console, and raising a
fault (00_scope.md R13, R14; 20_memory.md; 43_trap.md R149, R150; 60_exceptions.md R170 to R172). -/

namespace Sys2Proof.Machine

/-! ### The address map (20_memory.md R51; 00_scope.md R6) -/

/-- The program section's start, the reset pc and the only origin. -/
def programStart : Word := 0x3000#16

/-- The program section's last address. -/
def programLast : Word := 0xFDFF#16

/-- The program section's capacity in words: 0xFDFF - 0x3000 + 1 (R6). -/
def programCapacity : Nat := 0xCE00

/-- KBSR, the keyboard status register. -/
def kbsrAddr : Word := 0xFE00#16

/-- KBDR, the keyboard data register. -/
def kbdrAddr : Word := 0xFE02#16

/-- `program_end`, the first address past the loaded program (R31). It is an address of 16 bits; a count above
0xCE00, which no load gives, would wrap (log 22). -/
def programEnd (s : State) : Word := programStart + BitVec.ofNat 16 s.instructionCount

/-- `in_image(a)` (R53). -/
def inImage (s : State) (a : Word) : Bool :=
  decide (programStart.toNat ≤ a.toNat) && decide (a.toNat < (programEnd s).toNat)

/-- `KBSR_READY`: bit 15 is 1 (R54, R6). -/
def kbsrReady (p : Params) : Word := 1#1 ++ p.kbsrReadyLow

/-- `KBSR_NOT_READY`: bit 15 is 0 (R54, R6). -/
def kbsrNotReady (p : Params) : Word := 0#1 ++ p.kbsrNotReadyLow

/-! ### The word array -/

/-- The word at an address. An unlisted address reads as 0x0000 (log 14). -/
def Memory.read : Memory → Nat → Word
  | [], _ => 0#16
  | (k, w) :: m, a => if a = k then w else Memory.read m a

/-- Store a word, keeping the canonical form: a zero word is not listed. -/
def Memory.write : Memory → Nat → Word → Memory
  | [], a, v => if v = 0#16 then [] else [(a, v)]
  | (k, w) :: m, a, v =>
    if a < k then (if v = 0#16 then (k, w) :: m else (a, v) :: (k, w) :: m)
    else if a = k then (if v = 0#16 then m else (a, v) :: m)
    else (k, w) :: Memory.write m a v

/-- The canonical form: addresses strictly rising, all of 16 bits, and no zero word listed. -/
abbrev Memory.wf (m : Memory) : Prop :=
  m.Pairwise (fun c d => c.1 < d.1) ∧ ∀ c ∈ m, c.1 < 65536 ∧ c.2 ≠ 0#16

/-! ### Ending an instruction early -/

/-- What an operation that may end its instruction answers: a value and the state to go on from, or the state
the instruction ended in (a fault raised, or a wait for input; R14). -/
inductive Res (α : Type) where
  | ok (v : α) (s : State)
  | stop (s : State)
  deriving DecidableEq, Repr

/-- Go on with the rest of the instruction, unless it has ended (R14: nothing after a `raise` happens). -/
def Res.andThen {α : Type} (x : Res α) (rest : α → State → State) : State :=
  match x with
  | .ok v s => rest v s
  | .stop s => s

/-- TAKING A FAULT: the run state becomes `Faulted(record)` and nothing else changes (R14, R171, R172). The
pc stays where the iteration left it, no handler runs and nothing is saved. There is no return from it
(R177): RTI raises a fault of its own. -/
def raise (r : FaultRecord) (s : State) : State := { s with run := .faulted r }

/-- The code the spec gives each fault kind (R170). A label for the host: no rule depends on it. -/
def faultCode : FaultKind → Nat
  | .reservedInstructionFound => 1
  | .unknownTrapRoutine => 2
  | .ioError => 3
  | .rtiUnimplemented => 4
  | .fetchOutOfRange => 5
  | .memoryReadOutOfRange => 6
  | .memoryWriteOutOfRange => 7

/-- A fault raised by the instruction `w` during its execution, when pc is one past its address (R24, R160,
R171; log 21). -/
def raiseInstr (kind : FaultKind) (info : FaultInfo) (w : Word) (s : State) : State :=
  raise { kind := kind, addr := s.pc - 1#16, word := some w, info := info } s

/-- `halt(reason)` (R14). -/
def haltRun (reason : HaltReason) (s : State) : State := { s with run := .halted reason }

/-! ### Registers and the pc (R9, R20 to R25) -/

/-- `R[r]`: the last value written, or a fresh draw if the register was never written (R22). Two reads of a
never-written register take two draws (R23). -/
def readReg (r : Reg) (s : State) : Word × State :=
  if s.gprWritten[r] then (s.regs[r], s)
  else (Config.freeWord s.draws, { s with draws := s.draws + 1 })

/-- `R[r] <- v`, which marks the register written (R9, R22). -/
def setReg (r : Reg) (v : Word) (s : State) : State :=
  { s with regs := s.regs.set r v, gprWritten := s.gprWritten.set r true }

/-- `pc <- t`, without a check (R25, R115). -/
def setPc (t : Word) (s : State) : State := { s with pc := t }

/-! ### The memory primitives (R13, R53 to R57) -/

/-- `KbsrRead()` (R54): polls the channel without blocking, unless a character is already latched. -/
def kbsrRead (s : State) : Word × State :=
  if s.kbReady then (kbsrReady s.params, s)
  else
    match s.channel with
    | [] => (kbsrNotReady s.params, s)
    | c :: rest => (kbsrReady s.params, { s with kbLatch := c, kbReady := true, channel := rest })

/-- `KbdrRead()` (R55): the latched character and ready cleared, or a free 8-bit draw, zero-extended. -/
def kbdrRead (s : State) : Word × State :=
  if s.kbReady then (s.kbLatch.setWidth 16, { s with kbReady := false })
  else ((Config.freeByte s.draws).setWidth 16, { s with draws := s.draws + 1 })

/-- `MemRead(a, 1)` (R53) by the instruction `w`. -/
def memRead (w a : Word) (s : State) : Res Word :=
  if a = kbsrAddr then .ok (kbsrRead s).1 (kbsrRead s).2
  else if a = kbdrAddr then .ok (kbdrRead s).1 (kbdrRead s).2
  else if inImage s a then .ok (s.mem.read a.toNat) s
  else .stop (raiseInstr .memoryReadOutOfRange (.address a) w s)

/-- `mem[a] <- v`. -/
def setMem (a v : Word) (s : State) : State := { s with mem := s.mem.write a.toNat v }

/-- `MemWrite(a, 1, v)` (R56) by the instruction `w`. A write to KBSR or KBDR follows `MMIO_WRITE_POLICY`. -/
def memWrite (w a v : Word) (s : State) : State :=
  if a = kbsrAddr ∨ a = kbdrAddr then
    match s.params.mmioWritePolicy with
    | .discard => s
    | .fault => raiseInstr .memoryWriteOutOfRange (.address a) w s
  else if inImage s a then setMem a v s
  else raiseInstr .memoryWriteOutOfRange (.address a) w s

/-- `Fetch(a)` (R57): the word, or nothing outside the loaded range. Never intercepted by the keyboard. -/
def fetch (a : Word) (s : State) : Option Word :=
  if inImage s a then some (s.mem.read a.toNat) else none

/-! ### The console (R34, R149) -/

/-- `Emit(b)` by the instruction `w`: the next outcome of `OutputOracle` decides; past its end a write
succeeds (log 12). A failing byte is not appended and IoError is raised. -/
def emit (w : Word) (b : Byte) (s : State) : Res Unit :=
  match s.writeOutcomes with
  | [] => .ok () { s with output := s.output ++ [b] }
  | true :: rest => .ok () { s with output := s.output ++ [b], writeOutcomes := rest }
  | false :: rest => .stop (raiseInstr .ioError .nothing w { s with writeOutcomes := rest })

/-- The bytes in order, up to the first failure (R149). -/
def emitAll (w : Word) : List Byte → State → Res Unit
  | [], s => .ok () s
  | b :: bs, s =>
    match emit w b s with
    | .ok _ s' => emitAll w bs s'
    | .stop s' => .stop s'

/-! ### Characters (R32, R33, R67, R150) -/

/-- The next character of the host's stream and the stream after it, or nothing at the end of a finite one
(R6, R67; log 10). -/
def nextChar (i : InputStream) : Option (Byte × InputStream) :=
  match i.listed with
  | c :: rest => some (c, { listed := rest, endless := i.endless })
  | [] =>
    match i.endless with
    | none => none
    | some k => some (Config.streamByte k, { listed := [], endless := some (k + 1) })

/-- `TakeChar()` (R150) by the instruction `w`: the latched character first, then the head of the channel,
else the instruction is suspended. -/
def takeChar (routine : InputRoutine) (w : Word) (s : State) : Res Byte :=
  if s.kbReady then .ok s.kbLatch { s with kbReady := false }
  else
    match s.channel with
    | c :: rest => .ok c { s with channel := rest }
    | [] => .stop { s with wait := .waitingInput routine w }

end Sys2Proof.Machine
end

