-- ==== Sys2Proof/Machine/Flags.lean ====
section
/-! DEFINITION. The condition flag: how it is set from a word, read, and tested by BR (10_state.md R27 to R29,
41_control.md R110). -/

namespace Sys2Proof.Machine

/-- The flag of a word: zero, negative (high bit set), otherwise positive (R28). -/
def flagOf (v : Word) : Flag := if v = 0#16 then .zero else if v.msb then .neg else .pos

/-- `setcc(v)` (R28). -/
def setcc (v : Word) (s : State) : State := { s with cc := flagOf v, ccSet := true }

/-- A read of `cc`: its value, or a fresh draw before the first `setcc` (R29). -/
def readFlag (s : State) : Flag × State :=
  if s.ccSet then (s.cc, s)
  else (Config.freeFlag s.draws, { s with draws := s.draws + 1 })

/-- The branch condition of BR for a flag value (R110): all-zero nzp is always taken. -/
def branchTaken (n z p : Bool) (f : Flag) : Bool :=
  (!n && !z && !p) || (n && f == .neg) || (z && f == .zero) || (p && f == .pos)

/-- `R[r] <- v` and then `setcc(v)`: what the seven flag-writing instructions end with (R27). -/
def setRegFlag (r : Reg) (v : Word) (s : State) : State := setcc v (setReg r v s)

end Sys2Proof.Machine
end

