-- ==== Sys2Proof/Machine/Operands.lean ====
section
/-! DEFINITION. Every operand form: the sign extensions, the word's two views and the addressing modes
(00_scope.md R10, R11; 30_encoding.md R82; 42_data_movement.md R127). -/

namespace Sys2Proof.Machine

/-- `sext_N(f)` (R11): an N-bit field widened to a word by its top bit. -/
def sext {n : Nat} (f : BitVec n) : Word := f.signExtend 16

/-- `zext_N(f)` (R11): an N-bit field widened with zeros. -/
def zext {n : Nat} (f : BitVec n) : Word := f.setWidth 16

/-- `u16(w)` (R10). -/
def u16 (w : Word) : Nat := w.toNat

/-- `s16(w)` (R10), the two's-complement value. -/
def s16 (w : Word) : Int := if w.msb then (w.toNat : Int) - 65536 else w.toNat

/-- `fromSigned(n)` (R10): n mod 65536. -/
def fromSigned (n : Int) : Word := BitVec.ofNat 16 (n % 65536).toNat

/-- `w[7:0]`, the byte OUT and PUTS emit and PUTSP emits first (R58). -/
def lowByte (w : Word) : Byte := w.extractLsb' 0 8

/-- `w[15:8]`, the byte PUTSP emits second (R58). -/
def highByte (w : Word) : Byte := w.extractLsb' 8 8

/-- PC-relative: `pc + sext(offset)`, from the incremented pc, modulo 2^16 (R127, R24). -/
def pcRelative {n : Nat} (off : BitVec n) (s : State) : Word := s.pc + sext off

/-- Indirect: `MemRead(pc + sext_9(PCoffset9), 1)` (R127), by the instruction `w`. -/
def indirect (w : Word) (off : BitVec 9) (s : State) : Res Word := memRead w (pcRelative off s) s

/-- Base plus offset: `R[BaseR] + sext_6(offset6)` (R127). -/
def basePlusOffset (base : Reg) (off : BitVec 6) (s : State) : Word × State :=
  ((readReg base s).1 + sext off, (readReg base s).2)

end Sys2Proof.Machine
end

