-- ==== Sys2Proof/Machine/Control.lean ====
section
/-! DEFINITION. BR, JSR, JSRR, JMP and RET (41_control.md R110 to R116). None writes the flag, and no target
is checked (R115). -/

namespace Sys2Proof.Machine

/-- BR (R110). The flag is read once (log 6). -/
def execBr (n z p : Bool) (off9 : BitVec 9) (s : State) : Host.Outcome State Fault Refusal :=
  let f := readFlag s
  .next (if branchTaken n z p f.1 then setPc (pcRelative off9 f.2) f.2 else f.2)

/-- JSR (R111): R7 gets the incremented pc. -/
def execJsr (off11 : BitVec 11) (s : State) : Host.Outcome State Fault Refusal :=
  .next (setPc (pcRelative off11 s) (setReg 7 s.pc s))

/-- JSRR (R112): R7 is written first and then BaseR read, or the other way under `JSRR_BASE_READ_FIRST`. -/
def execJsrr (base : Reg) (s : State) : Host.Outcome State Fault Refusal :=
  .next
    (if s.params.jsrrBaseReadFirst then
      let t := readReg base s
      setPc t.1 (setReg 7 t.2.pc t.2)
    else
      let t := readReg base (setReg 7 s.pc s)
      setPc t.1 t.2)

/-- `pc <- R[BaseR]`. -/
def jumpThrough (base : Reg) (s : State) : State :=
  let t := readReg base s
  setPc t.1 t.2

/-- JMP (R113). -/
def execJmp (base : Reg) (s : State) : Host.Outcome State Fault Refusal := .next (jumpThrough base s)

/-- RET (R114): JMP through R7. -/
def execRet (s : State) : Host.Outcome State Fault Refusal := .next (jumpThrough 7 s)

end Sys2Proof.Machine
end

