-- ==== Sys2Proof/Syntax.lean ====
section
/-! DEFINITION. The instructions: one constructor for each row of spec/opcode_table.json (30_encoding.md R83,
R84). -/

namespace Sys2Proof

/-- One constructor for each row of the opcode table. The bits a row's fields do not use (R85) are carried
as `ign`, `ignHi`, `ignLo`: they change no behaviour, but a fault record holds the whole word (R171), so none
may be dropped (log 2). RET and the six routines are rows of their own, so `jmp` stands for the words whose
BaseR is not 7 and `trap` for those whose vector is none of the six (log 1). -/
inductive Instr where
  /-- ADD, register mode (R100). -/
  | addReg (dr sr1 sr2 : Reg) (ign : BitVec 2)
  /-- ADD, immediate mode (R100). -/
  | addImm (dr sr1 : Reg) (imm5 : BitVec 5)
  /-- AND, register mode (R101). -/
  | andReg (dr sr1 sr2 : Reg) (ign : BitVec 2)
  /-- AND, immediate mode (R101). -/
  | andImm (dr sr1 : Reg) (imm5 : BitVec 5)
  /-- NOT (R102). -/
  | not (dr sr : Reg) (ign : BitVec 6)
  /-- BR (R110). -/
  | br (n z p : Bool) (off9 : BitVec 9)
  /-- JSR (R111). -/
  | jsr (off11 : BitVec 11)
  /-- JSRR (R112). -/
  | jsrr (base : Reg) (ignHi : BitVec 2) (ignLo : BitVec 6)
  /-- JMP (R113). -/
  | jmp (base : Reg) (ignHi : BitVec 3) (ignLo : BitVec 6)
  /-- RET (R114). -/
  | ret (ignHi : BitVec 3) (ignLo : BitVec 6)
  /-- LD (R120). -/
  | ld (dr : Reg) (off9 : BitVec 9)
  /-- LDI (R121). -/
  | ldi (dr : Reg) (off9 : BitVec 9)
  /-- LDR (R122). -/
  | ldr (dr base : Reg) (off6 : BitVec 6)
  /-- LEA (R123). -/
  | lea (dr : Reg) (off9 : BitVec 9)
  /-- ST (R124). -/
  | st (sr : Reg) (off9 : BitVec 9)
  /-- STI (R125). -/
  | sti (sr : Reg) (off9 : BitVec 9)
  /-- STR (R126). -/
  | str (sr base : Reg) (off6 : BitVec 6)
  /-- TRAP (R140). -/
  | trap (vect : BitVec 8) (ign : BitVec 4)
  /-- TRAP x20, GETC (R142). -/
  | getc (ign : BitVec 4)
  /-- TRAP x21, OUT (R143). -/
  | out (ign : BitVec 4)
  /-- TRAP x22, PUTS (R144). -/
  | puts (ign : BitVec 4)
  /-- TRAP x23, IN (R145). -/
  | input (ign : BitVec 4)
  /-- TRAP x24, PUTSP (R146). -/
  | putsp (ign : BitVec 4)
  /-- TRAP x25, HALT (R147). -/
  | halt (ign : BitVec 4)
  /-- RTI (R160). -/
  | rti (ign : BitVec 12)
  /-- Opcode 1101 (R161). -/
  | reserved (ign : BitVec 12)
  deriving DecidableEq, Repr

end Sys2Proof
end

