-- ==== Sys2Proof/WellFormed.lean ====
section
/-! DEFINITION. Which terms of `Instr` are the reading of a word. Every operand fits its field by its type;
two checks remain, because RET and the six routines are rows of their own (log 1). -/

namespace Sys2Proof

/-- The vectors of the dispatcher's table (43_trap.md R141). -/
def trapVectors : List (BitVec 8) := [0x20#8, 0x21#8, 0x22#8, 0x23#8, 0x24#8, 0x25#8]

/-- A word reads as `jmp` only if its BaseR is not 7 (else it is RET, R114), and as `trap` only if its vector
is not one of R141's (else it is that routine's row). -/
def Instr.wellFormed : Instr → Bool
  | .addReg _ _ _ _ => true
  | .addImm _ _ _ => true
  | .andReg _ _ _ _ => true
  | .andImm _ _ _ => true
  | .not _ _ _ => true
  | .br _ _ _ _ => true
  | .jsr _ => true
  | .jsrr _ _ _ => true
  | .jmp base _ _ => base != 7
  | .ret _ _ => true
  | .ld _ _ => true
  | .ldi _ _ => true
  | .ldr _ _ _ => true
  | .lea _ _ => true
  | .st _ _ => true
  | .sti _ _ => true
  | .str _ _ _ => true
  | .trap vect _ => !trapVectors.contains vect
  | .getc _ => true
  | .out _ => true
  | .puts _ => true
  | .input _ => true
  | .putsp _ => true
  | .halt _ => true
  | .rti _ => true
  | .reserved _ => true

end Sys2Proof
end

