-- ==== Sys2Proof/Decode.lean ====
section
/-! DEFINITION. The decoder, total on every 16-bit word, and the encoder (30_encoding.md R80 to R87). The
opcode numbers and field positions are the spec's, which marks them as general knowledge (log 26). -/

namespace Sys2Proof

/-- The field of `len` bits of `w` whose least significant bit is bit `lo`: `w[lo+len-1:lo]` (R8). -/
def bits (w : Word) (lo len : Nat) : BitVec len := w.extractLsb' lo len

/-- The 3-bit register number at bit `lo` (R21, R81). -/
def regField (w : Word) (lo : Nat) : Reg := (bits w lo 3).toFin

/-- One bit of the word. -/
def flagBit (w : Word) (i : Nat) : Bool := w.getLsbD i

/-- The sixteen opcode classes (R83), a closed set with the reserved class explicit (R86). JSR and JSRR share
one, and JMP and RET. -/
inductive Opcode where
  | br | add | ld | st | jsr | and | ldr | str | rti | not | ldi | sti | jmp | reserved | lea | trap
  deriving DecidableEq, Repr

/-- The opcode map of R83, on `w[15:12]` (R80). The last arm is 1111, the one value left of a 4-bit field. -/
def opcodeOf (w : Word) : Opcode :=
  match (bits w 12 4).toNat with
  | 0 => .br
  | 1 => .add
  | 2 => .ld
  | 3 => .st
  | 4 => .jsr
  | 5 => .and
  | 6 => .ldr
  | 7 => .str
  | 8 => .rti
  | 9 => .not
  | 10 => .ldi
  | 11 => .sti
  | 12 => .jmp
  | 13 => .reserved
  | 14 => .lea
  | _ => .trap

/-- The row of a TRAP word, by its low 8 bits (43_trap.md R140, R141). -/
def decodeTrap (w : Word) : Instr :=
  let vect := bits w 0 8
  let ign := bits w 8 4
  if vect = 0x20#8 then .getc ign
  else if vect = 0x21#8 then .out ign
  else if vect = 0x22#8 then .puts ign
  else if vect = 0x23#8 then .input ign
  else if vect = 0x24#8 then .putsp ign
  else if vect = 0x25#8 then .halt ign
  else .trap vect ign

/-- The instruction a word is. Total (R86): a format is picked by the opcode alone, then by bit 5 for ADD and
AND and by bit 11 for JSR and JSRR (R84). No word is refused. -/
def decode (w : Word) : Instr :=
  match opcodeOf w with
  | .br => .br (flagBit w 11) (flagBit w 10) (flagBit w 9) (bits w 0 9)
  | .add =>
    if flagBit w 5 then .addImm (regField w 9) (regField w 6) (bits w 0 5)
    else .addReg (regField w 9) (regField w 6) (regField w 0) (bits w 3 2)
  | .ld => .ld (regField w 9) (bits w 0 9)
  | .st => .st (regField w 9) (bits w 0 9)
  | .jsr =>
    if flagBit w 11 then .jsr (bits w 0 11)
    else .jsrr (regField w 6) (bits w 9 2) (bits w 0 6)
  | .and =>
    if flagBit w 5 then .andImm (regField w 9) (regField w 6) (bits w 0 5)
    else .andReg (regField w 9) (regField w 6) (regField w 0) (bits w 3 2)
  | .ldr => .ldr (regField w 9) (regField w 6) (bits w 0 6)
  | .str => .str (regField w 9) (regField w 6) (bits w 0 6)
  | .rti => .rti (bits w 0 12)
  | .not => .not (regField w 9) (regField w 6) (bits w 0 6)
  | .ldi => .ldi (regField w 9) (bits w 0 9)
  | .sti => .sti (regField w 9) (bits w 0 9)
  | .jmp =>
    if regField w 6 = 7 then .ret (bits w 9 3) (bits w 0 6)
    else .jmp (regField w 6) (bits w 9 3) (bits w 0 6)
  | .reserved => .reserved (bits w 0 12)
  | .lea => .lea (regField w 9) (bits w 0 9)
  | .trap => decodeTrap w

/-- `decode` on a word as spec/opcode_table.json numbers its bits. Every instruction is one word (R80), so a
row of more than 16 bits is none of this machine's. -/
def decodeTableWord (nbits w : Nat) : Option Instr :=
  if nbits ≤ 16 then some (decode (BitVec.ofNat 16 (w % 2 ^ nbits))) else none

/-- A register number as its 3-bit field. -/
def regBits (r : Reg) : BitVec 3 := BitVec.ofFin r

/-- A Bool as one bit. -/
def oneBit (b : Bool) : BitVec 1 := BitVec.ofBool b

/-- Opcode, two 3-bit fields and a 6-bit field: the shape of NOT, BASE6, and of OP_REG and OP_IMM once their
low six bits are put together (R84). -/
def word3336 (op : BitVec 4) (a b : BitVec 3) (c : BitVec 6) : Word := op ++ a ++ b ++ c

/-- Opcode, a 3-bit field and a 9-bit field: formats BR and PC9 (R84). -/
def word349 (op : BitVec 4) (a : BitVec 3) (c : BitVec 9) : Word := op ++ a ++ c

/-- Opcode, a 4-bit field and an 8-bit field: format TRAP (R84). -/
def word448 (op : BitVec 4) (a : BitVec 4) (c : BitVec 8) : Word := op ++ a ++ c

/-- Opcode and a 12-bit field: formats NONE and JSR (R84). -/
def word412 (op : BitVec 4) (a : BitVec 12) : Word := op ++ a

/-- The word of an instruction, from R84's formats. -/
def encode : Instr → Word
  | .addReg dr sr1 sr2 ign => word3336 0x1#4 (regBits dr) (regBits sr1) (0#1 ++ ign ++ regBits sr2)
  | .addImm dr sr1 imm5 => word3336 0x1#4 (regBits dr) (regBits sr1) (1#1 ++ imm5)
  | .andReg dr sr1 sr2 ign => word3336 0x5#4 (regBits dr) (regBits sr1) (0#1 ++ ign ++ regBits sr2)
  | .andImm dr sr1 imm5 => word3336 0x5#4 (regBits dr) (regBits sr1) (1#1 ++ imm5)
  | .not dr sr ign => word3336 0x9#4 (regBits dr) (regBits sr) ign
  | .br n z p off9 => word349 0x0#4 (oneBit n ++ oneBit z ++ oneBit p) off9
  | .jsr off11 => word412 0x4#4 (1#1 ++ off11)
  | .jsrr base ignHi ignLo => word3336 0x4#4 (0#1 ++ ignHi) (regBits base) ignLo
  | .jmp base ignHi ignLo => word3336 0xC#4 ignHi (regBits base) ignLo
  | .ret ignHi ignLo => word3336 0xC#4 ignHi 7#3 ignLo
  | .ld dr off9 => word349 0x2#4 (regBits dr) off9
  | .ldi dr off9 => word349 0xA#4 (regBits dr) off9
  | .ldr dr base off6 => word3336 0x6#4 (regBits dr) (regBits base) off6
  | .lea dr off9 => word349 0xE#4 (regBits dr) off9
  | .st sr off9 => word349 0x3#4 (regBits sr) off9
  | .sti sr off9 => word349 0xB#4 (regBits sr) off9
  | .str sr base off6 => word3336 0x7#4 (regBits sr) (regBits base) off6
  | .trap vect ign => word448 0xF#4 ign vect
  | .getc ign => word448 0xF#4 ign 0x20#8
  | .out ign => word448 0xF#4 ign 0x21#8
  | .puts ign => word448 0xF#4 ign 0x22#8
  | .input ign => word448 0xF#4 ign 0x23#8
  | .putsp ign => word448 0xF#4 ign 0x24#8
  | .halt ign => word448 0xF#4 ign 0x25#8
  | .rti ign => word412 0x8#4 ign
  | .reserved ign => word412 0xD#4 ign

end Sys2Proof
end

