-- ==== Sys2Proof/Machine/DataMovement.lean ====
section
/-! DEFINITION. LD, LDI, LDR, LEA, ST, STI and STR (42_data_movement.md R120 to R127). Register operands are
read before any memory access. -/

namespace Sys2Proof.Machine

/-- Read the word at `ea` into DR and set the flag from it; on a fault DR and the flag keep their values
(R120). -/
def loadInto (w ea : Word) (dr : Reg) (s : State) : State :=
  (memRead w ea s).andThen fun v s' => setRegFlag dr v s'

/-- LD (R120). -/
def execLd (dr : Reg) (off9 : BitVec 9) (s : State) : Host.Outcome State Fault Refusal :=
  .next (loadInto (encode (.ld dr off9)) (pcRelative off9 s) dr s)

/-- LDI (R121). -/
def execLdi (dr : Reg) (off9 : BitVec 9) (s : State) : Host.Outcome State Fault Refusal :=
  .next ((indirect (encode (.ldi dr off9)) off9 s).andThen fun p s' => loadInto (encode (.ldi dr off9)) p dr s')

/-- LDR (R122). The address is computed from the old value when DR is BaseR. -/
def execLdr (dr base : Reg) (off6 : BitVec 6) (s : State) : Host.Outcome State Fault Refusal :=
  let ea := basePlusOffset base off6 s
  .next (loadInto (encode (.ldr dr base off6)) ea.1 dr ea.2)

/-- LEA (R123): the address itself, and the flag from it. -/
def execLea (dr : Reg) (off9 : BitVec 9) (s : State) : Host.Outcome State Fault Refusal :=
  .next (setRegFlag dr (pcRelative off9 s) s)

/-- ST (R124). -/
def execSt (sr : Reg) (off9 : BitVec 9) (s : State) : Host.Outcome State Fault Refusal :=
  let v := readReg sr s
  .next (memWrite (encode (.st sr off9)) (pcRelative off9 v.2) v.1 v.2)

/-- STI (R125). -/
def execSti (sr : Reg) (off9 : BitVec 9) (s : State) : Host.Outcome State Fault Refusal :=
  let v := readReg sr s
  .next ((indirect (encode (.sti sr off9)) off9 v.2).andThen fun p s' =>
    memWrite (encode (.sti sr off9)) p v.1 s')

/-- STR (R126): SR is read, then BaseR. -/
def execStr (sr base : Reg) (off6 : BitVec 6) (s : State) : Host.Outcome State Fault Refusal :=
  let v := readReg sr s
  let ea := basePlusOffset base off6 v.2
  .next (memWrite (encode (.str sr base off6)) ea.1 v.1 ea.2)

end Sys2Proof.Machine
end

