-- ==== Sys2Proof/Machine/Operate.lean ====
section
/-! DEFINITION. ADD, AND and NOT (40_operate.md R100 to R103). -/

namespace Sys2Proof.Machine

/-- Read SR1, then SR2, then write DR and the flag: both sources are read before DR is written (R100). -/
def operateReg (f : Word → Word → Word) (dr sr1 sr2 : Reg) (s : State) : State :=
  let a := readReg sr1 s
  let b := readReg sr2 a.2
  setRegFlag dr (f a.1 b.1) b.2

/-- Read SR1, then write DR and the flag (R100, R101, R102). -/
def operateOne (f : Word → Word) (dr sr1 : Reg) (s : State) : State :=
  let a := readReg sr1 s
  setRegFlag dr (f a.1) a.2

/-- The bitwise AND of R12. The case of a zero second operand is written out, so that `AND R, R, #0` evaluates
to 0x0000 whatever R held, a free draw included (R101). `andWord_eq` says that it is `&&&`. -/
def andWord (a b : Word) : Word := if b = 0#16 then 0#16 else a &&& b

/-- ADD, register mode (R100). The sum wraps modulo 2^16 (R103). -/
def execAddReg (dr sr1 sr2 : Reg) (s : State) : Host.Outcome State Fault Refusal :=
  .next (operateReg (fun a b => a + b) dr sr1 sr2 s)

/-- ADD, immediate mode (R100). -/
def execAddImm (dr sr1 : Reg) (imm5 : BitVec 5) (s : State) : Host.Outcome State Fault Refusal :=
  .next (operateOne (fun a => a + sext imm5) dr sr1 s)

/-- AND, register mode (R101). -/
def execAndReg (dr sr1 sr2 : Reg) (s : State) : Host.Outcome State Fault Refusal :=
  .next (operateReg (fun a b => andWord a b) dr sr1 sr2 s)

/-- AND, immediate mode (R101): imm5 is sign-extended as ADD's is. -/
def execAndImm (dr sr1 : Reg) (imm5 : BitVec 5) (s : State) : Host.Outcome State Fault Refusal :=
  .next (operateOne (fun a => andWord a (sext imm5)) dr sr1 s)

/-- NOT (R102). -/
def execNot (dr sr : Reg) (s : State) : Host.Outcome State Fault Refusal :=
  .next (operateOne (fun a => ~~~a) dr sr s)

end Sys2Proof.Machine
end

