-- ==== Sys2Proof/Machine/RtiReserved.lean ====
section
/-! DEFINITION. RTI and the reserved opcode: each raises its own fault and does nothing else
(44_rti_reserved.md R160, R161). -/

namespace Sys2Proof.Machine

/-- RTI (R160). -/
def execRti (ign : BitVec 12) (s : State) : Host.Outcome State Fault Refusal :=
  .next (raiseInstr .rtiUnimplemented .nothing (encode (.rti ign)) s)

/-- Opcode 1101 (R161). -/
def execReserved (ign : BitVec 12) (s : State) : Host.Outcome State Fault Refusal :=
  .next (raiseInstr .reservedInstructionFound .nothing (encode (.reserved ign)) s)

end Sys2Proof.Machine
end

