-- ==== Sys2Proof/Machine/Trap.lean ====
section
/-! DEFINITION. TRAP, the dispatcher and its six routines (43_trap.md R140 to R150). A routine runs inside its
TRAP instruction `w`: it writes no register but R0 (GETC, IN), no flag and no memory. -/

namespace Sys2Proof.Machine

/-- "Input: " in ASCII (R145). -/
def inputPrompt : List Byte := [0x49, 0x6E, 0x70, 0x75, 0x74, 0x3A, 0x20]

/-- "\nProgram halted\n" in ASCII (R147). -/
def haltBanner : List Byte :=
  [0x0A, 0x50, 0x72, 0x6F, 0x67, 0x72, 0x61, 0x6D, 0x20, 0x68, 0x61, 0x6C, 0x74, 0x65, 0x64, 0x0A]

/-- What GETC or IN does once it has its character `c`: R0 gets it, zero-extended, and IN then echoes it
(R142, R145). -/
def deliverChar (routine : InputRoutine) (w : Word) (c : Byte) (s : State) : State :=
  match routine with
  | .getc => setReg 0 (zext c) s
  | .input => (emit w c (setReg 0 (zext c) s)).andThen fun _ s' => s'

/-- GETC (R142). -/
def getcRoutine (w : Word) (s : State) : State :=
  (takeChar .getc w s).andThen fun c s' => deliverChar .getc w c s'

/-- OUT (R143). -/
def outRoutine (w : Word) (s : State) : State :=
  let v := readReg 0 s
  (emit w (lowByte v.1) v.2).andThen fun _ s' => s'

/-- The loop of PUTS (R144) from address `a`. The last address is never in the image, so 65536 rounds are
never used up (log 23): the first case is not reached from `putsRoutine`. -/
def putsFrom (w : Word) : Nat → Word → State → State
  | 0, a, s => raiseInstr .memoryReadOutOfRange (.address a) w s
  | fuel + 1, a, s =>
    (memRead w a s).andThen fun v s1 =>
      if v = 0#16 then s1
      else (emit w (lowByte v) s1).andThen fun _ s2 => putsFrom w fuel (a + 1#16) s2

/-- PUTS (R144). -/
def putsRoutine (w : Word) (s : State) : State :=
  let a := readReg 0 s
  putsFrom w 65536 a.1 a.2

/-- IN (R145): prompt, character, R0, echo. -/
def inRoutine (w : Word) (s : State) : State :=
  (emitAll w inputPrompt s).andThen fun _ s1 =>
    (takeChar .input w s1).andThen fun c s2 => deliverChar .input w c s2

/-- The loop of PUTSP (R146) from address `a`: low byte, then high byte, up to the first zero byte. The first
case is not reached from `putspRoutine` (log 23). -/
def putspFrom (w : Word) : Nat → Word → State → State
  | 0, a, s => raiseInstr .memoryReadOutOfRange (.address a) w s
  | fuel + 1, a, s =>
    (memRead w a s).andThen fun v s1 =>
      if lowByte v = 0#8 then s1
      else (emit w (lowByte v) s1).andThen fun _ s2 =>
        if highByte v = 0#8 then s2
        else (emit w (highByte v) s2).andThen fun _ s3 => putspFrom w fuel (a + 1#16) s3

/-- PUTSP (R146). -/
def putspRoutine (w : Word) (s : State) : State :=
  let a := readReg 0 s
  putspFrom w 65536 a.1 a.2

/-- HALT (R147): the banner, then the run is Halted(TrapHalt). -/
def haltRoutine (w : Word) (s : State) : State :=
  (emitAll w haltBanner s).andThen fun _ s' => haltRun .trapHalt s'

/-- The dispatcher's fixed table (R140, R141), and the fault for every other vector (R148). -/
def dispatchTrap (vect : BitVec 8) (w : Word) (s : State) : State :=
  if vect = 0x20#8 then getcRoutine w s
  else if vect = 0x21#8 then outRoutine w s
  else if vect = 0x22#8 then putsRoutine w s
  else if vect = 0x23#8 then inRoutine w s
  else if vect = 0x24#8 then putspRoutine w s
  else if vect = 0x25#8 then haltRoutine w s
  else raiseInstr .unknownTrapRoutine (.vector vect) w s

/-- TRAP (R140), for every vector. -/
def execTrap (vect : BitVec 8) (ign : BitVec 4) (s : State) : Host.Outcome State Fault Refusal :=
  .next (dispatchTrap vect (encode (.trap vect ign)) s)

/-- TRAP x20 (R142). -/
def execGetc (ign : BitVec 4) (s : State) : Host.Outcome State Fault Refusal :=
  .next (getcRoutine (encode (.getc ign)) s)

/-- TRAP x21 (R143). -/
def execOut (ign : BitVec 4) (s : State) : Host.Outcome State Fault Refusal :=
  .next (outRoutine (encode (.out ign)) s)

/-- TRAP x22 (R144). -/
def execPuts (ign : BitVec 4) (s : State) : Host.Outcome State Fault Refusal :=
  .next (putsRoutine (encode (.puts ign)) s)

/-- TRAP x23 (R145). -/
def execInput (ign : BitVec 4) (s : State) : Host.Outcome State Fault Refusal :=
  .next (inRoutine (encode (.input ign)) s)

/-- TRAP x24 (R146). -/
def execPutsp (ign : BitVec 4) (s : State) : Host.Outcome State Fault Refusal :=
  .next (putspRoutine (encode (.putsp ign)) s)

/-- TRAP x25 (R147). -/
def execHalt (ign : BitVec 4) (s : State) : Host.Outcome State Fault Refusal :=
  .next (haltRoutine (encode (.halt ign)) s)

/-- The step of a waiting core (R39, R150): once the channel is not empty, take its head, end the wait and
complete the routine. With an empty channel nothing changes. -/
def resumeInput (routine : InputRoutine) (w : Word) (s : State) : State :=
  match s.channel with
  | [] => s
  | c :: rest => deliverChar routine w c { s with channel := rest, wait := .none }

end Sys2Proof.Machine
end

