-- ==== Sys2Proof/Machine/Dispatch.lean ====
section
/-! DEFINITION. The meaning of every instruction: one arm per constructor (10_state.md R36). -/

namespace Sys2Proof.Machine

def exec (i : Instr) (s : State) : Host.Outcome State Fault Refusal :=
  match i with
  | .addReg dr sr1 sr2 _ => Sys2Proof.Machine.execAddReg dr sr1 sr2 s
  | .addImm dr sr1 imm5 => Sys2Proof.Machine.execAddImm dr sr1 imm5 s
  | .andReg dr sr1 sr2 _ => Sys2Proof.Machine.execAndReg dr sr1 sr2 s
  | .andImm dr sr1 imm5 => Sys2Proof.Machine.execAndImm dr sr1 imm5 s
  | .not dr sr _ => Sys2Proof.Machine.execNot dr sr s
  | .br n z p off9 => Sys2Proof.Machine.execBr n z p off9 s
  | .jsr off11 => Sys2Proof.Machine.execJsr off11 s
  | .jsrr base _ _ => Sys2Proof.Machine.execJsrr base s
  | .jmp base _ _ => Sys2Proof.Machine.execJmp base s
  | .ret _ _ => Sys2Proof.Machine.execRet s
  | .ld dr off9 => Sys2Proof.Machine.execLd dr off9 s
  | .ldi dr off9 => Sys2Proof.Machine.execLdi dr off9 s
  | .ldr dr base off6 => Sys2Proof.Machine.execLdr dr base off6 s
  | .lea dr off9 => Sys2Proof.Machine.execLea dr off9 s
  | .st sr off9 => Sys2Proof.Machine.execSt sr off9 s
  | .sti sr off9 => Sys2Proof.Machine.execSti sr off9 s
  | .str sr base off6 => Sys2Proof.Machine.execStr sr base off6 s
  | .trap vect ign => Sys2Proof.Machine.execTrap vect ign s
  | .getc ign => Sys2Proof.Machine.execGetc ign s
  | .out ign => Sys2Proof.Machine.execOut ign s
  | .puts ign => Sys2Proof.Machine.execPuts ign s
  | .input ign => Sys2Proof.Machine.execInput ign s
  | .putsp ign => Sys2Proof.Machine.execPutsp ign s
  | .halt ign => Sys2Proof.Machine.execHalt ign s
  | .rti ign => Sys2Proof.Machine.execRti ign s
  | .reserved ign => Sys2Proof.Machine.execReserved ign s

end Sys2Proof.Machine
end

