-- ==== Sys2Proof/Machine/Cycle.lean ====
section
/-! DEFINITION. The instruction cycle and the moves of the three agents: the core (10_state.md R35 to R39), the
keyboard producer (20_memory.md R67, R68) and the host's start request (R35). -/

namespace Sys2Proof.Machine

/-- The run has ended: Halted or Faulted (R35). -/
def runEnded (s : State) : Bool :=
  match s.run with
  | .halted _ => true
  | .faulted _ => true
  | .notStarted => false
  | .running => false

/-- When the run ends the channel's receiving end is dropped, and the characters still in it are discarded
(R68; log 17). -/
def dropReceiver (s : State) : State := if runEnded s then { s with channel := [] } else s

/-- The end of a move of the core. -/
def closeRun (o : Host.Outcome State Fault Refusal) : Host.Outcome State Fault Refusal :=
  match o with
  | .next s => .next (dropReceiver s)
  | .fault r => .fault r
  | .refused r => .refused r

/-- One iteration (R36): the end test, the fetch, the increment of pc, the decode and the dispatch. A fetch
outside the loaded range raises FetchOutOfRange with pc not incremented (R57, R171, R172). -/
def iteration (s : State) : Host.Outcome State Fault Refusal :=
  if s.pc = programEnd s then .next (haltRun .endOfProgram s)
  else
    match fetch s.pc s with
    | none => .next (raise { kind := .fetchOutOfRange, addr := s.pc, word := none, info := .nothing } s)
    | some w => exec (decode w) (setPc (s.pc + 1#16) s)

/-- A move of the core. It iterates while running and not waiting (R36), completes a waiting routine (R39),
and has no move before the start and after the end of the run: then nothing changes, and a faulted machine
answers its fault (log 3, log 4). -/
def coreTurn (s : State) : Host.Outcome State Fault Refusal :=
  match s.run with
  | .notStarted => .next s
  | .halted _ => .next s
  | .faulted r => .fault (.runFaulted r)
  | .running =>
    match s.wait with
    | .none => closeRun (iteration s)
    | .waitingInput routine w => closeRun (.next (resumeInput routine w s))

/-- A move of the keyboard producer: the next character of the host's stream goes to the tail of the channel
(R67). After the end of the run the send fails: the character is lost, the producer stops, and the characters
it has not read are never delivered (R68; log 17). With no character to take, nothing changes. DESIGN CHOICE: the
spec does not say from when the producer runs, nor what becomes of a character delivered before the load (R33, R67,
R184, R193). Here it moves from the construction of the core on, and a load keeps what it enqueued (log 29). -/
def producerTurn (s : State) : State :=
  if s.producerStopped then s
  else
    match nextChar s.inputStream with
    | none => s
    | some (c, rest) =>
      if runEnded s then { s with producerStopped := true, inputStream := { listed := [], endless := none } }
      else { s with channel := s.channel ++ [c], inputStream := rest }

/-- The host's start request moves NotStarted to Running (R35). The host starts only a core that is not
started (R184), so on any other the request changes nothing (log 18). DESIGN CHOICE: a core that was constructed and
never loaded, to which the spec gives no run state and no start (R173, R35), is NotStarted too, so a start makes it
Running, and its first iteration finds pc at program_end and halts with EndOfProgram (log 27). -/
def startTurn (s : State) : State :=
  match s.run with
  | .notStarted => { s with run := .running }
  | .running => s
  | .halted _ => s
  | .faulted _ => s

/-- Whose move is next (log 11). -/
def nextTurn (s : State) : Turn := s.schedule.headD .core

/-- The schedule without the move that is being made. -/
def popTurn (s : State) : State := { s with schedule := s.schedule.tail }

/-- The move of an agent. -/
def takeTurn (t : Turn) (s : State) : Host.Outcome State Fault Refusal :=
  match t with
  | .core => coreTurn s
  | .producer => .next (producerTurn s)
  | .start => .next (startTurn s)

/-- The word `w` placed where the next iteration fetches, in a started core whose move is next: the program
section's word at pc (or at 0x3000 when pc is outside the section), with the loaded range reaching past it.
It stands for the load and the start (log 15). -/
def placeWord (w : Word) (s : State) : State :=
  let a : Word := if programStart.toNat ≤ s.pc.toNat ∧ s.pc.toNat ≤ programLast.toNat then s.pc else programStart
  let s1 : State := { s with
    pc := a, mem := s.mem.write a.toNat w, run := .running, wait := .none, schedule := .core :: s.schedule }
  if inImage s1 a then s1 else { s1 with instructionCount := a.toNat - programStart.toNat + 1 }

end Sys2Proof.Machine
end

