-- ==== Sys2Proof/Machine/Load.lean ====
section
/-! DEFINITION. The load of an object file into a constructed core, its errors, and the host's listing
(70_reset_and_hazards.md R191 to R194, 20_memory.md R69). -/

namespace Sys2Proof.Machine

/-- What the host's reader hands over: the file's bytes, or why it could not read them (R192, check 1). -/
inductive Source where
  | unreadable (detail : String)
  | bytes (file : List Byte)
  deriving DecidableEq, Repr

/-- The load errors (R192). -/
inductive LoadError where
  | unreadableSource (detail : String)
  | oddByteCount (length : Nat)
  | missingOriginHeader
  | wrongOrigin (word0 : Word)
  | emptyProgram
  | programTooLong (actual maximum : Nat)
  deriving DecidableEq, Repr

/-- The big-endian words of a byte sequence (R191); a last single byte, which R192 rejects, is dropped. -/
def wordsOf : List Byte → List Word
  | hi :: lo :: rest => (hi ++ lo) :: wordsOf rest
  | [_] => []
  | [] => []

/-- The words loaded at `a`, `a + 1`, ..., in memory's canonical form. -/
def imageAt (a : Nat) : List Word → Memory
  | [] => []
  | w :: ws => if w = 0#16 then imageAt (a + 1) ws else (a, w) :: imageAt (a + 1) ws

/-- `Load(bytes)` into the constructed core `s` (R192): the checks in the spec's order, each before any change
of memory, so that a failed load gives no core (R194). DESIGN CHOICE: the spec loads a core once (R190, D33) and says nothing of a
load into a core that is already loaded, running or ended. Here `load` has no guard: it answers as for a constructed
core, replacing `mem` and `instructionCount` and keeping every other field (log 28). DESIGN CHOICE: so it keeps the
channel too, with a character that the producer enqueued before the load (log 29). R193's empty channel, as the rest of
its state, is that of a load of `State.reset`. -/
def load (s : State) (src : Source) : Except LoadError State :=
  match src with
  | .unreadable detail => .error (.unreadableSource detail)
  | .bytes file =>
    if file.length % 2 = 1 then .error (.oddByteCount file.length)
    else
      match wordsOf file with
      | [] => .error .missingOriginHeader
      | header :: program =>
        if header ≠ programStart then .error (.wrongOrigin header)
        else if program.length = 0 then .error .emptyProgram
        else if program.length > programCapacity then
          .error (.programTooLong program.length programCapacity)
        else .ok { s with mem := imageAt programStart.toNat program, instructionCount := program.length }

/-- `program_slice()` (R69): the words from 0x3000 to program_end - 1. -/
def programSlice (s : State) : List Word :=
  (List.range ((programEnd s).toNat - programStart.toNat)).map fun k => s.mem.read (programStart.toNat + k)

end Sys2Proof.Machine
end

