-- ==== Sys2Proof/Safety.lean ====
section
/-! DEFINITION. The terms the claims use: what a step leaves unchanged, the invariant of every run, the moves of
the agents in any order, and weak fairness (70_reset_and_hazards.md R199). -/

namespace Sys2Proof.Machine

/-! ### Frames -/

/-- Every register not listed keeps its value and its mark. -/
def SameRegsExcept (written : List Reg) (s t : State) : Prop :=
  ∀ r : Reg, r ∉ written → t.regs[r] = s.regs[r] ∧ t.gprWritten[r] = s.gprWritten[r]

/-- The condition flag is unchanged, and so is whether it was ever set. -/
def SameFlag (s t : State) : Prop := t.cc = s.cc ∧ t.ccSet = s.ccSet

/-- Every word of memory outside the listed addresses reads as before, and the loaded range is the same. -/
def SameMemoryExcept (stored : List Word) (s t : State) : Prop :=
  t.instructionCount = s.instructionCount ∧
    ∀ a : Word, a ∉ stored → t.mem.read a.toNat = s.mem.read a.toNat

/-- The keyboard's registers and the channel are unchanged. -/
def SameKeyboard (s t : State) : Prop :=
  t.kbReady = s.kbReady ∧ t.kbLatch = s.kbLatch ∧ t.channel = s.channel

/-- Nothing was written to the console. -/
def SameConsole (s t : State) : Prop := t.output = s.output ∧ t.writeOutcomes = s.writeOutcomes

/-- The run goes on as it was. -/
def SameRun (s t : State) : Prop := t.run = s.run ∧ t.wait = s.wait

/-- The host's side and the parameters are unchanged: no instruction touches them. -/
def SameEnvironment (s t : State) : Prop :=
  t.inputStream = s.inputStream ∧ t.producerStopped = s.producerStopped ∧ t.schedule = s.schedule ∧
    t.params = s.params

/-- No device, console, run state or host was touched. -/
def SameOutside (s t : State) : Prop :=
  SameKeyboard s t ∧ SameConsole s t ∧ SameRun s t ∧ SameEnvironment s t

/-! ### Reading the rules -/

/-- A data read of `a` does not fault: the loaded range, KBSR or KBDR (20_memory.md R52). -/
def readable (s : State) (a : Word) : Bool := inImage s a || a == kbsrAddr || a == kbdrAddr

/-- The value and the state of a data read that does not fault (20_memory.md R53). -/
def readWord (a : Word) (s : State) : Word × State :=
  if a = kbsrAddr then kbsrRead s else if a = kbdrAddr then kbdrRead s else (s.mem.read a.toNat, s)

/-- The next `n` console writes all succeed. -/
def writesSucceed (n : Nat) (s : State) : Bool := (s.writeOutcomes.take n).all fun b => b

/-- The console after `bytes` were written with success. -/
def withOutput (bytes : List Byte) (s : State) : State :=
  { s with output := s.output ++ bytes, writeOutcomes := s.writeOutcomes.drop bytes.length }

/-- The words `ws` stand in the loaded range from `a` on, none of them at KBSR or KBDR. -/
def holdsWords (s : State) : Word → List Word → Bool
  | _, [] => true
  | a, w :: ws =>
    inImage s a && a != kbsrAddr && a != kbdrAddr && s.mem.read a.toNat == w && holdsWords s (a + 1#16) ws

/-- The words `ws` are what data reads of `a`, `a + 1`, ... give, one after another, none of them faulting
(20_memory.md R53). Reads of KBSR and KBDR have their effects, which the reads after them see. -/
def readsWords : State → Word → List Word → Bool
  | _, _, [] => true
  | s, a, w :: ws => readable s a && (readWord a s).1 == w && readsWords (readWord a s).2 (a + 1#16) ws

/-- The state after `n` data reads of `a`, `a + 1`, ... -/
def afterReads : Nat → Word → State → State
  | 0, _, s => s
  | n + 1, a, s => afterReads n (a + 1#16) (readWord a s).2

/-- The bytes of a packed string (43_trap.md R146): low byte, high byte, of each word in turn. -/
def packedBytes (ws : List Word) : List Byte := ws.flatMap fun w => [lowByte w, highByte w]

/-- The fault record of an instruction whose pc is already incremented (60_exceptions.md R171). -/
def instrRecord (kind : FaultKind) (info : FaultInfo) (w : Word) (s : State) : FaultRecord :=
  { kind := kind, addr := s.pc - 1#16, word := some w, info := info }

/-- The state with the run faulted, and nothing else changed (60_exceptions.md R172). -/
def faultedWith (r : FaultRecord) (s : State) : State := { s with run := .faulted r }

/-- The characters that reached the core and were not delivered to the program yet, oldest first: the latched
one, then the channel. -/
def buffered (s : State) : List Byte := (if s.kbReady then [s.kbLatch] else []) ++ s.channel

/-- The character went into a register, zero-extended (43_trap.md R142, R145; 20_memory.md R55). -/
def inRegister (r : Reg) (c : Byte) (t : State) : Prop := t.regs[r] = zext c ∧ t.gprWritten[r] = true

/-- The character was read as a pointer: zero-extended it is no address of a program or of the keyboard, so the
access to it faulted (42_data_movement.md R121, R125). -/
def asPointer (c : Byte) (t : State) : Prop := ∃ r, t.run = .faulted r ∧ r.info = .address (zext c)

/-- The character was read as the first word of a string: it was printed, or ended the string, or its write failed
(43_trap.md R144, R146, R149). -/
def asString (c : Byte) (u t : State) : Prop :=
  t.output = u.output ++ (if c = 0#8 then [] else [c]) ∨
    (c ≠ 0#8 ∧ writesSucceed 1 u = false ∧ ∃ r, t.run = .faulted r ∧ r.kind = .ioError)

/-- The instruction `i`, run from `u`, is one that takes a character, and `t` shows `c` delivered to the program:
GETC and IN (43_trap.md R150), and the data reads of KBDR (20_memory.md R55) by a load, by STI's or LDI's pointer, and
by a string. -/
def takenBy (c : Byte) (i : Instr) (u t : State) : Prop :=
  match i with
  | .getc _ => inRegister 0 c t
  | .input _ => inRegister 0 c t
  | .ld dr off9 => u.pc + sext off9 = kbdrAddr ∧ inRegister dr c t
  | .ldr dr base off6 => (readReg base u).1 + sext off6 = kbdrAddr ∧ inRegister dr c t
  | .ldi dr off9 =>
    (u.pc + sext off9 = kbdrAddr ∧ asPointer c t) ∨
      ((readWord (u.pc + sext off9) u).1 = kbdrAddr ∧ inRegister dr c t)
  | .sti _ off9 => u.pc + sext off9 = kbdrAddr ∧ asPointer c t
  | .puts _ => (readReg 0 u).1 = kbdrAddr ∧ asString c u t
  | .putsp _ => (readReg 0 u).1 = kbdrAddr ∧ asString c u t
  | _ => False

/-- In the step from `s` to `t` the core delivered the character `c` to the program: by the end of a wait (10_state.md
R39), or by the instruction at pc. -/
def delivered (c : Byte) (s t : State) : Prop :=
  nextTurn s = .core ∧ s.run = .running ∧
    (((∃ routine w, s.wait = .waitingInput routine w) ∧ inRegister 0 c t) ∨
      (s.wait = .none ∧ inImage s s.pc = true ∧
        takenBy c (decode (s.mem.read s.pc.toNat)) { s with pc := s.pc + 1#16, schedule := s.schedule.tail } t))

/-- The same instruction with every ignored bit 0 (30_encoding.md R85). -/
def clearIgnored : Instr → Instr
  | .addReg dr sr1 sr2 _ => .addReg dr sr1 sr2 0
  | .addImm dr sr1 imm5 => .addImm dr sr1 imm5
  | .andReg dr sr1 sr2 _ => .andReg dr sr1 sr2 0
  | .andImm dr sr1 imm5 => .andImm dr sr1 imm5
  | .not dr sr _ => .not dr sr 0
  | .br n z p off9 => .br n z p off9
  | .jsr off11 => .jsr off11
  | .jsrr base _ _ => .jsrr base 0 0
  | .jmp base _ _ => .jmp base 0 0
  | .ret _ _ => .ret 0 0
  | .ld dr off9 => .ld dr off9
  | .ldi dr off9 => .ldi dr off9
  | .ldr dr base off6 => .ldr dr base off6
  | .lea dr off9 => .lea dr off9
  | .st sr off9 => .st sr off9
  | .sti sr off9 => .sti sr off9
  | .str sr base off6 => .str sr base off6
  | .trap vect _ => .trap vect 0
  | .getc _ => .getc 0
  | .out _ => .out 0
  | .puts _ => .puts 0
  | .input _ => .input 0
  | .putsp _ => .putsp 0
  | .halt _ => .halt 0
  | .rti _ => .rti 0
  | .reserved _ => .reserved 0

/-- The state with the recorded instruction word forgotten, in a fault record and in a wait: the only places
where ignored bits can be seen (60_exceptions.md R171). -/
def forgetWord (s : State) : State :=
  { s with
    run := match s.run with
      | .faulted r => .faulted { r with word := none }
      | .notStarted => .notStarted
      | .running => .running
      | .halted reason => .halted reason
    wait := match s.wait with
      | .none => .none
      | .waitingInput routine _ => .waitingInput routine 0#16 }

/-- What the flag says of a word (10_state.md R28): zero, high bit set, or neither. -/
def flagSays (v : Word) : Flag → Prop
  | .zero => v.toNat = 0
  | .neg => 0x8000 ≤ v.toNat
  | .pos => 0 < v.toNat ∧ v.toNat < 0x8000

/-- The stores (20_memory.md R50). -/
def isStore : Instr → Bool
  | .st _ _ => true
  | .sti _ _ => true
  | .str _ _ _ => true
  | _ => false

/-- The control transfers, which alone write pc (10_state.md R25). -/
def isControl : Instr → Bool
  | .br _ _ _ _ => true
  | .jsr _ => true
  | .jsrr _ _ _ => true
  | .jmp _ _ _ => true
  | .ret _ _ => true
  | _ => false

/-- The instructions that may write to the console (10_state.md R34): TRAP and its routines but GETC. -/
def isConsole : Instr → Bool
  | .trap _ _ => true
  | .out _ => true
  | .puts _ => true
  | .input _ => true
  | .putsp _ => true
  | .halt _ => true
  | _ => false

/-- The destination register of the seven flag-writing instructions (10_state.md R27). -/
def flagDest : Instr → Option Reg
  | .addReg dr _ _ _ => some dr
  | .addImm dr _ _ => some dr
  | .andReg dr _ _ _ => some dr
  | .andImm dr _ _ => some dr
  | .not dr _ _ => some dr
  | .ld dr _ => some dr
  | .ldi dr _ => some dr
  | .ldr dr _ _ => some dr
  | .lea dr _ => some dr
  | _ => none

/-- The registers an instruction may write (10_state.md R20): DR, R7 for JSR and JSRR, R0 for GETC and IN. -/
def writtenRegs : Instr → List Reg
  | .addReg dr _ _ _ => [dr]
  | .addImm dr _ _ => [dr]
  | .andReg dr _ _ _ => [dr]
  | .andImm dr _ _ => [dr]
  | .not dr _ _ => [dr]
  | .ld dr _ => [dr]
  | .ldi dr _ => [dr]
  | .ldr dr _ _ => [dr]
  | .lea dr _ => [dr]
  | .jsr _ => [7]
  | .jsrr _ _ _ => [7]
  | .getc _ => [0]
  | .input _ => [0]
  | .trap vect _ => if vect = 0x20#8 ∨ vect = 0x23#8 then [0] else []
  | _ => []

/-! ### The invariant of every run -/

/-- Memory is in canonical form, only the loaded range is listed, and the range is no longer than the program
section (10_state.md R31, 20_memory.md R52). -/
abbrev memoryInv (s : State) : Prop :=
  s.mem.wf ∧ s.instructionCount ≤ programCapacity ∧ ∀ c ∈ s.mem, inImage s (BitVec.ofNat 16 c.1) = true

/-- A waiting core is running, holds no latched character, and its word is the one before pc (10_state.md
R39, 43_trap.md R150). -/
def waitInv (s : State) : Bool :=
  match s.wait with
  | .none => true
  | .waitingInput _ w => s.run == .running && !s.kbReady && fetch (s.pc - 1#16) s == some w

/-- The `info` that R171 gives a kind of fault (60_exceptions.md R170, R171). -/
def infoFits (s : State) (kind : FaultKind) (info : FaultInfo) : Bool :=
  match kind, info with
  | .reservedInstructionFound, .nothing => true
  | .unknownTrapRoutine, .vector v => !trapVectors.contains v
  | .ioError, .nothing => true
  | .rtiUnimplemented, .nothing => true
  | .fetchOutOfRange, .nothing => true
  | .memoryReadOutOfRange, .address a => !readable s a
  | .memoryWriteOutOfRange, .address a => !inImage s a || a == kbsrAddr || a == kbdrAddr
  | _, _ => false

/-- A fault record names the word that memory holds at its address, with pc one past it; FetchOutOfRange has no
word, an address that cannot be fetched, and pc there (60_exceptions.md R171, R172). -/
def faultInv (s : State) : Bool :=
  match s.run with
  | .faulted r =>
    infoFits s r.kind r.info &&
    (match r.word with
      | none => r.kind == .fetchOutOfRange && s.pc == r.addr && !inImage s r.addr
      | some w => r.kind != .fetchOutOfRange && s.pc == r.addr + 1#16 && fetch r.addr s == some w)
  | .notStarted => true
  | .running => true
  | .halted _ => true

/-- After the end of the run the channel is empty, and the producer stops only then (20_memory.md R68). -/
abbrev endInv (s : State) : Prop :=
  (runEnded s = true → s.channel = []) ∧ (s.producerStopped = true → runEnded s = true)

/-- What holds of every state of a run, from a loaded core on. -/
abbrev Inv (s : State) : Prop := memoryInv s ∧ waitInv s = true ∧ faultInv s = true ∧ endInv s

/-! ### Runs of the agents in any order (20_memory.md R67), and progress (R199) -/

/-- A run, whoever moves at each point. -/
def IsRun (turns : Nat → Turn) (states : Nat → State) : Prop :=
  ∀ n, takeTurn (turns n) (states n) = .next (states (n + 1))

/-- The core has a move: an iteration, or a character to take while waiting (R39). -/
def coreEnabled (s : State) : Bool :=
  s.run == .running && (s.wait == .none || !s.channel.isEmpty)

/-- The producer has a move before the end of the run (R67). -/
def producerEnabled (s : State) : Bool :=
  !runEnded s && !s.producerStopped && (nextChar s.inputStream).isSome

/-- Weak fairness of both agents (R199): an agent that has a move from some point on makes one. It is an
assumption of claims about unbounded runs, and no definition of the model rests on it (log 19). -/
def WeaklyFair (turns : Nat → Turn) (states : Nat → State) : Prop :=
  (∀ n, (∀ m, n ≤ m → coreEnabled (states m) = true) → ∃ m, n ≤ m ∧ turns m = .core) ∧
  (∀ n, (∀ m, n ≤ m → producerEnabled (states m) = true) → ∃ m, n ≤ m ∧ turns m = .producer)

end Sys2Proof.Machine
end

