-- ==== Sys2Proof/Certificates/Slice0/Obligations.lean ====
section
/-! DEFINITION. The statements for the provers. A docstring names the rule or section a statement formalises, and
the decision D<n> of spec/92_eei_decisions.md or the log entry it rests on where it is not the source's own. -/

open Sys2Proof Sys2Proof.Machine

/-! ### Encoding -/

/-- Decoding the word of a well-formed instruction gives the instruction back, with every operand and every
ignored bit (30_encoding.md R81 to R86; opcode numbers and positions are D10 and D11; log 1, log 2). -/
def Obligations.DecodeOfEncodeIsTheInstruction : Prop :=
  ∀ i : Instr, i.wellFormed = true → decode (encode i) = i

/-- Every one of the 65536 words is the word of exactly the well-formed instruction it decodes to: none is
refused and no bit is lost (30_encoding.md R86). -/
def Obligations.EncodeOfDecodeIsTheWord : Prop :=
  ∀ w : Word, (decode w).wellFormed = true ∧ encode (decode w) = w

/-- Words written out in 95_test_vectors.md decode to the instructions it gives them. -/
def Obligations.TestVectorWordsDecode : Prop :=
  decode 0x1642#16 = .addReg 3 1 2 0 ∧ decode 0x16EE#16 = .addImm 3 3 14 ∧
  decode 0x1259#16 = .addReg 1 1 1 3 ∧ decode 0x5642#16 = .andReg 3 1 2 0 ∧
  decode 0x547F#16 = .andImm 2 1 31 ∧ decode 0x947F#16 = .not 2 1 63 ∧
  decode 0x03FD#16 = .br false false true 0x1FD ∧ decode 0x49A1#16 = .jsr 0x1A1 ∧
  decode 0x46C0#16 = .jsrr 3 3 0 ∧ decode 0xC0C0#16 = .jmp 3 0 0 ∧ decode 0xC1C0#16 = .ret 0 0 ∧
  decode 0x23FE#16 = .ld 1 0x1FE ∧ decode 0xA204#16 = .ldi 1 4 ∧ decode 0x6960#16 = .ldr 4 5 0x20 ∧
  decode 0xE455#16 = .lea 2 0x55 ∧ decode 0x3602#16 = .st 3 2 ∧ decode 0xB000#16 = .sti 0 0 ∧
  decode 0x7180#16 = .str 0 6 0 ∧ decode 0xF020#16 = .getc 0 ∧ decode 0xF021#16 = .out 0 ∧
  decode 0xF022#16 = .puts 0 ∧ decode 0xF023#16 = .input 0 ∧ decode 0xF024#16 = .putsp 0 ∧
  decode 0xFF25#16 = .halt 15 ∧ decode 0xF026#16 = .trap 0x26 0 ∧ decode 0x8FFF#16 = .rti 0xFFF ∧
  decode 0xDABC#16 = .reserved 0xABC

/-- Clearing the bits no field uses changes nothing but the word a fault record or a wait keeps (30_encoding.md
R85, decision D9). -/
def Obligations.IgnoredBitsChangeNothing : Prop :=
  ∀ (i : Instr) (s : State), ∃ t u, exec i s = .next t ∧ exec (clearIgnored i) s = .next u ∧
    forgetWord u = forgetWord t

/-! ### Words -/

/-- R11: `sext_N` for N in 5, 6, 9, 11, by the spec's formula, and `zext_8`. -/
def Obligations.SignExtensionFormula : Prop :=
  (∀ f : BitVec 5, (sext f).toNat = if f.getLsbD 4 then f.toNat + 0xFFE0 else f.toNat) ∧
  (∀ f : BitVec 6, (sext f).toNat = if f.getLsbD 5 then f.toNat + 0xFFC0 else f.toNat) ∧
  (∀ f : BitVec 9, (sext f).toNat = if f.getLsbD 8 then f.toNat + 0xFE00 else f.toNat) ∧
  (∀ f : BitVec 11, (sext f).toNat = if f.getLsbD 10 then f.toNat + 0xF800 else f.toNat) ∧
  (∀ f : BitVec 8, (zext f).toNat = f.toNat)

/-- R10: the two views of a word, their ranges, and the round trip between them. -/
def Obligations.WordViewsRoundTrip : Prop :=
  (∀ w : Word, u16 w < 65536 ∧ s16 w = (if w.getLsbD 15 then (u16 w : Int) - 65536 else u16 w) ∧
    -32768 ≤ s16 w ∧ s16 w ≤ 32767 ∧ fromSigned (s16 w) = w) ∧
  (∀ n : Int, (u16 (fromSigned n) : Int) = n % 65536) ∧
  (∀ n : Int, -32768 ≤ n → n ≤ 32767 → s16 (fromSigned n) = n)

/-! ### Registers and the flag -/

/-- A register that was written reads as its last value without any other effect; one that was not reads as a
fresh draw; and a write is what the next read sees, leaving the other registers alone (10_state.md R22, decision
D1). -/
def Obligations.RegisterReadsAndWrites : Prop :=
  (∀ (r : Reg) (s : State), s.gprWritten[r] = true → readReg r s = (s.regs[r], s)) ∧
  (∀ (r : Reg) (s : State), s.gprWritten[r] = false →
    readReg r s = (Config.freeWord s.draws, { s with draws := s.draws + 1 })) ∧
  (∀ (r q : Reg) (v : Word) (s : State), readReg r (setReg r v s) = (v, setReg r v s) ∧
    SameRegsExcept [r] s (setReg r v s) ∧
    (q ≠ r → (readReg q (setReg r v s)).1 = (readReg q s).1))

/-- R28: `setcc(v)`. -/
def Obligations.SetccSetsTheFlag : Prop :=
  ∀ (v : Word) (s : State),
    (v = 0x0000#16 → setcc v s = { s with cc := .zero, ccSet := true }) ∧
    (v ≠ 0x0000#16 → v.getLsbD 15 = true → setcc v s = { s with cc := .neg, ccSet := true }) ∧
    (v ≠ 0x0000#16 → v.getLsbD 15 = false → setcc v s = { s with cc := .pos, ccSet := true })

/-- The flag is written by exactly the seven instructions of 10_state.md R27, each from the value it leaves in its
DR, unless it faults; no other instruction writes it (90_conflicts.md C1, C2). -/
def Obligations.FlagWrittenByExactlySeven : Prop :=
  ∀ (i : Instr) (s t : State), exec i s = .next t →
    (flagDest i = none → SameFlag s t) ∧
    (∀ dr, flagDest i = some dr → s.run = .running →
      (t.run = .running ∧ t.ccSet = true ∧ flagSays t.regs[dr] t.cc ∧ t.gprWritten[dr] = true) ∨
      (t.run ≠ .running ∧ SameFlag s t ∧ SameRegsExcept [] s t))

/-- An instruction writes only the registers 10_state.md R20 says, and a written register stays marked (R22). -/
def Obligations.RegistersWrittenOnlyByTheirInstructions : Prop :=
  ∀ (i : Instr) (s t : State), exec i s = .next t →
    SameRegsExcept (writtenRegs i) s t ∧ ∀ r : Reg, s.gprWritten[r] = true → t.gprWritten[r] = true

/-! ### ADD, AND, NOT -/

/-- ADD (40_operate.md R100, R103): the sum modulo 2^16 of SR1 and of SR2 or the signed imm5, both read before DR
is written, and the flag from it. -/
def Obligations.AddWrapsAndSetsTheFlag : Prop :=
  (∀ (s : State) (dr sr1 sr2 : Reg) (ign : BitVec 2), ∃ t, exec (.addReg dr sr1 sr2 ign) s = .next t ∧
    (t.regs[dr]).toNat = ((readReg sr1 s).1.toNat + (readReg sr2 (readReg sr1 s).2).1.toNat) % 65536 ∧
    t.gprWritten[dr] = true ∧ t.ccSet = true ∧ flagSays t.regs[dr] t.cc) ∧
  (∀ (s : State) (dr sr1 : Reg) (imm5 : BitVec 5), ∃ t, exec (.addImm dr sr1 imm5) s = .next t ∧
    ((t.regs[dr]).toNat : Int) = ((readReg sr1 s).1.toNat + imm5.toInt) % 65536 ∧
    t.gprWritten[dr] = true ∧ t.ccSet = true ∧ flagSays t.regs[dr] t.cc)

/-- AND (40_operate.md R101): bit by bit, imm5 sign-extended as ADD's is, and the flag from it.
NOT (R102): the complement of SR, and the flag from it. -/
def Obligations.AndAndNotAreBitwise : Prop :=
  (∀ (s : State) (dr sr1 sr2 : Reg) (ign : BitVec 2), ∃ t, exec (.andReg dr sr1 sr2 ign) s = .next t ∧
    (∀ k < 16, (t.regs[dr]).getLsbD k =
      ((readReg sr1 s).1.getLsbD k && (readReg sr2 (readReg sr1 s).2).1.getLsbD k)) ∧
    t.gprWritten[dr] = true ∧ t.ccSet = true ∧ flagSays t.regs[dr] t.cc) ∧
  (∀ (s : State) (dr sr1 : Reg) (imm5 : BitVec 5), ∃ t, exec (.andImm dr sr1 imm5) s = .next t ∧
    (∀ k < 16, (t.regs[dr]).getLsbD k = ((readReg sr1 s).1.getLsbD k && imm5.getLsbD (min k 4))) ∧
    t.gprWritten[dr] = true ∧ t.ccSet = true ∧ flagSays t.regs[dr] t.cc) ∧
  (∀ (s : State) (dr sr : Reg) (ign : BitVec 6), ∃ t, exec (.not dr sr ign) s = .next t ∧
    (t.regs[dr]).toNat = 65535 - (readReg sr s).1.toNat ∧
    t.gprWritten[dr] = true ∧ t.ccSet = true ∧ flagSays t.regs[dr] t.cc)

/-- What ADD, AND, NOT and LEA leave unchanged: every register but DR, pc, all of memory, the keyboard, the
console, the run and the host's side (40_operate.md R100 to R102, 42_data_movement.md R123). -/
def Obligations.OperateInstructionsFrame : Prop :=
  ∀ (i : Instr) (dr : Reg) (s : State),
    ((∃ sr1 sr2 ign, i = .addReg dr sr1 sr2 ign) ∨ (∃ sr1 imm5, i = .addImm dr sr1 imm5) ∨
      (∃ sr1 sr2 ign, i = .andReg dr sr1 sr2 ign) ∨ (∃ sr1 imm5, i = .andImm dr sr1 imm5) ∨
      (∃ sr ign, i = .not dr sr ign) ∨ (∃ off9, i = .lea dr off9)) →
    ∃ t, exec i s = .next t ∧ SameRegsExcept [dr] s t ∧ t.pc = s.pc ∧ SameMemoryExcept [] s t ∧ SameOutside s t

/-! ### Control transfer -/

/-- BR (41_control.md R110, decision D8): taken when nzp is 000 or a set bit matches the flag, and then pc moves by
the signed offset from the incremented pc. Before the first setcc the flag read is a fresh draw (R29, decision D2). -/
def Obligations.BranchIsTakenByItsCondition : Prop :=
  ∀ (s : State) (n z p : Bool) (off9 : BitVec 9), ∃ t, exec (.br n z p off9) s = .next t ∧
    (s.ccSet = true → readFlag s = (s.cc, s)) ∧
    (s.ccSet = false → readFlag s = (Config.freeFlag s.draws, { s with draws := s.draws + 1 })) ∧
    t.draws = (readFlag s).2.draws ∧
    (((n = false ∧ z = false ∧ p = false) ∨ (n = true ∧ (readFlag s).1 = .neg) ∨
        (z = true ∧ (readFlag s).1 = .zero) ∨ (p = true ∧ (readFlag s).1 = .pos)) →
      (t.pc.toNat : Int) = (s.pc.toNat + off9.toInt) % 65536) ∧
    (¬((n = false ∧ z = false ∧ p = false) ∨ (n = true ∧ (readFlag s).1 = .neg) ∨
        (z = true ∧ (readFlag s).1 = .zero) ∨ (p = true ∧ (readFlag s).1 = .pos)) → t.pc = s.pc) ∧
    (n = true → z = true → p = true → (t.pc.toNat : Int) = (s.pc.toNat + off9.toInt) % 65536)

/-- JSR (41_control.md R111, decision D8): R7 gets the incremented pc, and pc moves by the signed offset from it. -/
def Obligations.JsrLinksAndJumps : Prop :=
  ∀ (s : State) (off11 : BitVec 11), ∃ t, exec (.jsr off11) s = .next t ∧
    t.regs[(7 : Reg)] = s.pc ∧ t.gprWritten[(7 : Reg)] = true ∧
    (t.pc.toNat : Int) = (s.pc.toNat + off11.toInt) % 65536

/-- JSRR (41_control.md R112, decision D12): R7 gets the incremented pc; pc gets BaseR, which for BaseR = R7 is the
value just linked, or the old R7 under JSRR_BASE_READ_FIRST. JMP (R113): pc gets BaseR, whatever it holds. -/
def Obligations.RegisterJumpsReadTheirBase : Prop :=
  (∀ (s : State) (base : Reg) (ignHi : BitVec 2) (ignLo : BitVec 6),
    ∃ t, exec (.jsrr base ignHi ignLo) s = .next t ∧
    t.regs[(7 : Reg)] = s.pc ∧ t.gprWritten[(7 : Reg)] = true ∧
    (base ≠ 7 → t.pc = (readReg base s).1) ∧
    (base = 7 → s.params.jsrrBaseReadFirst = false → t.pc = s.pc) ∧
    (base = 7 → s.params.jsrrBaseReadFirst = true → t.pc = (readReg 7 s).1)) ∧
  (∀ (s : State) (base : Reg) (ignHi : BitVec 3) (ignLo : BitVec 6),
    ∃ t, exec (.jmp base ignHi ignLo) s = .next t ∧ t.pc = (readReg base s).1)

/-- R114: RET is JMP with BaseR = 7, canonically 0xC1C0, and pc gets R7. -/
def Obligations.RetIsJmpThroughR7 : Prop :=
  decode 0xC1C0#16 = .ret 0 0 ∧
  (∀ (ignHi : BitVec 3) (ignLo : BitVec 6), encode (.ret ignHi ignLo) = encode (.jmp 7 ignHi ignLo)) ∧
  ∀ (s : State) (ignHi : BitVec 3) (ignLo : BitVec 6), ∃ t, exec (.ret ignHi ignLo) s = .next t ∧
    exec (.jmp 7 ignHi ignLo) s = .next t ∧ t.pc = (readReg 7 s).1

/-- What BR, JSR, JSRR, JMP and RET leave unchanged: every register but R7 for JSR and JSRR, the flag, all of
memory, the keyboard, the console, the run and the host's side (41_control.md R110 to R116). -/
def Obligations.ControlInstructionsFrame : Prop :=
  ∀ (i : Instr) (s : State), isControl i = true →
    ∃ t, exec i s = .next t ∧ SameRegsExcept (writtenRegs i) s t ∧ SameFlag s t ∧ SameMemoryExcept [] s t ∧
      SameOutside s t

/-- No instruction but the control transfers writes pc (10_state.md R25), and none touches the host's side or the
parameters. -/
def Obligations.OnlyControlTransfersWritePc : Prop :=
  ∀ (i : Instr) (s t : State), exec i s = .next t →
    (isControl i = false → t.pc = s.pc) ∧ SameEnvironment s t

/-! ### The memory primitives -/

/-- R53: `MemRead(a, 1)`. -/
def Obligations.MemReadChecksTheRange : Prop :=
  ∀ (w a : Word) (s : State),
    (a = 0xFE00#16 → memRead w a s = .ok (kbsrRead s).1 (kbsrRead s).2) ∧
    (a = 0xFE02#16 → memRead w a s = .ok (kbdrRead s).1 (kbdrRead s).2) ∧
    (a ≠ 0xFE00#16 → a ≠ 0xFE02#16 → 0x3000 ≤ a.toNat → a.toNat < (programEnd s).toNat →
      memRead w a s = .ok (s.mem.read a.toNat) s) ∧
    (a ≠ 0xFE00#16 → a ≠ 0xFE02#16 → ¬(0x3000 ≤ a.toNat ∧ a.toNat < (programEnd s).toNat) →
      ∃ r, memRead w a s = .stop { s with run := .faulted r } ∧ r.kind = .memoryReadOutOfRange ∧
        r.info = .address a)

/-- A KBSR read (20_memory.md R54, decisions D3, D28): ready if a character is latched or can be taken from the
channel, and then it is latched; bit 15 of the answer says which. A KBDR read (R55, decision D4): the latched character,
zero-extended, and ready cleared; else some value whose high byte is zero, with the keyboard as it was. -/
def Obligations.KeyboardRegisterReads : Prop :=
  ∀ s : State,
    (s.kbReady = true → kbsrRead s = (kbsrReady s.params, s)) ∧
    (∀ c rest, s.kbReady = false → s.channel = c :: rest →
      kbsrRead s = (kbsrReady s.params, { s with kbReady := true, kbLatch := c, channel := rest })) ∧
    (s.kbReady = false → s.channel = [] → kbsrRead s = (kbsrNotReady s.params, s)) ∧
    (kbsrReady s.params).getLsbD 15 = true ∧ (kbsrNotReady s.params).getLsbD 15 = false ∧
    kbsrReady {} = 0x8000#16 ∧ kbsrNotReady {} = 0x0000#16 ∧
    (s.kbReady = true → (kbdrRead s).1.toNat = s.kbLatch.toNat ∧
      (kbdrRead s).2 = { s with kbReady := false }) ∧
    (s.kbReady = false → (kbdrRead s).1.toNat < 256 ∧
      (kbdrRead s).2 = { s with draws := s.draws + 1 })

/-! ### Loads -/

/-- LD and LDR of an address that can be read (42_data_movement.md R120, R122, decision D8): DR gets the word and
the flag is set from it, and the run goes on. LDR's address comes from the old BaseR. LDI (R121) reads the word at
pc + offset, and then the word at that word. The keyboard is as the reads leave it, KBSR and KBDR included (R54, R55;
`KeyboardRegisterReads` says what they do). -/
def Obligations.LoadsReadTheirAddress : Prop :=
  (∀ (s : State) (dr : Reg) (off9 : BitVec 9), readable s (s.pc + sext off9) = true →
    ∃ t, exec (.ld dr off9) s = .next t ∧ t.regs[dr] = (readWord (s.pc + sext off9) s).1 ∧
      t.gprWritten[dr] = true ∧ t.ccSet = true ∧ flagSays t.regs[dr] t.cc ∧ t.run = s.run ∧
      SameKeyboard (readWord (s.pc + sext off9) s).2 t) ∧
  (∀ (s : State) (dr base : Reg) (off6 : BitVec 6), readable s ((readReg base s).1 + sext off6) = true →
    ∃ t, exec (.ldr dr base off6) s = .next t ∧
      t.regs[dr] = (readWord ((readReg base s).1 + sext off6) (readReg base s).2).1 ∧
      t.gprWritten[dr] = true ∧ t.ccSet = true ∧ flagSays t.regs[dr] t.cc ∧ t.run = s.run ∧
      SameKeyboard (readWord ((readReg base s).1 + sext off6) (readReg base s).2).2 t) ∧
  (∀ (s : State) (dr : Reg) (off9 : BitVec 9), readable s (s.pc + sext off9) = true →
    readable s (readWord (s.pc + sext off9) s).1 = true →
    ∃ t, exec (.ldi dr off9) s = .next t ∧
      t.regs[dr] = (readWord (readWord (s.pc + sext off9) s).1 (readWord (s.pc + sext off9) s).2).1 ∧
      t.gprWritten[dr] = true ∧ t.ccSet = true ∧ flagSays t.regs[dr] t.cc ∧ t.run = s.run ∧
      SameKeyboard (readWord (readWord (s.pc + sext off9) s).1 (readWord (s.pc + sext off9) s).2).2 t)

/-- What LD, LDI and LDR leave unchanged, whether they complete or fault: every register but DR, pc, all of memory,
the console, the wait and the host's side; and the keyboard too when no address read is one of its registers
(42_data_movement.md R120 to R122). -/
def Obligations.LoadInstructionsFrame : Prop :=
  (∀ (i : Instr) (dr : Reg) (s : State),
    ((∃ off9, i = .ld dr off9) ∨ (∃ off9, i = .ldi dr off9) ∨ (∃ base off6, i = .ldr dr base off6)) →
    ∃ t, exec i s = .next t ∧ SameRegsExcept [dr] s t ∧ t.pc = s.pc ∧ SameMemoryExcept [] s t ∧
      SameConsole s t ∧ t.wait = s.wait ∧ SameEnvironment s t) ∧
  (∀ (s t : State) (dr : Reg) (off9 : BitVec 9), s.pc + sext off9 ≠ kbsrAddr → s.pc + sext off9 ≠ kbdrAddr →
    exec (.ld dr off9) s = .next t → SameKeyboard s t) ∧
  (∀ (s t : State) (dr base : Reg) (off6 : BitVec 6), (readReg base s).1 + sext off6 ≠ kbsrAddr →
    (readReg base s).1 + sext off6 ≠ kbdrAddr → exec (.ldr dr base off6) s = .next t → SameKeyboard s t) ∧
  (∀ (s t : State) (dr : Reg) (off9 : BitVec 9), s.pc + sext off9 ≠ kbsrAddr → s.pc + sext off9 ≠ kbdrAddr →
    s.mem.read (s.pc + sext off9).toNat ≠ kbsrAddr → s.mem.read (s.pc + sext off9).toNat ≠ kbdrAddr →
    exec (.ldi dr off9) s = .next t → SameKeyboard s t)

/-- A load of an address that cannot be read raises MemoryReadOutOfRange with that address and changes no register
and no flag (42_data_movement.md R120 to R122; the record's fields are decision D21). When LDI's second read
faults, what the first read did to the keyboard remains. -/
def Obligations.LoadsOutOfRangeFault : Prop :=
  (∀ (s : State) (dr : Reg) (off9 : BitVec 9), readable s (s.pc + sext off9) = false →
    exec (.ld dr off9) s = .next (faultedWith
        (instrRecord .memoryReadOutOfRange (.address (s.pc + sext off9)) (encode (.ld dr off9)) s) s) ∧
    exec (.ldi dr off9) s = .next (faultedWith
        (instrRecord .memoryReadOutOfRange (.address (s.pc + sext off9)) (encode (.ldi dr off9)) s) s)) ∧
  (∀ (s : State) (dr base : Reg) (off6 : BitVec 6), readable s ((readReg base s).1 + sext off6) = false →
    exec (.ldr dr base off6) s = .next (faultedWith
        (instrRecord .memoryReadOutOfRange (.address ((readReg base s).1 + sext off6))
          (encode (.ldr dr base off6)) s) (readReg base s).2)) ∧
  (∀ (s : State) (dr : Reg) (off9 : BitVec 9), readable s (s.pc + sext off9) = true →
    readable s (readWord (s.pc + sext off9) s).1 = false →
    exec (.ldi dr off9) s = .next (faultedWith
        (instrRecord .memoryReadOutOfRange (.address (readWord (s.pc + sext off9) s).1)
          (encode (.ldi dr off9)) s) (readWord (s.pc + sext off9) s).2))

/-- LEA (42_data_movement.md R123, decision D8): DR gets the address itself, and the flag is set from it. -/
def Obligations.LeaGivesTheAddress : Prop :=
  ∀ (s : State) (dr : Reg) (off9 : BitVec 9), ∃ t, exec (.lea dr off9) s = .next t ∧
    ((t.regs[dr]).toNat : Int) = (s.pc.toNat + off9.toInt) % 65536 ∧
    t.gprWritten[dr] = true ∧ t.ccSet = true ∧ flagSays t.regs[dr] t.cc

/-! ### Stores -/

/-- ST, STR and STI into the loaded range (42_data_movement.md R124 to R126): the word at the address they compute
gets SR, and nothing else changes: no register, no flag, no other word, and nothing outside, but for what STI's read
of its pointer does to the keyboard when it reads KBSR or KBDR. Memory in canonical form is the model's own premise,
and part of the invariant (log 14). -/
def Obligations.StoresWriteTheirWord : Prop :=
  (∀ (s : State) (sr : Reg) (off9 : BitVec 9) (a : Word), a = s.pc + sext off9 → s.mem.wf →
    inImage s a = true → a ≠ kbsrAddr → a ≠ kbdrAddr →
    ∃ t, exec (.st sr off9) s = .next t ∧ t.mem.read a.toNat = (readReg sr s).1 ∧
      SameMemoryExcept [a] s t ∧ SameRegsExcept [] s t ∧ SameFlag s t ∧ t.pc = s.pc ∧ SameOutside s t) ∧
  (∀ (s : State) (sr base : Reg) (off6 : BitVec 6) (a : Word),
    a = (readReg base (readReg sr s).2).1 + sext off6 → s.mem.wf →
    inImage s a = true → a ≠ kbsrAddr → a ≠ kbdrAddr →
    ∃ t, exec (.str sr base off6) s = .next t ∧ t.mem.read a.toNat = (readReg sr s).1 ∧
      SameMemoryExcept [a] s t ∧ SameRegsExcept [] s t ∧ SameFlag s t ∧ t.pc = s.pc ∧ SameOutside s t) ∧
  (∀ (s : State) (sr : Reg) (off9 : BitVec 9) (a : Word), readable s (s.pc + sext off9) = true →
    a = (readWord (s.pc + sext off9) (readReg sr s).2).1 → s.mem.wf →
    inImage s a = true → a ≠ kbsrAddr → a ≠ kbdrAddr →
    ∃ t, exec (.sti sr off9) s = .next t ∧ t.mem.read a.toNat = (readReg sr s).1 ∧
      SameMemoryExcept [a] s t ∧ SameRegsExcept [] s t ∧ SameFlag s t ∧ t.pc = s.pc ∧
      SameConsole s t ∧ SameRun s t ∧ SameEnvironment s t ∧
      SameKeyboard (readWord (s.pc + sext off9) (readReg sr s).2).2 t ∧
      (s.pc + sext off9 ≠ kbsrAddr → s.pc + sext off9 ≠ kbdrAddr → SameKeyboard s t))

/-- A store to KBSR or KBDR (20_memory.md R56, decision D5; 42_data_movement.md R124 to R126): discarded, so that
nothing changes but what reading the operands did; or, under the fault policy, MemoryWriteOutOfRange. -/
def Obligations.StoresToTheKeyboardFollowThePolicy : Prop :=
  (∀ (s : State) (sr : Reg) (off9 : BitVec 9) (a : Word), a = s.pc + sext off9 →
    a = 0xFE00#16 ∨ a = 0xFE02#16 →
    exec (.st sr off9) s = .next (match s.params.mmioWritePolicy with
      | .discard => (readReg sr s).2
      | .fault => faultedWith (instrRecord .memoryWriteOutOfRange (.address a) (encode (.st sr off9)) s)
          (readReg sr s).2)) ∧
  (∀ (s : State) (sr base : Reg) (off6 : BitVec 6) (a : Word),
    a = (readReg base (readReg sr s).2).1 + sext off6 → a = 0xFE00#16 ∨ a = 0xFE02#16 →
    exec (.str sr base off6) s = .next (match s.params.mmioWritePolicy with
      | .discard => (readReg base (readReg sr s).2).2
      | .fault => faultedWith
          (instrRecord .memoryWriteOutOfRange (.address a) (encode (.str sr base off6)) s)
          (readReg base (readReg sr s).2).2)) ∧
  (∀ (s : State) (sr : Reg) (off9 : BitVec 9) (a : Word), readable s (s.pc + sext off9) = true →
    a = (readWord (s.pc + sext off9) (readReg sr s).2).1 → a = 0xFE00#16 ∨ a = 0xFE02#16 →
    exec (.sti sr off9) s = .next (match s.params.mmioWritePolicy with
      | .discard => (readWord (s.pc + sext off9) (readReg sr s).2).2
      | .fault => faultedWith (instrRecord .memoryWriteOutOfRange (.address a) (encode (.sti sr off9)) s)
          (readWord (s.pc + sext off9) (readReg sr s).2).2))

/-- A store outside the loaded range raises MemoryWriteOutOfRange with its address and stores nothing
(42_data_movement.md R124 to R126; the record's fields are decision D21). -/
def Obligations.StoresOutOfRangeFault : Prop :=
  (∀ (s : State) (sr : Reg) (off9 : BitVec 9) (a : Word), a = s.pc + sext off9 → readable s a = false →
    exec (.st sr off9) s = .next (faultedWith
        (instrRecord .memoryWriteOutOfRange (.address a) (encode (.st sr off9)) s) (readReg sr s).2)) ∧
  (∀ (s : State) (sr base : Reg) (off6 : BitVec 6) (a : Word),
    a = (readReg base (readReg sr s).2).1 + sext off6 → readable s a = false →
    exec (.str sr base off6) s = .next (faultedWith
        (instrRecord .memoryWriteOutOfRange (.address a) (encode (.str sr base off6)) s)
        (readReg base (readReg sr s).2).2)) ∧
  (∀ (s : State) (sr : Reg) (off9 : BitVec 9) (a : Word), readable s (s.pc + sext off9) = true →
    a = (readWord (s.pc + sext off9) (readReg sr s).2).1 → readable s a = false →
    exec (.sti sr off9) s = .next (faultedWith
        (instrRecord .memoryWriteOutOfRange (.address a) (encode (.sti sr off9)) s)
        (readWord (s.pc + sext off9) (readReg sr s).2).2)) ∧
  (∀ (s : State) (sr : Reg) (off9 : BitVec 9), readable s (s.pc + sext off9) = false →
    exec (.sti sr off9) s = .next (faultedWith
        (instrRecord .memoryReadOutOfRange (.address (s.pc + sext off9)) (encode (.sti sr off9)) s)
        (readReg sr s).2))

/-- A store is what the next fetch of its address sees, and every other fetch is as before (20_memory.md R65,
70_reset_and_hazards.md R197). -/
def Obligations.StoreIsSeenByTheNextFetch : Prop :=
  ∀ (s : State) (sr : Reg) (off9 : BitVec 9) (a : Word), a = s.pc + sext off9 → s.mem.wf →
    inImage s a = true → a ≠ kbsrAddr → a ≠ kbdrAddr →
    ∃ t, exec (.st sr off9) s = .next t ∧ fetch a t = some (readReg sr s).1 ∧
      ∀ b, b ≠ a → fetch b t = fetch b s

/-- No instruction but the three stores changes memory (10_state.md R31, 90_conflicts.md C4). -/
def Obligations.OnlyStoresChangeMemory : Prop :=
  ∀ (i : Instr) (s t : State), exec i s = .next t → isStore i = false → t.mem = s.mem

/-! ### TRAP and its routines -/

/-- TRAP dispatches on its vector to the six routines (43_trap.md R140, R141), whose words are the same. -/
def Obligations.TrapDispatchesToItsRoutines : Prop :=
  ∀ (ign : BitVec 4) (s : State),
    exec (.trap 0x20 ign) s = exec (.getc ign) s ∧ exec (.trap 0x21 ign) s = exec (.out ign) s ∧
    exec (.trap 0x22 ign) s = exec (.puts ign) s ∧ exec (.trap 0x23 ign) s = exec (.input ign) s ∧
    exec (.trap 0x24 ign) s = exec (.putsp ign) s ∧ exec (.trap 0x25 ign) s = exec (.halt ign) s

/-- R148: any other vector raises UnknownTrapRoutine, recording the vector; no output, no register written, pc as
incremented. Nothing else changes either. -/
def Obligations.UnknownTrapVectorFaults : Prop :=
  ∀ (v : BitVec 8) (ign : BitVec 4) (s : State), v.toNat < 0x20 ∨ 0x25 < v.toNat →
    ∃ r, exec (.trap v ign) s = .next { s with run := .faulted r } ∧ r.kind = .unknownTrapRoutine ∧
      r.info = .vector v

/-- GETC with a character to take (43_trap.md R142, R150, decisions D13, D14): R0 gets it, zero-extended; the latched
character goes first, else the head of the channel; nothing else changes. -/
def Obligations.GetcTakesACharacter : Prop :=
  ∀ (s : State) (ign : BitVec 4) (c : Byte),
    (s.kbReady = true → c = s.kbLatch →
      exec (.getc ign) s = .next { s with
        kbReady := false,
        regs := s.regs.set 0 (zext c), gprWritten := s.gprWritten.set 0 true }) ∧
    (∀ rest, s.kbReady = false → s.channel = c :: rest →
      exec (.getc ign) s = .next { s with
        channel := rest,
        regs := s.regs.set 0 (zext c), gprWritten := s.gprWritten.set 0 true })

/-- IN with a character to take and a console that accepts its eight bytes (43_trap.md R145, decisions D14, D29):
the prompt, R0, the echo; nothing else changes. -/
def Obligations.InPromptsTakesAndEchoes : Prop :=
  ∀ (s : State) (ign : BitVec 4) (c : Byte), writesSucceed 8 s = true →
    (s.kbReady = true → c = s.kbLatch →
      exec (.input ign) s = .next { s with
        kbReady := false,
        output := s.output ++ [0x49, 0x6E, 0x70, 0x75, 0x74, 0x3A, 0x20, c],
        writeOutcomes := s.writeOutcomes.drop 8,
        regs := s.regs.set 0 (zext c), gprWritten := s.gprWritten.set 0 true }) ∧
    (∀ rest, s.kbReady = false → s.channel = c :: rest →
      exec (.input ign) s = .next { s with
        channel := rest,
        output := s.output ++ [0x49, 0x6E, 0x70, 0x75, 0x74, 0x3A, 0x20, c],
        writeOutcomes := s.writeOutcomes.drop 8,
        regs := s.regs.set 0 (zext c), gprWritten := s.gprWritten.set 0 true })

/-- GETC and IN without a character wait (43_trap.md R150, 10_state.md R39): IN after its prompt. A waiting core's
move changes nothing while the channel is empty (log 4), and otherwise takes its head, ends the wait and completes
the routine. -/
def Obligations.InputWaitsAndResumes : Prop :=
  (∀ (s : State) (ign : BitVec 4), s.kbReady = false → s.channel = [] →
    exec (.getc ign) s = .next { s with wait := .waitingInput .getc (encode (.getc ign)) } ∧
    (writesSucceed 7 s = true → exec (.input ign) s = .next { s with
      output := s.output ++ [0x49, 0x6E, 0x70, 0x75, 0x74, 0x3A, 0x20],
      writeOutcomes := s.writeOutcomes.drop 7,
      wait := .waitingInput .input (encode (.input ign)) })) ∧
  (∀ (s : State) (routine : InputRoutine) (w : Word), nextTurn s = .core → s.run = .running →
    s.wait = .waitingInput routine w →
    (s.channel = [] → step s = .next { s with schedule := s.schedule.tail }) ∧
    (∀ c rest, s.channel = c :: rest → routine = .getc →
      step s = .next { s with
        schedule := s.schedule.tail, channel := rest, wait := .none,
        regs := s.regs.set 0 (zext c), gprWritten := s.gprWritten.set 0 true }) ∧
    (∀ c rest, s.channel = c :: rest → routine = .input → writesSucceed 1 s = true →
      step s = .next { s with
        schedule := s.schedule.tail, channel := rest, wait := .none,
        output := s.output ++ [c], writeOutcomes := s.writeOutcomes.drop 1,
        regs := s.regs.set 0 (zext c), gprWritten := s.gprWritten.set 0 true }))

/-- R143: OUT emits the low byte of R0, with the registers and the flag unchanged, and raises IoError if the write
fails. The keyboard and the wait are unchanged too. -/
def Obligations.OutEmitsTheLowByte : Prop :=
  ∀ (s : State) (ign : BitVec 4), ∃ t, exec (.out ign) s = .next t ∧
    SameRegsExcept [] s t ∧ SameFlag s t ∧ SameKeyboard s t ∧ t.wait = s.wait ∧
    (writesSucceed 1 s = true → t.run = s.run ∧
      ∃ b : Byte, b.toNat = (readReg 0 s).1.toNat % 256 ∧ t.output = s.output ++ [b]) ∧
    (writesSucceed 1 s = false → t.output = s.output ∧ ∃ r, t.run = .faulted r ∧ r.kind = .ioError)

/-- PUTS (43_trap.md R144, decisions D17, D19), on a console that accepts its string: the low byte of each word up to
the first word equal to 0x0000, and nothing else changes but what the reads of KBSR or KBDR do to the keyboard when
the string reaches them. For a string in the loaded range nothing else changes at all. -/
def Obligations.PutsPrintsItsString : Prop :=
  (∀ (s : State) (ign : BitVec 4) (ws : List Word),
    readsWords (readReg 0 s).2 (readReg 0 s).1 (ws ++ [0#16]) = true → (∀ w ∈ ws, w ≠ 0#16) →
    writesSucceed ws.length s = true →
    exec (.puts ign) s = .next (withOutput (ws.map lowByte)
      (afterReads (ws.length + 1) (readReg 0 s).1 (readReg 0 s).2))) ∧
  (∀ (s : State) (ign : BitVec 4) (ws : List Word),
    holdsWords s (readReg 0 s).1 (ws ++ [0#16]) = true → (∀ w ∈ ws, w ≠ 0#16) →
    writesSucceed ws.length s = true →
    exec (.puts ign) s = .next { (readReg 0 s).2 with
      output := s.output ++ ws.map lowByte, writeOutcomes := s.writeOutcomes.drop ws.length }) ∧
  ∀ w : Word, (lowByte w).toNat = w.toNat % 256

/-- PUTSP (43_trap.md R146, decisions D18, D19), on a console that accepts the bytes it writes: of each word the low
byte, v[7:0], and then the high byte, v[15:8], up to the first zero byte, low or high, and nothing else changes but what the reads of KBSR or KBDR do to the keyboard when
the string reaches them. For a string in the loaded range nothing else changes at all. -/
def Obligations.PutspPrintsItsString : Prop :=
  (∀ (s : State) (ign : BitVec 4) (ws : List Word) (last : Word),
    readsWords (readReg 0 s).2 (readReg 0 s).1 (ws ++ [last]) = true →
    (∀ w ∈ ws, lowByte w ≠ 0#8 ∧ highByte w ≠ 0#8) → lowByte last = 0#8 ∨ highByte last = 0#8 →
    writesSucceed (2 * ws.length + if lowByte last = 0#8 then 0 else 1) s = true →
    exec (.putsp ign) s = .next (withOutput
      (packedBytes ws ++ if lowByte last = 0#8 then [] else [lowByte last])
      (afterReads (ws.length + 1) (readReg 0 s).1 (readReg 0 s).2))) ∧
  (∀ (s : State) (ign : BitVec 4) (ws : List Word) (last : Word),
    holdsWords s (readReg 0 s).1 (ws ++ [last]) = true →
    (∀ w ∈ ws, lowByte w ≠ 0#8 ∧ highByte w ≠ 0#8) → lowByte last = 0#8 ∨ highByte last = 0#8 →
    writesSucceed (2 * ws.length + if lowByte last = 0#8 then 0 else 1) s = true →
    exec (.putsp ign) s = .next (withOutput
      (packedBytes ws ++ if lowByte last = 0#8 then [] else [lowByte last]) (readReg 0 s).2)) ∧
  ∀ w : Word, (lowByte w).toNat = w.toNat % 256 ∧ (highByte w).toNat = w.toNat / 256

/-- A string that runs to an address that cannot be read raises MemoryReadOutOfRange there, with the bytes already
emitted kept (43_trap.md R144, R146). The words before it may be in the loaded range or at KBSR or KBDR, whose reads
keep their effects. -/
def Obligations.StringsRunningOutFault : Prop :=
  (∀ (s : State) (ign : BitVec 4) (ws : List Word) (a : Word),
    readsWords (readReg 0 s).2 (readReg 0 s).1 ws = true → a = (readReg 0 s).1 + BitVec.ofNat 16 ws.length →
    readable s a = false →
    ((∀ w ∈ ws, w ≠ 0#16) → writesSucceed ws.length s = true →
      exec (.puts ign) s = .next (faultedWith
        (instrRecord .memoryReadOutOfRange (.address a) (encode (.puts ign)) s)
        (withOutput (ws.map lowByte) (afterReads ws.length (readReg 0 s).1 (readReg 0 s).2)))) ∧
    ((∀ w ∈ ws, lowByte w ≠ 0#8 ∧ highByte w ≠ 0#8) → writesSucceed (2 * ws.length) s = true →
      exec (.putsp ign) s = .next (faultedWith
        (instrRecord .memoryReadOutOfRange (.address a) (encode (.putsp ign)) s)
        (withOutput (packedBytes ws) (afterReads ws.length (readReg 0 s).1 (readReg 0 s).2))))) ∧
  (∀ (s : State) (ign : BitVec 4) (ws : List Word) (a : Word),
    holdsWords s (readReg 0 s).1 ws = true → a = (readReg 0 s).1 + BitVec.ofNat 16 ws.length →
    readable s a = false →
    ((∀ w ∈ ws, w ≠ 0#16) → writesSucceed ws.length s = true →
      exec (.puts ign) s = .next (faultedWith
        (instrRecord .memoryReadOutOfRange (.address a) (encode (.puts ign)) s)
        (withOutput (ws.map lowByte) (readReg 0 s).2))) ∧
    ((∀ w ∈ ws, lowByte w ≠ 0#8 ∧ highByte w ≠ 0#8) → writesSucceed (2 * ws.length) s = true →
      exec (.putsp ign) s = .next (faultedWith
        (instrRecord .memoryReadOutOfRange (.address a) (encode (.putsp ign)) s)
        (withOutput (packedBytes ws) (readReg 0 s).2))))

/-- A failing console write inside a string (43_trap.md R144, R146, R149, decision D23): the bytes before it stay, its
byte and all later ones are not appended, and IoError is raised. PUTS fails at the low byte of `last`; PUTSP at its
low byte, or at its high byte. What the words after it are does not matter. -/
def Obligations.FailedStringWritesRaiseIoError : Prop :=
  ∀ (s : State) (ign : BitVec 4) (ws : List Word) (last : Word) (rest : List Bool),
    readsWords (readReg 0 s).2 (readReg 0 s).1 (ws ++ [last]) = true →
    ((∀ w ∈ ws, w ≠ 0#16) → last ≠ 0#16 → s.writeOutcomes = List.replicate ws.length true ++ false :: rest →
      exec (.puts ign) s = .next (faultedWith
        (instrRecord .ioError .nothing (encode (.puts ign)) s)
        { afterReads (ws.length + 1) (readReg 0 s).1 (readReg 0 s).2 with
          output := s.output ++ ws.map lowByte, writeOutcomes := rest })) ∧
    ((∀ w ∈ ws, lowByte w ≠ 0#8 ∧ highByte w ≠ 0#8) → lowByte last ≠ 0#8 →
      (s.writeOutcomes = List.replicate (2 * ws.length) true ++ false :: rest →
        exec (.putsp ign) s = .next (faultedWith
          (instrRecord .ioError .nothing (encode (.putsp ign)) s)
          { afterReads (ws.length + 1) (readReg 0 s).1 (readReg 0 s).2 with
            output := s.output ++ packedBytes ws, writeOutcomes := rest })) ∧
      (highByte last ≠ 0#8 → s.writeOutcomes = List.replicate (2 * ws.length + 1) true ++ false :: rest →
        exec (.putsp ign) s = .next (faultedWith
          (instrRecord .ioError .nothing (encode (.putsp ign)) s)
          { afterReads (ws.length + 1) (readReg 0 s).1 (readReg 0 s).2 with
            output := s.output ++ packedBytes ws ++ [lowByte last], writeOutcomes := rest })))

/-- HALT on a console that accepts its banner (43_trap.md R147, decision D29): the sixteen bytes, then the run is
Halted(TrapHalt), and nothing else changes. -/
def Obligations.HaltPrintsAndEndsTheRun : Prop :=
  ∀ (s : State) (ign : BitVec 4), writesSucceed 16 s = true →
    exec (.halt ign) s = .next { s with
      output := s.output ++ [0x0A, 0x50, 0x72, 0x6F, 0x67, 0x72, 0x61, 0x6D, 0x20, 0x68, 0x61, 0x6C, 0x74, 0x65,
          0x64, 0x0A],
      writeOutcomes := s.writeOutcomes.drop 16, run := .halted .trapHalt }

/-- A failing console write of HALT or IN (43_trap.md R145, R147, R149, 60_exceptions.md R171, decisions D21, D23): the
bytes before it stay, its byte is not appended, and IoError is raised. HALT fails at any byte of its banner and then
does not halt; IN at any byte of its prompt, when it has taken no character, or at its echo, of a latched character or
of the channel's, at once or after a wait, when R0 stays written. After the wait the end of the run drops the channel
(20_memory.md R68, log 17). OUT is in `OutEmitsTheLowByte`, PUTS and PUTSP in `FailedStringWritesRaiseIoError`. -/
def Obligations.FailedWritesRaiseIoError : Prop :=
  (∀ (s : State) (ign : BitVec 4) (k : Nat) (rest : List Bool), k < 16 →
    s.writeOutcomes = List.replicate k true ++ false :: rest →
    exec (.halt ign) s = .next (faultedWith
      (instrRecord .ioError .nothing (encode (.halt ign)) s)
      { s with
        writeOutcomes := rest,
        output := s.output ++ [0x0A, 0x50, 0x72, 0x6F, 0x67, 0x72, 0x61, 0x6D, 0x20, 0x68, 0x61, 0x6C, 0x74, 0x65,
          0x64, 0x0A].take k })) ∧
  (∀ (s : State) (ign : BitVec 4) (k : Nat) (rest : List Bool), k < 7 →
    s.writeOutcomes = List.replicate k true ++ false :: rest →
    exec (.input ign) s = .next (faultedWith
      (instrRecord .ioError .nothing (encode (.input ign)) s)
      { s with
        writeOutcomes := rest,
        output := s.output ++ [0x49, 0x6E, 0x70, 0x75, 0x74, 0x3A, 0x20].take k })) ∧
  (∀ (s : State) (ign : BitVec 4) (rest : List Bool),
    s.writeOutcomes = List.replicate 7 true ++ false :: rest → s.kbReady = true →
    exec (.input ign) s = .next (faultedWith
      (instrRecord .ioError .nothing (encode (.input ign)) s)
      { s with
        kbReady := false, writeOutcomes := rest,
        output := s.output ++ [0x49, 0x6E, 0x70, 0x75, 0x74, 0x3A, 0x20],
        regs := s.regs.set 0 (zext s.kbLatch), gprWritten := s.gprWritten.set 0 true })) ∧
  (∀ (s : State) (ign : BitVec 4) (c : Byte) (ch : List Byte) (rest : List Bool),
    s.writeOutcomes = List.replicate 7 true ++ false :: rest → s.kbReady = false → s.channel = c :: ch →
    exec (.input ign) s = .next (faultedWith
      (instrRecord .ioError .nothing (encode (.input ign)) s)
      { s with
        channel := ch, writeOutcomes := rest,
        output := s.output ++ [0x49, 0x6E, 0x70, 0x75, 0x74, 0x3A, 0x20],
        regs := s.regs.set 0 (zext c), gprWritten := s.gprWritten.set 0 true })) ∧
  (∀ (s : State) (w : Word) (c : Byte) (ch : List Byte) (rest : List Bool), nextTurn s = .core → s.run = .running →
    s.wait = .waitingInput .input w → s.channel = c :: ch → s.writeOutcomes = false :: rest →
    step s = .next (faultedWith (instrRecord .ioError .nothing w s)
      { s with
        schedule := s.schedule.tail, channel := [], wait := .none, writeOutcomes := rest,
        regs := s.regs.set 0 (zext c), gprWritten := s.gprWritten.set 0 true }))

/-- What every TRAP leaves unchanged, whatever its vector and however it ends: every register but R0 for GETC and
IN, so R7 too; the flag; pc; all of memory; the host's side (43_trap.md R140, decision D13). -/
def Obligations.TrapInstructionsFrame : Prop :=
  ∀ (i : Instr) (ign : BitVec 4) (s : State),
    ((∃ v, i = .trap v ign) ∨ i = .getc ign ∨ i = .out ign ∨ i = .puts ign ∨ i = .input ign ∨ i = .putsp ign ∨
      i = .halt ign) →
    ∃ t, exec i s = .next t ∧ SameRegsExcept (writtenRegs i) s t ∧ t.regs[(7 : Reg)] = s.regs[(7 : Reg)] ∧
      SameFlag s t ∧ t.pc = s.pc ∧ SameMemoryExcept [] s t ∧ SameEnvironment s t

/-! ### RTI and the reserved opcode -/

/-- RTI raises RtiUnimplemented (44_rti_reserved.md R160, decision D20) and opcode 1101 ReservedInstructionFound
(R161), with the instruction's address and word (decision D21); nothing else changes. -/
def Obligations.RtiAndReservedFault : Prop :=
  ∀ (ign : BitVec 12) (s : State),
    exec (.rti ign) s = .next (faultedWith
      ⟨.rtiUnimplemented, s.pc - 1#16, some (0x8#4 ++ ign), .nothing⟩ s) ∧
    exec (.reserved ign) s = .next (faultedWith
      ⟨.reservedInstructionFound, s.pc - 1#16, some (0xD#4 ++ ign), .nothing⟩ s)

/-! ### The cycle and the run -/

/-- A step of a running core with a word of the loaded range at pc runs the instruction it decodes to, with pc
incremented (10_state.md R36, decision D6). Around it, the step takes the turn off the schedule (log 11) and, when
the run has ended, drops the channel (20_memory.md R68, log 17). -/
def Obligations.StepRunsTheDecodedInstruction : Prop :=
  ∀ s : State, nextTurn s = .core → s.run = .running → s.wait = .none → inImage s s.pc = true →
    ∃ t, exec (decode (s.mem.read s.pc.toNat))
        { s with pc := s.pc + 1#16, schedule := s.schedule.tail } = .next t ∧
      step s = .next (if runEnded t then { t with channel := [] } else t)

/-- At program_end the run ends normally, with no output (10_state.md R37, decision D7). At any other pc outside the
loaded range the fetch raises FetchOutOfRange, and pc stays (20_memory.md R57, 60_exceptions.md R171, R172;
decisions D6, D21) That a core started without a load runs, and so ends here, is the model's choice (log 27). -/
def Obligations.PcOutsideTheProgramEndsTheRun : Prop :=
  ∀ s : State, nextTurn s = .core → s.run = .running → s.wait = .none → inImage s s.pc = false →
    (s.pc = programEnd s →
      step s = .next { s with schedule := s.schedule.tail, run := .halted .endOfProgram, channel := [] }) ∧
    (s.pc ≠ programEnd s →
      step s = .next (faultedWith
        { kind := .fetchOutOfRange, addr := s.pc, word := none, info := .nothing }
        { s with schedule := s.schedule.tail, channel := [] }))

/-- Every step answers a next state, but for a move of the core whose run is faulted already, which answers that
fault; and every instruction answers a next state in every state (30_encoding.md R86; log 3). -/
def Obligations.OnlyAFaultedRunStopsTheStep : Prop :=
  (∀ s : State, (∃ t, step s = .next t) ∨
    ∃ r, s.run = .faulted r ∧ nextTurn s = .core ∧ step s = .fault (.runFaulted r)) ∧
  (∀ (i : Instr) (s : State), ∃ t, exec i s = .next t)

/-- No step leaves Halted or Faulted, or changes anything of the core then (10_state.md R35, 60_exceptions.md R183):
only the producer's side and the schedule move. -/
def Obligations.AnEndedRunStaysAsItIs : Prop :=
  ∀ s t : State, runEnded s = true → step s = .next t →
    t = { s with
      inputStream := t.inputStream, producerStopped := t.producerStopped,
      schedule := s.schedule.tail }

/-- The console's output only grows (10_state.md R34), only TRAP writes to it, and it is empty at reset. -/
def Obligations.OutputOnlyGrows : Prop :=
  State.reset.output = [] ∧
  (∀ s t : State, step s = .next t → s.output <+: t.output) ∧
  (∀ (i : Instr) (s t : State), exec i s = .next t → isConsole i = false → SameConsole s t)

/-- No step changes the parameters, the loaded range, or a word outside it (20_memory.md R52, 70_reset_and_hazards.md
R190; log 9). -/
def Obligations.StepsKeepWhatIsOutsideTheProgram : Prop :=
  ∀ s t : State, step s = .next t → t.params = s.params ∧ t.instructionCount = s.instructionCount ∧
    ∀ a : Word, inImage s a = false → t.mem.read a.toNat = s.mem.read a.toNat

/-- The invariant holds after construction, before the load. -/
def Obligations.ResetMeetsTheInvariant : Prop := Inv State.reset

/-- Every step keeps the invariant: memory's canonical form, the loaded range, what a wait and a fault record say,
and the end of the run (10_state.md R31, R39; 60_exceptions.md R171, R172; 20_memory.md R68). -/
def Obligations.StepKeepsTheInvariant : Prop :=
  ∀ s t : State, Inv s → step s = .next t → Inv t

/-! ### The keyboard producer and the start -/

/-- The producer's move (20_memory.md R67, R68): the next character goes to the tail of the channel; after the end
of the run the send fails, the producer stops and the stream is discarded (log 17). Nothing else changes. The next
character is the first one listed, then of an infinite stream its next free character (00_scope.md R6, log 10). That
the producer moves on a core not yet loaded or started, too, is the model's choice (log 29). -/
def Obligations.ProducerFeedsTheChannel : Prop :=
  (∀ s : State, nextTurn s = .producer →
    (∀ c rest, s.producerStopped = false → nextChar s.inputStream = some (c, rest) → runEnded s = false →
      step s = .next { s with schedule := s.schedule.tail, channel := s.channel ++ [c], inputStream := rest }) ∧
    (∀ c rest, s.producerStopped = false → nextChar s.inputStream = some (c, rest) → runEnded s = true →
      step s = .next { s with schedule := s.schedule.tail, producerStopped := true, inputStream := ⟨[], none⟩ }) ∧
    (s.producerStopped = true ∨ nextChar s.inputStream = none →
      step s = .next { s with schedule := s.schedule.tail })) ∧
  (∀ (c : Byte) (l : List Byte) (e : Option Nat), nextChar ⟨c :: l, e⟩ = some (c, ⟨l, e⟩)) ∧
  (∀ k : Nat, nextChar ⟨[], some k⟩ = some (Config.streamByte k, ⟨[], some (k + 1)⟩)) ∧
  nextChar ⟨[], none⟩ = none

/-- Characters reach the program in the order the host gave them, each once (20_memory.md R62, R67; 43_trap.md R150,
60_exceptions.md R184, decision D14). A move that is not the producer's takes at most one character, the oldest, from
those that reached the core, and none from the host. It takes one only to deliver it: by the end of a wait, by GETC or
IN, or by a read of KBDR (R55; `delivered` says where it is seen then). While the run goes on, all the others stay; at
its end the channel's may be dropped (R68), but a latched one is not. The producer's move appends the host's next character, or, after the end of the run,
discards the stream. -/
def Obligations.InputOrderIsKept : Prop :=
  ∀ s t : State, Inv s → step s = .next t →
    (nextTurn s ≠ .producer → t.inputStream = s.inputStream ∧
      ∃ d ≤ 1, buffered t <+: (buffered s).drop d ∧ (runEnded t = false → buffered t = (buffered s).drop d) ∧
        (d = 0 → s.kbReady = true → t.kbReady = true) ∧
        (d = 1 → ∃ c, (buffered s).head? = some c ∧ delivered c s t)) ∧
    (nextTurn s = .producer →
      (buffered t = buffered s ∧ t.inputStream = s.inputStream) ∨
      (runEnded s = false ∧
        ∃ c, nextChar s.inputStream = some (c, t.inputStream) ∧ buffered t = buffered s ++ [c]) ∨
      (runEnded s = true ∧ buffered t = buffered s ∧ t.inputStream = ⟨[], none⟩ ∧ t.producerStopped = true))

/-- Under weak fairness (70_reset_and_hazards.md R199, decision D32; a hypothesis here, log 19) a waiting core's wait
ends (43_trap.md R150) if a character is in the channel, or a producer that has not stopped has one to deliver. -/
def Obligations.WaitEndsUnderFairness : Prop :=
  ∀ (turns : Nat → Turn) (states : Nat → State), IsRun turns states → WeaklyFair turns states →
    (states 0).run = .running → (∃ routine w, (states 0).wait = .waitingInput routine w) →
    (states 0).channel ≠ [] ∨ ((nextChar (states 0).inputStream).isSome = true ∧ (states 0).producerStopped = false) →
    ∃ n, (states n).wait = .none

/-- The host's start request moves NotStarted to Running and changes nothing of a started core; a core that is not
started does not move (10_state.md R35, 60_exceptions.md R184, decision D30; log 4, log 18). The spec gives NotStarted,
and a start, only to a loaded core: that a core never loaded starts too is the model's choice (log 27). -/
def Obligations.StartRequestStartsTheRun : Prop :=
  ∀ s : State,
    (nextTurn s = .start → s.run = .notStarted →
      step s = .next { s with schedule := s.schedule.tail, run := .running }) ∧
    (nextTurn s = .start → s.run ≠ .notStarted → step s = .next { s with schedule := s.schedule.tail }) ∧
    (nextTurn s = .core → s.run = .notStarted → step s = .next { s with schedule := s.schedule.tail })

/-! ### Reset and load -/

/-- The state a successful load gives (70_reset_and_hazards.md R193, 10_state.md R26): pc, no register written, the flag not
set, the keyboard, channel and output empty, NotStarted, not waiting, a count in 1 to 0xCE00, the invariant. -/
def Obligations.LoadedCoreIsAsReset : Prop :=
  State.reset.pc = 0x3000#16 ∧ ∀ (src : Source) (t : State), load State.reset src = .ok t →
    t.pc = 0x3000#16 ∧ (∀ r : Reg, t.gprWritten[r] = false) ∧ t.ccSet = false ∧ t.kbReady = false ∧
    t.channel = [] ∧ t.output = [] ∧ t.run = .notStarted ∧ t.wait = .none ∧
    1 ≤ t.instructionCount ∧ t.instructionCount ≤ 0xCE00 ∧
    (programEnd t).toNat = 0x3000 + t.instructionCount ∧ Inv t

/-- The file's bytes are big-endian words, word 0 is the header 0x3000, and the words after it are loaded verbatim
from 0x3000 on; an odd length is rejected, and a file whose word 0 is not 0x3000 loads nothing
(70_reset_and_hazards.md R191 to R193). The spec loads a new core, once: that a load of a core in any other state
answers the same and keeps every other field of it is the model's choice (log 28, log 29). -/
def Obligations.LoadPlacesBigEndianWords : Prop :=
  (∀ (s : State) (body : List Byte), body.length % 2 = 0 → 0 < body.length → body.length ≤ 2 * 0xCE00 →
    ∃ t, load s (.bytes (0x30#8 :: 0x00#8 :: body)) = .ok t ∧ t.instructionCount = body.length / 2 ∧
      (∀ k, k < body.length / 2 → (t.mem.read (0x3000 + k)).toNat =
        (body.getD (2 * k) 0#8).toNat * 256 + (body.getD (2 * k + 1) 0#8).toNat) ∧
      t = { s with mem := t.mem, instructionCount := t.instructionCount }) ∧
  (∀ (s : State) (file : List Byte), file.length % 2 = 1 →
    load s (.bytes file) = .error (.oddByteCount file.length)) ∧
  (∀ (s : State) (hi lo : Byte) (body : List Byte), body.length % 2 = 0 → ¬(hi = 0x30#8 ∧ lo = 0x00#8) →
    load s (.bytes (hi :: lo :: body)) = .error (.wrongOrigin (hi ++ lo)))

/-- The load errors, in the spec's order (70_reset_and_hazards.md R192, decision D25). That a core in any state
answers them, one loaded, running or ended already too, is the model's choice (log 28). -/
def Obligations.LoadChecksInOrder : Prop :=
  (∀ (s : State) (detail : String), load s (.unreadable detail) = .error (.unreadableSource detail)) ∧
  (∀ s : State, load s (.bytes []) = .error .missingOriginHeader) ∧
  (∀ s : State, load s (.bytes [0x30#8, 0x00#8]) = .error .emptyProgram) ∧
  (∀ (s : State) (body : List Byte), body.length % 2 = 0 → 2 * 0xCE00 < body.length →
    load s (.bytes (0x30#8 :: 0x00#8 :: body)) = .error (.programTooLong (body.length / 2) 0xCE00)) ∧
  (∀ (s : State) (file : List Byte) (t : State), load s (.bytes file) = .ok t →
    ∃ body, file = 0x30#8 :: 0x00#8 :: body ∧ body.length % 2 = 0 ∧ 0 < body.length ∧
      body.length ≤ 2 * 0xCE00)

/-- R69: the listing is the words mem[0x3000] to mem[program_end - 1], in order, and program_end() is the first
address past them. Both answer no state, so neither has an effect on the core. -/
def Obligations.ListingIsTheLoadedProgram : Prop :=
  ∀ s : State, s.instructionCount ≤ 0xCE00 →
    (programEnd s).toNat = 0x3000 + s.instructionCount ∧
    (programSlice s).length = s.instructionCount ∧
    ∀ k (h : k < (programSlice s).length), (programSlice s)[k] = s.mem.read (0x3000 + k)
end

