-- ==== Sys2Proof/Laws/Encode.lean ====
section
/-! SUPPORT. The four word shapes as numbers, and a field of a word as a number (30_encoding.md R8, R81, R84): what
a part of a word put together by `encode` reads back as follows by arithmetic. -/

namespace Sys2Proof

/-- A field of a word is a quotient and a remainder of it (R8). -/
theorem toNat_bits (w : Word) (lo len : Nat) : (bits w lo len).toNat = w.toNat / 2 ^ lo % 2 ^ len := by
  simp [bits, BitVec.extractLsb'_toNat, Nat.shiftRight_eq_div_pow]

/-- Putting two fields together is a sum. -/
theorem toNat_append_add {m n : Nat} (a : BitVec m) (b : BitVec n) : (a ++ b).toNat = a.toNat * 2 ^ n + b.toNat := by
  rw [BitVec.toNat_append, ← Nat.shiftLeft_add_eq_or_of_lt b.isLt, Nat.shiftLeft_eq]

theorem toNat_word3336 (op : BitVec 4) (a b : BitVec 3) (c : BitVec 6) :
    (word3336 op a b c).toNat = op.toNat * 4096 + a.toNat * 512 + b.toNat * 64 + c.toNat := by
  show (op ++ a ++ b ++ c).toNat = _
  rw [toNat_append_add, toNat_append_add, toNat_append_add]; omega

theorem toNat_word349 (op : BitVec 4) (a : BitVec 3) (c : BitVec 9) :
    (word349 op a c).toNat = op.toNat * 4096 + a.toNat * 512 + c.toNat := by
  show (op ++ a ++ c).toNat = _
  rw [toNat_append_add, toNat_append_add]; omega

theorem toNat_word448 (op a : BitVec 4) (c : BitVec 8) :
    (word448 op a c).toNat = op.toNat * 4096 + a.toNat * 256 + c.toNat := by
  show (op ++ a ++ c).toNat = _
  rw [toNat_append_add, toNat_append_add]; omega

theorem toNat_word412 (op : BitVec 4) (a : BitVec 12) : (word412 op a).toNat = op.toNat * 4096 + a.toNat := by
  exact toNat_append_add op a

/-- A register number survives its 3-bit field. -/
@[simp] theorem regBits_toFin (r : Reg) : (regBits r).toFin = r := rfl

@[simp] theorem toNat_regBits (r : Reg) : (regBits r).toNat = r := rfl

/-- A register field is read from its number. -/
theorem regField_eq {w : Word} {lo : Nat} {r : Reg} (h : w.toNat / 2 ^ lo % 8 = r) : regField w lo = r :=
  Fin.ext ((toNat_bits w lo 3).trans h)

/-- One bit of a word, from its number. -/
theorem flagBit_eq (w : Word) (i : Nat) : flagBit w i = decide (w.toNat / 2 ^ i % 2 = 1) := by
  simp [flagBit, BitVec.getLsbD, Nat.testBit_eq_decide_div_mod_eq]

/-- A field is read from its number. -/
theorem bits_eq {w : Word} {lo len : Nat} {f : BitVec len} (h : w.toNat / 2 ^ lo % 2 ^ len = f.toNat) :
    bits w lo len = f :=
  BitVec.eq_of_toNat_eq ((toNat_bits w lo len).trans h)

/-- The opcode class of a word rests on its top four bits alone (R80, R83). -/
theorem opcodeOf_congr {v w : Word} (h : v.toNat / 4096 = w.toNat / 4096) : opcodeOf v = opcodeOf w := by
  unfold opcodeOf
  rw [toNat_bits, toNat_bits, show 2 ^ 12 = 4096 from rfl, h]

end Sys2Proof
end

