-- ==== Sys2Proof/Laws/Memory.lean ====
section
/-! SUPPORT. The laws of the word array: a read after a write, the canonical form, and the loaded image
(10_state.md R31, 20_memory.md R62). -/

namespace Sys2Proof.Machine

/-- An address below every listed one reads as the unlisted word. -/
theorem Memory.read_of_lt {m : Memory} {a : Nat} (h : ∀ c ∈ m, a < c.1) : Memory.read m a = 0#16 := by
  induction m with
  | nil => rfl
  | cons c m ih =>
    have hc := h c (by simp)
    simp only [Memory.read]
    rw [if_neg (by omega)]
    exact ih fun d hd => h d (by simp [hd])

/-- A write leaves every other word alone. -/
theorem Memory.read_write_other (m : Memory) {a b : Nat} (v : Word) (h : b ≠ a) :
    Memory.read (Memory.write m a v) b = Memory.read m b := by
  induction m with
  | nil => by_cases hv : v = 0#16 <;> simp [Memory.write, Memory.read, hv, h]
  | cons c m ih =>
    obtain ⟨k, w⟩ := c
    simp only [Memory.write]
    split_ifs with h1 h2 h3 h4
    · rfl
    · simp [Memory.read, h]
    · subst h3; simp [Memory.read, h]
    · subst h3; simp [Memory.read, h]
    · simp only [Memory.read, ih]

/-- Reading back the word just written. -/
theorem Memory.read_write_same {m : Memory} (hm : m.wf) (a : Nat) (v : Word) :
    Memory.read (Memory.write m a v) a = v := by
  induction m with
  | nil => by_cases hv : v = 0#16 <;> simp [Memory.write, Memory.read, hv]
  | cons c m ih =>
    obtain ⟨k, w⟩ := c
    have hk : ∀ d ∈ m, k < d.1 := fun d hd => List.rel_of_pairwise_cons hm.1 hd
    have htail : Memory.wf m := ⟨hm.1.tail, fun d hd => hm.2 d (by simp [hd])⟩
    simp only [Memory.write]
    split_ifs with h1 h2 h3 h4
    · rw [h2]
      refine Memory.read_of_lt ?_
      intro d hd
      rcases List.mem_cons.1 hd with rfl | hd
      · exact h1
      · exact lt_trans h1 (hk d hd)
    · simp [Memory.read]
    · subst h3; rw [h4]; exact Memory.read_of_lt hk
    · simp [Memory.read]
    · simp only [Memory.read]
      rw [if_neg h3]
      exact ih htail

/-- What a write lists: what was listed, or the word written. -/
theorem Memory.mem_write {m : Memory} {a : Nat} {v : Word} {c : Nat × Word} (h : c ∈ Memory.write m a v) :
    c ∈ m ∨ (c = (a, v) ∧ v ≠ 0#16) := by
  induction m with
  | nil =>
    by_cases hv : v = 0#16 <;> simp [Memory.write, hv] at h
    exact .inr ⟨h, hv⟩
  | cons d m ih =>
    obtain ⟨k, w⟩ := d
    simp only [Memory.write] at h
    split_ifs at h with h1 h2 h3 h4
    · exact .inl h
    · rcases List.mem_cons.1 h with rfl | h
      · exact .inr ⟨rfl, h2⟩
      · exact .inl h
    · exact .inl (List.mem_cons_of_mem _ h)
    · rcases List.mem_cons.1 h with rfl | h
      · exact .inr ⟨rfl, h4⟩
      · exact .inl (List.mem_cons_of_mem _ h)
    · rcases List.mem_cons.1 h with rfl | h
      · exact .inl (by simp)
      · exact (ih h).imp (List.mem_cons_of_mem _) id

/-- A write keeps the canonical form. -/
theorem Memory.write_wf {m : Memory} (hm : m.wf) {a : Nat} (ha : a < 65536) (v : Word) :
    Memory.wf (Memory.write m a v) := by
  refine ⟨?_, fun c hc => ?_⟩
  · induction m with
    | nil => by_cases hv : v = 0#16 <;> simp [Memory.write, hv]
    | cons d m ih =>
      obtain ⟨k, w⟩ := d
      have hk : ∀ d ∈ m, k < d.1 := fun d hd => List.rel_of_pairwise_cons hm.1 hd
      have htail : Memory.wf m := ⟨hm.1.tail, fun d hd => hm.2 d (by simp [hd])⟩
      simp only [Memory.write]
      split_ifs with h1 h2 h3 h4
      · exact hm.1
      · refine List.pairwise_cons.2 ⟨fun d hd => ?_, hm.1⟩
        rcases List.mem_cons.1 hd with rfl | hd
        · exact h1
        · exact lt_trans h1 (hk d hd)
      · exact hm.1.tail
      · exact List.pairwise_cons.2 ⟨fun d hd => h3 ▸ hk d hd, hm.1.tail⟩
      · refine List.pairwise_cons.2 ⟨fun d hd => ?_, ih htail⟩
        rcases Memory.mem_write hd with hd | ⟨rfl, -⟩
        · exact hk d hd
        · simp only; omega
  · rcases Memory.mem_write hc with hc | ⟨rfl, hv⟩
    · exact hm.2 c hc
    · exact ⟨ha, hv⟩

/-- A write at a word's own address keeps the canonical form. -/
theorem Memory.write_word_wf {m : Memory} (hm : m.wf) (a v : Word) : Memory.wf (Memory.write m a.toNat v) :=
  Memory.write_wf hm a.isLt v

/-- The empty memory is in canonical form. -/
theorem Memory.nil_wf : Memory.wf [] := ⟨List.Pairwise.nil, fun _ h => absurd h List.not_mem_nil⟩

/-- What the loaded image lists. -/
theorem mem_imageAt {a : Nat} {ws : List Word} {c : Nat × Word} (h : c ∈ imageAt a ws) :
    a ≤ c.1 ∧ c.1 < a + ws.length ∧ c.2 ≠ 0#16 := by
  induction ws generalizing a with
  | nil => simp [imageAt] at h
  | cons w ws ih =>
    simp only [imageAt] at h
    split_ifs at h with hw
    · have := ih h; simp only [List.length_cons]; exact ⟨by omega, by omega, this.2.2⟩
    · rcases List.mem_cons.1 h with rfl | h
      · simp [hw]
      · have := ih h; simp only [List.length_cons]; exact ⟨by omega, by omega, this.2.2⟩

/-- The loaded image is in canonical form. -/
theorem imageAt_wf {a : Nat} {ws : List Word} (h : a + ws.length ≤ 65536) : Memory.wf (imageAt a ws) := by
  refine ⟨?_, fun c hc => ?_⟩
  · clear h
    induction ws generalizing a with
    | nil => simp [imageAt]
    | cons w ws ih =>
      simp only [imageAt]
      split_ifs
      · exact ih
      · exact List.pairwise_cons.2 ⟨fun d hd => by have := mem_imageAt hd; simp only; omega, ih⟩
  · have := mem_imageAt hc
    exact ⟨by omega, this.2.2⟩

/-- The loaded image reads back as the words loaded, and as 0 elsewhere. -/
theorem read_imageAt (a : Nat) (ws : List Word) (b : Nat) :
    Memory.read (imageAt a ws) b = if a ≤ b then ws.getD (b - a) 0#16 else 0#16 := by
  induction ws generalizing a with
  | nil => simp [imageAt, Memory.read]
  | cons w ws ih =>
    simp only [imageAt]
    have key : ∀ c, a < c → (if a + 1 ≤ c then ws.getD (c - (a + 1)) 0#16 else 0#16) = (w :: ws).getD (c - a) 0#16 := by
      intro c hc
      obtain ⟨d, rfl⟩ : ∃ d, c = a + 1 + d := ⟨c - (a + 1), by omega⟩
      have h1 : a + 1 + d - (a + 1) = d := by omega
      have h2 : a + 1 + d - a = d + 1 := by omega
      simp [h1, h2]
    split_ifs with hw hab hab
    · rcases Nat.eq_or_lt_of_le hab with rfl | hlt
      · rw [ih]; simp [hw]
      · rw [ih, key b hlt]
    · rw [ih, if_neg (by omega)]
    · rcases Nat.eq_or_lt_of_le hab with rfl | hlt
      · simp [Memory.read]
      · simp only [Memory.read]; rw [if_neg (by omega), ih, key b hlt]
    · simp only [Memory.read]; rw [if_neg (by omega), ih, if_neg (by omega)]

end Sys2Proof.Machine
end

