-- ==== Sys2Proof/Laws/State.lean ====
section
/-! SUPPORT. One lemma for each field and each named update of the state, true by rfl. -/

namespace Sys2Proof.Machine

variable (s : State)

/-! ### setReg -/

@[simp] theorem setReg_regs (r : Reg) (v : Word) : (setReg r v s).regs = s.regs.set r v := rfl
@[simp] theorem setReg_gprWritten (r : Reg) (v : Word) : (setReg r v s).gprWritten = s.gprWritten.set r true := rfl
@[simp] theorem setReg_pc (r : Reg) (v : Word) : (setReg r v s).pc = s.pc := rfl
@[simp] theorem setReg_cc (r : Reg) (v : Word) : (setReg r v s).cc = s.cc := rfl
@[simp] theorem setReg_ccSet (r : Reg) (v : Word) : (setReg r v s).ccSet = s.ccSet := rfl
@[simp] theorem setReg_mem (r : Reg) (v : Word) : (setReg r v s).mem = s.mem := rfl
@[simp] theorem setReg_instructionCount (r : Reg) (v : Word) : (setReg r v s).instructionCount = s.instructionCount := rfl
@[simp] theorem setReg_kbReady (r : Reg) (v : Word) : (setReg r v s).kbReady = s.kbReady := rfl
@[simp] theorem setReg_kbLatch (r : Reg) (v : Word) : (setReg r v s).kbLatch = s.kbLatch := rfl
@[simp] theorem setReg_channel (r : Reg) (v : Word) : (setReg r v s).channel = s.channel := rfl
@[simp] theorem setReg_output (r : Reg) (v : Word) : (setReg r v s).output = s.output := rfl
@[simp] theorem setReg_run (r : Reg) (v : Word) : (setReg r v s).run = s.run := rfl
@[simp] theorem setReg_wait (r : Reg) (v : Word) : (setReg r v s).wait = s.wait := rfl
@[simp] theorem setReg_inputStream (r : Reg) (v : Word) : (setReg r v s).inputStream = s.inputStream := rfl
@[simp] theorem setReg_producerStopped (r : Reg) (v : Word) : (setReg r v s).producerStopped = s.producerStopped := rfl
@[simp] theorem setReg_writeOutcomes (r : Reg) (v : Word) : (setReg r v s).writeOutcomes = s.writeOutcomes := rfl
@[simp] theorem setReg_schedule (r : Reg) (v : Word) : (setReg r v s).schedule = s.schedule := rfl
@[simp] theorem setReg_params (r : Reg) (v : Word) : (setReg r v s).params = s.params := rfl
@[simp] theorem setReg_draws (r : Reg) (v : Word) : (setReg r v s).draws = s.draws := rfl

/-! ### setPc -/

@[simp] theorem setPc_regs (t : Word) : (setPc t s).regs = s.regs := rfl
@[simp] theorem setPc_gprWritten (t : Word) : (setPc t s).gprWritten = s.gprWritten := rfl
@[simp] theorem setPc_pc (t : Word) : (setPc t s).pc = t := rfl
@[simp] theorem setPc_cc (t : Word) : (setPc t s).cc = s.cc := rfl
@[simp] theorem setPc_ccSet (t : Word) : (setPc t s).ccSet = s.ccSet := rfl
@[simp] theorem setPc_mem (t : Word) : (setPc t s).mem = s.mem := rfl
@[simp] theorem setPc_instructionCount (t : Word) : (setPc t s).instructionCount = s.instructionCount := rfl
@[simp] theorem setPc_kbReady (t : Word) : (setPc t s).kbReady = s.kbReady := rfl
@[simp] theorem setPc_kbLatch (t : Word) : (setPc t s).kbLatch = s.kbLatch := rfl
@[simp] theorem setPc_channel (t : Word) : (setPc t s).channel = s.channel := rfl
@[simp] theorem setPc_output (t : Word) : (setPc t s).output = s.output := rfl
@[simp] theorem setPc_run (t : Word) : (setPc t s).run = s.run := rfl
@[simp] theorem setPc_wait (t : Word) : (setPc t s).wait = s.wait := rfl
@[simp] theorem setPc_inputStream (t : Word) : (setPc t s).inputStream = s.inputStream := rfl
@[simp] theorem setPc_producerStopped (t : Word) : (setPc t s).producerStopped = s.producerStopped := rfl
@[simp] theorem setPc_writeOutcomes (t : Word) : (setPc t s).writeOutcomes = s.writeOutcomes := rfl
@[simp] theorem setPc_schedule (t : Word) : (setPc t s).schedule = s.schedule := rfl
@[simp] theorem setPc_params (t : Word) : (setPc t s).params = s.params := rfl
@[simp] theorem setPc_draws (t : Word) : (setPc t s).draws = s.draws := rfl

/-! ### setMem -/

@[simp] theorem setMem_regs (a v : Word) : (setMem a v s).regs = s.regs := rfl
@[simp] theorem setMem_gprWritten (a v : Word) : (setMem a v s).gprWritten = s.gprWritten := rfl
@[simp] theorem setMem_pc (a v : Word) : (setMem a v s).pc = s.pc := rfl
@[simp] theorem setMem_cc (a v : Word) : (setMem a v s).cc = s.cc := rfl
@[simp] theorem setMem_ccSet (a v : Word) : (setMem a v s).ccSet = s.ccSet := rfl
@[simp] theorem setMem_mem (a v : Word) : (setMem a v s).mem = s.mem.write a.toNat v := rfl
@[simp] theorem setMem_instructionCount (a v : Word) : (setMem a v s).instructionCount = s.instructionCount := rfl
@[simp] theorem setMem_kbReady (a v : Word) : (setMem a v s).kbReady = s.kbReady := rfl
@[simp] theorem setMem_kbLatch (a v : Word) : (setMem a v s).kbLatch = s.kbLatch := rfl
@[simp] theorem setMem_channel (a v : Word) : (setMem a v s).channel = s.channel := rfl
@[simp] theorem setMem_output (a v : Word) : (setMem a v s).output = s.output := rfl
@[simp] theorem setMem_run (a v : Word) : (setMem a v s).run = s.run := rfl
@[simp] theorem setMem_wait (a v : Word) : (setMem a v s).wait = s.wait := rfl
@[simp] theorem setMem_inputStream (a v : Word) : (setMem a v s).inputStream = s.inputStream := rfl
@[simp] theorem setMem_producerStopped (a v : Word) : (setMem a v s).producerStopped = s.producerStopped := rfl
@[simp] theorem setMem_writeOutcomes (a v : Word) : (setMem a v s).writeOutcomes = s.writeOutcomes := rfl
@[simp] theorem setMem_schedule (a v : Word) : (setMem a v s).schedule = s.schedule := rfl
@[simp] theorem setMem_params (a v : Word) : (setMem a v s).params = s.params := rfl
@[simp] theorem setMem_draws (a v : Word) : (setMem a v s).draws = s.draws := rfl

/-! ### setcc -/

@[simp] theorem setcc_regs (v : Word) : (setcc v s).regs = s.regs := rfl
@[simp] theorem setcc_gprWritten (v : Word) : (setcc v s).gprWritten = s.gprWritten := rfl
@[simp] theorem setcc_pc (v : Word) : (setcc v s).pc = s.pc := rfl
@[simp] theorem setcc_cc (v : Word) : (setcc v s).cc = flagOf v := rfl
@[simp] theorem setcc_ccSet (v : Word) : (setcc v s).ccSet = true := rfl
@[simp] theorem setcc_mem (v : Word) : (setcc v s).mem = s.mem := rfl
@[simp] theorem setcc_instructionCount (v : Word) : (setcc v s).instructionCount = s.instructionCount := rfl
@[simp] theorem setcc_kbReady (v : Word) : (setcc v s).kbReady = s.kbReady := rfl
@[simp] theorem setcc_kbLatch (v : Word) : (setcc v s).kbLatch = s.kbLatch := rfl
@[simp] theorem setcc_channel (v : Word) : (setcc v s).channel = s.channel := rfl
@[simp] theorem setcc_output (v : Word) : (setcc v s).output = s.output := rfl
@[simp] theorem setcc_run (v : Word) : (setcc v s).run = s.run := rfl
@[simp] theorem setcc_wait (v : Word) : (setcc v s).wait = s.wait := rfl
@[simp] theorem setcc_inputStream (v : Word) : (setcc v s).inputStream = s.inputStream := rfl
@[simp] theorem setcc_producerStopped (v : Word) : (setcc v s).producerStopped = s.producerStopped := rfl
@[simp] theorem setcc_writeOutcomes (v : Word) : (setcc v s).writeOutcomes = s.writeOutcomes := rfl
@[simp] theorem setcc_schedule (v : Word) : (setcc v s).schedule = s.schedule := rfl
@[simp] theorem setcc_params (v : Word) : (setcc v s).params = s.params := rfl
@[simp] theorem setcc_draws (v : Word) : (setcc v s).draws = s.draws := rfl

/-! ### setRegFlag -/

@[simp] theorem setRegFlag_regs (r : Reg) (v : Word) : (setRegFlag r v s).regs = s.regs.set r v := rfl
@[simp] theorem setRegFlag_gprWritten (r : Reg) (v : Word) : (setRegFlag r v s).gprWritten = s.gprWritten.set r true := rfl
@[simp] theorem setRegFlag_pc (r : Reg) (v : Word) : (setRegFlag r v s).pc = s.pc := rfl
@[simp] theorem setRegFlag_cc (r : Reg) (v : Word) : (setRegFlag r v s).cc = flagOf v := rfl
@[simp] theorem setRegFlag_ccSet (r : Reg) (v : Word) : (setRegFlag r v s).ccSet = true := rfl
@[simp] theorem setRegFlag_mem (r : Reg) (v : Word) : (setRegFlag r v s).mem = s.mem := rfl
@[simp] theorem setRegFlag_instructionCount (r : Reg) (v : Word) : (setRegFlag r v s).instructionCount = s.instructionCount := rfl
@[simp] theorem setRegFlag_kbReady (r : Reg) (v : Word) : (setRegFlag r v s).kbReady = s.kbReady := rfl
@[simp] theorem setRegFlag_kbLatch (r : Reg) (v : Word) : (setRegFlag r v s).kbLatch = s.kbLatch := rfl
@[simp] theorem setRegFlag_channel (r : Reg) (v : Word) : (setRegFlag r v s).channel = s.channel := rfl
@[simp] theorem setRegFlag_output (r : Reg) (v : Word) : (setRegFlag r v s).output = s.output := rfl
@[simp] theorem setRegFlag_run (r : Reg) (v : Word) : (setRegFlag r v s).run = s.run := rfl
@[simp] theorem setRegFlag_wait (r : Reg) (v : Word) : (setRegFlag r v s).wait = s.wait := rfl
@[simp] theorem setRegFlag_inputStream (r : Reg) (v : Word) : (setRegFlag r v s).inputStream = s.inputStream := rfl
@[simp] theorem setRegFlag_producerStopped (r : Reg) (v : Word) : (setRegFlag r v s).producerStopped = s.producerStopped := rfl
@[simp] theorem setRegFlag_writeOutcomes (r : Reg) (v : Word) : (setRegFlag r v s).writeOutcomes = s.writeOutcomes := rfl
@[simp] theorem setRegFlag_schedule (r : Reg) (v : Word) : (setRegFlag r v s).schedule = s.schedule := rfl
@[simp] theorem setRegFlag_params (r : Reg) (v : Word) : (setRegFlag r v s).params = s.params := rfl
@[simp] theorem setRegFlag_draws (r : Reg) (v : Word) : (setRegFlag r v s).draws = s.draws := rfl

/-! ### raise -/

@[simp] theorem raise_regs (r : FaultRecord) : (raise r s).regs = s.regs := rfl
@[simp] theorem raise_gprWritten (r : FaultRecord) : (raise r s).gprWritten = s.gprWritten := rfl
@[simp] theorem raise_pc (r : FaultRecord) : (raise r s).pc = s.pc := rfl
@[simp] theorem raise_cc (r : FaultRecord) : (raise r s).cc = s.cc := rfl
@[simp] theorem raise_ccSet (r : FaultRecord) : (raise r s).ccSet = s.ccSet := rfl
@[simp] theorem raise_mem (r : FaultRecord) : (raise r s).mem = s.mem := rfl
@[simp] theorem raise_instructionCount (r : FaultRecord) : (raise r s).instructionCount = s.instructionCount := rfl
@[simp] theorem raise_kbReady (r : FaultRecord) : (raise r s).kbReady = s.kbReady := rfl
@[simp] theorem raise_kbLatch (r : FaultRecord) : (raise r s).kbLatch = s.kbLatch := rfl
@[simp] theorem raise_channel (r : FaultRecord) : (raise r s).channel = s.channel := rfl
@[simp] theorem raise_output (r : FaultRecord) : (raise r s).output = s.output := rfl
@[simp] theorem raise_run (r : FaultRecord) : (raise r s).run = .faulted r := rfl
@[simp] theorem raise_wait (r : FaultRecord) : (raise r s).wait = s.wait := rfl
@[simp] theorem raise_inputStream (r : FaultRecord) : (raise r s).inputStream = s.inputStream := rfl
@[simp] theorem raise_producerStopped (r : FaultRecord) : (raise r s).producerStopped = s.producerStopped := rfl
@[simp] theorem raise_writeOutcomes (r : FaultRecord) : (raise r s).writeOutcomes = s.writeOutcomes := rfl
@[simp] theorem raise_schedule (r : FaultRecord) : (raise r s).schedule = s.schedule := rfl
@[simp] theorem raise_params (r : FaultRecord) : (raise r s).params = s.params := rfl
@[simp] theorem raise_draws (r : FaultRecord) : (raise r s).draws = s.draws := rfl

/-! ### raiseInstr -/

@[simp] theorem raiseInstr_regs (k : FaultKind) (i : FaultInfo) (w : Word) : (raiseInstr k i w s).regs = s.regs := rfl
@[simp] theorem raiseInstr_gprWritten (k : FaultKind) (i : FaultInfo) (w : Word) : (raiseInstr k i w s).gprWritten = s.gprWritten := rfl
@[simp] theorem raiseInstr_pc (k : FaultKind) (i : FaultInfo) (w : Word) : (raiseInstr k i w s).pc = s.pc := rfl
@[simp] theorem raiseInstr_cc (k : FaultKind) (i : FaultInfo) (w : Word) : (raiseInstr k i w s).cc = s.cc := rfl
@[simp] theorem raiseInstr_ccSet (k : FaultKind) (i : FaultInfo) (w : Word) : (raiseInstr k i w s).ccSet = s.ccSet := rfl
@[simp] theorem raiseInstr_mem (k : FaultKind) (i : FaultInfo) (w : Word) : (raiseInstr k i w s).mem = s.mem := rfl
@[simp] theorem raiseInstr_instructionCount (k : FaultKind) (i : FaultInfo) (w : Word) : (raiseInstr k i w s).instructionCount = s.instructionCount := rfl
@[simp] theorem raiseInstr_kbReady (k : FaultKind) (i : FaultInfo) (w : Word) : (raiseInstr k i w s).kbReady = s.kbReady := rfl
@[simp] theorem raiseInstr_kbLatch (k : FaultKind) (i : FaultInfo) (w : Word) : (raiseInstr k i w s).kbLatch = s.kbLatch := rfl
@[simp] theorem raiseInstr_channel (k : FaultKind) (i : FaultInfo) (w : Word) : (raiseInstr k i w s).channel = s.channel := rfl
@[simp] theorem raiseInstr_output (k : FaultKind) (i : FaultInfo) (w : Word) : (raiseInstr k i w s).output = s.output := rfl
@[simp] theorem raiseInstr_run (k : FaultKind) (i : FaultInfo) (w : Word) : (raiseInstr k i w s).run = .faulted { kind := k, addr := s.pc - 1#16, word := some w, info := i } := rfl
@[simp] theorem raiseInstr_wait (k : FaultKind) (i : FaultInfo) (w : Word) : (raiseInstr k i w s).wait = s.wait := rfl
@[simp] theorem raiseInstr_inputStream (k : FaultKind) (i : FaultInfo) (w : Word) : (raiseInstr k i w s).inputStream = s.inputStream := rfl
@[simp] theorem raiseInstr_producerStopped (k : FaultKind) (i : FaultInfo) (w : Word) : (raiseInstr k i w s).producerStopped = s.producerStopped := rfl
@[simp] theorem raiseInstr_writeOutcomes (k : FaultKind) (i : FaultInfo) (w : Word) : (raiseInstr k i w s).writeOutcomes = s.writeOutcomes := rfl
@[simp] theorem raiseInstr_schedule (k : FaultKind) (i : FaultInfo) (w : Word) : (raiseInstr k i w s).schedule = s.schedule := rfl
@[simp] theorem raiseInstr_params (k : FaultKind) (i : FaultInfo) (w : Word) : (raiseInstr k i w s).params = s.params := rfl
@[simp] theorem raiseInstr_draws (k : FaultKind) (i : FaultInfo) (w : Word) : (raiseInstr k i w s).draws = s.draws := rfl

/-! ### haltRun -/

@[simp] theorem haltRun_regs (h : HaltReason) : (haltRun h s).regs = s.regs := rfl
@[simp] theorem haltRun_gprWritten (h : HaltReason) : (haltRun h s).gprWritten = s.gprWritten := rfl
@[simp] theorem haltRun_pc (h : HaltReason) : (haltRun h s).pc = s.pc := rfl
@[simp] theorem haltRun_cc (h : HaltReason) : (haltRun h s).cc = s.cc := rfl
@[simp] theorem haltRun_ccSet (h : HaltReason) : (haltRun h s).ccSet = s.ccSet := rfl
@[simp] theorem haltRun_mem (h : HaltReason) : (haltRun h s).mem = s.mem := rfl
@[simp] theorem haltRun_instructionCount (h : HaltReason) : (haltRun h s).instructionCount = s.instructionCount := rfl
@[simp] theorem haltRun_kbReady (h : HaltReason) : (haltRun h s).kbReady = s.kbReady := rfl
@[simp] theorem haltRun_kbLatch (h : HaltReason) : (haltRun h s).kbLatch = s.kbLatch := rfl
@[simp] theorem haltRun_channel (h : HaltReason) : (haltRun h s).channel = s.channel := rfl
@[simp] theorem haltRun_output (h : HaltReason) : (haltRun h s).output = s.output := rfl
@[simp] theorem haltRun_run (h : HaltReason) : (haltRun h s).run = .halted h := rfl
@[simp] theorem haltRun_wait (h : HaltReason) : (haltRun h s).wait = s.wait := rfl
@[simp] theorem haltRun_inputStream (h : HaltReason) : (haltRun h s).inputStream = s.inputStream := rfl
@[simp] theorem haltRun_producerStopped (h : HaltReason) : (haltRun h s).producerStopped = s.producerStopped := rfl
@[simp] theorem haltRun_writeOutcomes (h : HaltReason) : (haltRun h s).writeOutcomes = s.writeOutcomes := rfl
@[simp] theorem haltRun_schedule (h : HaltReason) : (haltRun h s).schedule = s.schedule := rfl
@[simp] theorem haltRun_params (h : HaltReason) : (haltRun h s).params = s.params := rfl
@[simp] theorem haltRun_draws (h : HaltReason) : (haltRun h s).draws = s.draws := rfl

/-! ### popTurn -/

@[simp] theorem popTurn_regs : (popTurn s).regs = s.regs := rfl
@[simp] theorem popTurn_gprWritten : (popTurn s).gprWritten = s.gprWritten := rfl
@[simp] theorem popTurn_pc : (popTurn s).pc = s.pc := rfl
@[simp] theorem popTurn_cc : (popTurn s).cc = s.cc := rfl
@[simp] theorem popTurn_ccSet : (popTurn s).ccSet = s.ccSet := rfl
@[simp] theorem popTurn_mem : (popTurn s).mem = s.mem := rfl
@[simp] theorem popTurn_instructionCount : (popTurn s).instructionCount = s.instructionCount := rfl
@[simp] theorem popTurn_kbReady : (popTurn s).kbReady = s.kbReady := rfl
@[simp] theorem popTurn_kbLatch : (popTurn s).kbLatch = s.kbLatch := rfl
@[simp] theorem popTurn_channel : (popTurn s).channel = s.channel := rfl
@[simp] theorem popTurn_output : (popTurn s).output = s.output := rfl
@[simp] theorem popTurn_run : (popTurn s).run = s.run := rfl
@[simp] theorem popTurn_wait : (popTurn s).wait = s.wait := rfl
@[simp] theorem popTurn_inputStream : (popTurn s).inputStream = s.inputStream := rfl
@[simp] theorem popTurn_producerStopped : (popTurn s).producerStopped = s.producerStopped := rfl
@[simp] theorem popTurn_writeOutcomes : (popTurn s).writeOutcomes = s.writeOutcomes := rfl
@[simp] theorem popTurn_schedule : (popTurn s).schedule = s.schedule.tail := rfl
@[simp] theorem popTurn_params : (popTurn s).params = s.params := rfl
@[simp] theorem popTurn_draws : (popTurn s).draws = s.draws := rfl

end Sys2Proof.Machine
end

