-- ==== Sys2Proof/Laws/Ops.lean ====
section
/-! SUPPORT. For each shared operation, what it can do. Callers cite these and do not unfold the operation. -/

namespace Sys2Proof.Machine

/-! ### Going on, or not -/

@[simp] theorem Res.andThen_ok {α : Type} (v : α) (s : State) (f : α → State → State) :
    (Res.ok v s).andThen f = f v s := rfl

@[simp] theorem Res.andThen_stop {α : Type} (s : State) (f : α → State → State) :
    (Res.stop s : Res α).andThen f = s := rfl

/-! ### Registers and the flag -/

theorem readReg_written {r : Reg} {s : State} (h : s.gprWritten[r] = true) : readReg r s = (s.regs[r], s) := by
  simp only [readReg, h, if_true]

theorem readReg_unwritten {r : Reg} {s : State} (h : s.gprWritten[r] = false) :
    readReg r s = (Config.freeWord s.draws, { s with draws := s.draws + 1 }) := by
  simp [readReg, h]

/-- A register read changes the draw counter at most. -/
theorem readReg_frame (r : Reg) (s : State) : ∃ n, (readReg r s).2 = { s with draws := n } := by
  unfold readReg
  split
  · exact ⟨s.draws, rfl⟩
  · exact ⟨s.draws + 1, rfl⟩

theorem readFlag_set {s : State} (h : s.ccSet = true) : readFlag s = (s.cc, s) := by
  simp only [readFlag, h, if_true]

theorem readFlag_unset {s : State} (h : s.ccSet = false) :
    readFlag s = (Config.freeFlag s.draws, { s with draws := s.draws + 1 }) := by
  simp [readFlag, h]

/-- A flag read changes the draw counter at most. -/
theorem readFlag_frame (s : State) : ∃ n, (readFlag s).2 = { s with draws := n } := by
  unfold readFlag
  split
  · exact ⟨s.draws, rfl⟩
  · exact ⟨s.draws + 1, rfl⟩

/-- The register just written reads back, without a draw. -/
theorem readReg_setReg_same (r : Reg) (v : Word) (s : State) : readReg r (setReg r v s) = (v, setReg r v s) := by
  simp [readReg]

theorem setReg_regs_other {r q : Reg} (h : q ≠ r) (v : Word) (s : State) :
    (setReg r v s).regs[q] = s.regs[q] ∧ (setReg r v s).gprWritten[q] = s.gprWritten[q] := by
  have : (r : Nat) ≠ q := fun e => h (Fin.ext e.symm)
  simp [this]

/-! ### The keyboard -/

/-- A KBSR read answers ready or not ready, and may latch the head of the channel. -/
theorem kbsrRead_cases (s : State) :
    (s.kbReady = true ∧ kbsrRead s = (kbsrReady s.params, s)) ∨
    (s.kbReady = false ∧ s.channel = [] ∧ kbsrRead s = (kbsrNotReady s.params, s)) ∨
    (∃ c rest, s.kbReady = false ∧ s.channel = c :: rest ∧
      kbsrRead s = (kbsrReady s.params, { s with kbLatch := c, kbReady := true, channel := rest })) := by
  unfold kbsrRead
  cases h : s.kbReady
  · cases hc : s.channel with
    | nil => exact .inr (.inl ⟨rfl, rfl, by simp⟩)
    | cons c rest => exact .inr (.inr ⟨c, rest, rfl, rfl, by simp⟩)
  · exact .inl ⟨rfl, by simp⟩

/-- A KBDR read answers the latched character and clears ready, or answers a free byte. -/
theorem kbdrRead_cases (s : State) :
    (s.kbReady = true ∧ kbdrRead s = (s.kbLatch.setWidth 16, { s with kbReady := false })) ∨
    (s.kbReady = false ∧
      kbdrRead s = ((Config.freeByte s.draws).setWidth 16, { s with draws := s.draws + 1 })) := by
  unfold kbdrRead
  cases s.kbReady <;> simp

/-- What a data read does to the state when it does not fault: the keyboard's own fields and the draw counter
at most. -/
theorem readWord_frame (a : Word) (s : State) :
    ∃ ready latch ch n, (readWord a s).2 =
      { s with kbReady := ready, kbLatch := latch, channel := ch, draws := n } := by
  unfold readWord
  split_ifs
  · rcases kbsrRead_cases s with ⟨-, h⟩ | ⟨-, -, h⟩ | ⟨c, rest, -, -, h⟩ <;> rw [h]
    · exact ⟨s.kbReady, s.kbLatch, s.channel, s.draws, rfl⟩
    · exact ⟨s.kbReady, s.kbLatch, s.channel, s.draws, rfl⟩
    · exact ⟨true, c, rest, s.draws, rfl⟩
  · rcases kbdrRead_cases s with ⟨-, h⟩ | ⟨-, h⟩ <;> rw [h]
    · exact ⟨false, s.kbLatch, s.channel, s.draws, rfl⟩
    · exact ⟨s.kbReady, s.kbLatch, s.channel, s.draws + 1, rfl⟩
  · exact ⟨s.kbReady, s.kbLatch, s.channel, s.draws, rfl⟩

/-! ### Memory -/

theorem memRead_readable {w a : Word} {s : State} (h : readable s a = true) :
    memRead w a s = .ok (readWord a s).1 (readWord a s).2 := by
  unfold memRead readWord
  split_ifs with h1 h2 h3
  · rfl
  · rfl
  · rfl
  · simp [readable, h1, h2, h3] at h

theorem memRead_unreadable {w a : Word} {s : State} (h : readable s a = false) :
    memRead w a s = .stop (raiseInstr .memoryReadOutOfRange (.address a) w s) := by
  simp only [readable, Bool.or_eq_false_iff, beq_eq_false_iff_ne] at h
  unfold memRead
  rw [if_neg h.1.2, if_neg h.2, if_neg (by simp [h.1.1])]

/-- A data read of an address that is not a keyboard register. -/
theorem readWord_plain {a : Word} {s : State} (h1 : a ≠ kbsrAddr) (h2 : a ≠ kbdrAddr) :
    readWord a s = (s.mem.read a.toNat, s) := by
  simp [readWord, h1, h2]

/-- A data write stores the word, is discarded, or raises MemoryWriteOutOfRange. -/
theorem memWrite_cases (w a v : Word) (s : State) :
    (inImage s a = true ∧ a ≠ kbsrAddr ∧ a ≠ kbdrAddr ∧ memWrite w a v s = setMem a v s) ∨
    ((a = kbsrAddr ∨ a = kbdrAddr) ∧ s.params.mmioWritePolicy = .discard ∧ memWrite w a v s = s) ∨
    (((a = kbsrAddr ∨ a = kbdrAddr) ∧ s.params.mmioWritePolicy = .fault ∨ inImage s a = false) ∧
      memWrite w a v s = raiseInstr .memoryWriteOutOfRange (.address a) w s) := by
  unfold memWrite
  by_cases hk : a = kbsrAddr ∨ a = kbdrAddr
  · rw [if_pos hk]
    cases hp : s.params.mmioWritePolicy
    · exact .inr (.inl ⟨hk, rfl, rfl⟩)
    · exact .inr (.inr ⟨.inl ⟨hk, rfl⟩, rfl⟩)
  · rw [if_neg hk]
    push Not at hk
    cases hi : inImage s a
    · exact .inr (.inr ⟨.inr rfl, by simp⟩)
    · exact .inl ⟨rfl, hk.1, hk.2, by simp⟩

/-- The image check rests on the count of loaded words alone. -/
theorem inImage_congr {s t : State} (h : t.instructionCount = s.instructionCount) (a : Word) :
    inImage t a = inImage s a := by simp [inImage, programEnd, h]

/-- A loaded address is an address of the program section. -/
theorem inImage_bounds {s : State} {a : Word} (hc : s.instructionCount ≤ programCapacity) :
    inImage s a = true ↔ 0x3000 ≤ a.toNat ∧ a.toNat < 0x3000 + s.instructionCount := by
  have hp : (programEnd s).toNat = 0x3000 + s.instructionCount := by
    simp only [programEnd, programStart, programCapacity, BitVec.toNat_add, BitVec.toNat_ofNat] at *
    omega
  simp [inImage, hp, programStart]

/-- A keyboard register is never in a loaded range of lawful size. -/
theorem not_keyboard_of_inImage {s : State} {a : Word} (hc : s.instructionCount ≤ programCapacity)
    (h : inImage s a = true) : a ≠ kbsrAddr ∧ a ≠ kbdrAddr := by
  rw [inImage_bounds hc] at h
  simp only [programCapacity] at hc
  constructor <;> rintro rfl <;> simp [kbsrAddr, kbdrAddr] at h <;> omega

theorem fetch_eq_some {s : State} {a w : Word} :
    fetch a s = some w ↔ inImage s a = true ∧ s.mem.read a.toNat = w := by
  unfold fetch; split <;> simp_all

/-! ### The console -/

/-- One console write succeeds and appends its byte, or fails and raises IoError. -/
theorem emit_cases (w : Word) (b : Byte) (s : State) :
    (writesSucceed 1 s = true ∧ emit w b s = .ok () (withOutput [b] s)) ∨
    (∃ rest, s.writeOutcomes = false :: rest ∧
      emit w b s = .stop (raiseInstr .ioError .nothing w { s with writeOutcomes := rest })) := by
  unfold emit
  match h : s.writeOutcomes with
  | [] => exact .inl ⟨by simp [writesSucceed, h], by simp [withOutput, h]⟩
  | true :: rest => exact .inl ⟨by simp [writesSucceed, h], by simp [withOutput, h]⟩
  | false :: rest => exact .inr ⟨rest, rfl, rfl⟩

theorem emit_succeeds {w : Word} {b : Byte} {s : State} (h : writesSucceed 1 s = true) :
    emit w b s = .ok () (withOutput [b] s) := by
  rcases emit_cases w b s with ⟨-, h1⟩ | ⟨rest, h1, -⟩
  · exact h1
  · simp [writesSucceed, h1] at h

@[simp] theorem withOutput_nil (s : State) : withOutput [] s = s := by simp [withOutput]

@[simp] theorem withOutput_withOutput (bs cs : List Byte) (s : State) :
    withOutput cs (withOutput bs s) = withOutput (bs ++ cs) s := by
  simp [withOutput]

theorem writesSucceed_add (m n : Nat) (s : State) :
    writesSucceed (m + n) s =
      (writesSucceed m s && (((s.writeOutcomes.drop m).take n).all fun b => b)) := by
  simp only [writesSucceed]
  rw [List.take_add, List.all_append]

/-- Writes left over after some were made. -/
theorem writesSucceed_withOutput (bs : List Byte) (n : Nat) (s : State)
    (h : writesSucceed (bs.length + n) s = true) :
    writesSucceed bs.length s = true ∧ writesSucceed n (withOutput bs s) = true := by
  rw [writesSucceed_add, Bool.and_eq_true] at h
  exact h

/-- A sequence of writes that all succeed appends its bytes in order. -/
theorem emitAll_succeeds {w : Word} (bs : List Byte) {s : State} (h : writesSucceed bs.length s = true) :
    emitAll w bs s = .ok () (withOutput bs s) := by
  induction bs generalizing s with
  | nil => simp [emitAll]
  | cons b bs ih =>
    have h' := writesSucceed_withOutput [b] bs.length s (by simpa [Nat.add_comm] using h)
    simp only [emitAll, emit_succeeds h'.1, ih h'.2, withOutput_withOutput, List.singleton_append]

/-- A sequence of writes appends some of its bytes, and ends with all of them or with IoError. -/
theorem emitAll_cases (w : Word) (bs : List Byte) (s : State) :
    (emitAll w bs s = .ok () (withOutput bs s)) ∨
    (∃ done left rest, bs = done ++ left ∧ emitAll w bs s =
      .stop (raiseInstr .ioError .nothing w
        { s with output := s.output ++ done, writeOutcomes := rest })) := by
  induction bs generalizing s with
  | nil => exact .inl (by simp [emitAll])
  | cons b bs ih =>
    rcases emit_cases w b s with ⟨-, h⟩ | ⟨rest, -, h⟩
    · rcases ih (withOutput [b] s) with h2 | ⟨done, left, rest, rfl, h2⟩
      · exact .inl (by simp [emitAll, h, h2])
      · exact .inr ⟨b :: done, left, rest, rfl, by simp only [emitAll, h, h2]; simp [withOutput]⟩
    · exact .inr ⟨[], b :: bs, rest, rfl, by simp [emitAll, h]⟩

/-! ### Characters -/

@[simp] theorem nextChar_listed (c : Byte) (l : List Byte) (e : Option Nat) : nextChar ⟨c :: l, e⟩ = some (c, ⟨l, e⟩) := rfl

@[simp] theorem nextChar_endless (k : Nat) :
    nextChar ⟨[], some k⟩ = some (Config.streamByte k, ⟨[], some (k + 1)⟩) := rfl

@[simp] theorem nextChar_end : nextChar ⟨[], none⟩ = none := rfl

/-- An infinite stream always has a next character, and stays infinite. -/
theorem nextChar_infinite (l : List Byte) (k : Nat) :
    ∃ c l' k', nextChar ⟨l, some k⟩ = some (c, ⟨l', some k'⟩) := by
  cases l
  · exact ⟨_, _, _, rfl⟩
  · exact ⟨_, _, _, rfl⟩

/-- `TakeChar` takes the latched character, else the channel's head, else suspends the instruction. -/
theorem takeChar_cases (routine : InputRoutine) (w : Word) (s : State) :
    (s.kbReady = true ∧ takeChar routine w s = .ok s.kbLatch { s with kbReady := false }) ∨
    (∃ c rest, s.kbReady = false ∧ s.channel = c :: rest ∧
      takeChar routine w s = .ok c { s with channel := rest }) ∨
    (s.kbReady = false ∧ s.channel = [] ∧
      takeChar routine w s = .stop { s with wait := .waitingInput routine w }) := by
  unfold takeChar
  cases h : s.kbReady
  · cases hc : s.channel with
    | nil => exact .inr (.inr ⟨rfl, rfl, by simp⟩)
    | cons c rest => exact .inr (.inl ⟨c, rest, rfl, rfl, by simp⟩)
  · exact .inl ⟨rfl, by simp⟩

/-! ### Words -/

/-- The written-out zero case of `andWord` changes nothing. -/
theorem andWord_eq (a b : Word) : andWord a b = a &&& b := by
  unfold andWord
  split
  · next h => simp [h]
  · rfl

/-- Sign extension keeps the signed value (R11). -/
theorem sext_toInt {n : Nat} (f : BitVec n) (h : n ≤ 16) : (sext f).toInt = f.toInt :=
  BitVec.toInt_signExtend_of_le h

/-- An address moved by a signed offset, modulo 2^16 (R12, R82). -/
theorem toNat_add_sext {n : Nat} (a : Word) (f : BitVec n) (h : n ≤ 16) :
    ((a + sext f).toNat : Int) = (a.toNat + f.toInt) % 65536 := by
  have hs := sext_toInt f h
  rw [BitVec.toInt_eq_toNat_cond] at hs
  have := (sext f).isLt
  rw [BitVec.toNat_add]
  split at hs <;> push_cast <;> omega

/-- `flagOf` is what the flag says of a word (R28). -/
theorem flagSays_flagOf (v : Word) : flagSays v (flagOf v) := by
  unfold flagOf flagSays
  by_cases h : v = 0#16
  · simp [h]
  · have : v.toNat ≠ 0 := fun e => h (BitVec.eq_of_toNat_eq (by simpa using e))
    simp only [h, if_false]
    cases hm : v.msb <;> rw [BitVec.msb_eq_decide] at hm <;> simp at hm ⊢ <;> omega

end Sys2Proof.Machine
end

