-- ==== Sys2Proof/Laws/Trap.lean ====
section
/-! SUPPORT. The string loops of PUTS and PUTSP: the rounds they are given are never used up (log 23), and what a
string in the loaded range prints (43_trap.md R144, R146). -/

namespace Sys2Proof.Machine

/-- The last address of the space is not readable, whatever the loaded range. -/
theorem last_unreadable (s : State) : readable s 0xFFFF#16 = false := by
  have h : (programEnd s).toNat < 65536 := (programEnd s).isLt
  have h1 : inImage s 0xFFFF#16 = false := by
    simp only [inImage, Bool.and_eq_false_iff, decide_eq_false_iff_not]
    right
    simp only [BitVec.toNat_ofNat]
    omega
  simp [readable, h1, kbsrAddr, kbdrAddr]

/-- The address after a readable one does not wrap. -/
theorem readable_succ {a : Word} {s : State} (h : readable s a = true) : (a + 1#16).toNat = a.toNat + 1 := by
  have ha : a.toNat ≠ 65535 := by
    intro e
    have : a = 0xFFFF#16 := BitVec.eq_of_toNat_eq (by simp [e])
    rw [this, last_unreadable] at h
    exact absurd h (by simp)
  have := a.isLt
  simp only [BitVec.toNat_add, BitVec.toNat_ofNat]
  omega

/-- With a round for each address from `a` up, another round changes nothing: PUTS ends by itself. -/
theorem putsFrom_fuel (w : Word) (n k : Nat) (a : Word) (s : State) (h : 65536 ≤ a.toNat + n) :
    putsFrom w (n + k) a s = putsFrom w n a s := by
  induction n generalizing a s with
  | zero => have := a.isLt; omega
  | succ n ih =>
    rw [Nat.add_right_comm]
    simp only [putsFrom]
    cases hr : readable s a with
    | false => simp [memRead_unreadable hr]
    | true =>
      have hs := readable_succ hr
      rw [memRead_readable hr]
      simp only [Res.andThen_ok]
      split
      · rfl
      · rcases emit_cases w (lowByte (readWord a s).1) (readWord a s).2 with ⟨-, he⟩ | ⟨rest, -, he⟩
        · simp only [he, Res.andThen_ok]
          exact ih _ _ (by omega)
        · simp only [he, Res.andThen_stop]

/-- With a round for each address from `a` up, another round changes nothing: PUTSP ends by itself. -/
theorem putspFrom_fuel (w : Word) (n k : Nat) (a : Word) (s : State) (h : 65536 ≤ a.toNat + n) :
    putspFrom w (n + k) a s = putspFrom w n a s := by
  induction n generalizing a s with
  | zero => have := a.isLt; omega
  | succ n ih =>
    rw [Nat.add_right_comm]
    simp only [putspFrom]
    cases hr : readable s a with
    | false => simp [memRead_unreadable hr]
    | true =>
      have hs := readable_succ hr
      rw [memRead_readable hr]
      simp only [Res.andThen_ok]
      split
      · rfl
      · rcases emit_cases w (lowByte (readWord a s).1) (readWord a s).2 with ⟨-, he⟩ | ⟨rest, -, he⟩
        · simp only [he, Res.andThen_ok]
          split
          · rfl
          · rcases emit_cases w (highByte (readWord a s).1) (withOutput [lowByte (readWord a s).1] (readWord a s).2)
              with ⟨-, he2⟩ | ⟨rest, -, he2⟩
            · simp only [he2, Res.andThen_ok]
              exact ih _ _ (by omega)
            · simp only [he2, Res.andThen_stop]
        · simp only [he, Res.andThen_stop]

/-- An induction principle for PUTS: a property of every address and state of the loop follows from what one
round does. The rounds that are left always reach past the last address. -/
theorem putsFrom_induct (w : Word) (P : State → State → Prop)
    (stop : ∀ a s, readable s a = false → P s (raiseInstr .memoryReadOutOfRange (.address a) w s))
    (null : ∀ a s, readable s a = true → (readWord a s).1 = 0#16 → P s (readWord a s).2)
    (fail : ∀ a s rest, readable s a = true → (readWord a s).2.writeOutcomes = false :: rest →
      P s (raiseInstr .ioError .nothing w { (readWord a s).2 with writeOutcomes := rest }))
    (again : ∀ a s t, readable s a = true →
      P (withOutput [lowByte (readWord a s).1] (readWord a s).2) t → P s t)
    (n : Nat) (a : Word) (s : State) (h : 65536 ≤ a.toNat + n) : P s (putsFrom w n a s) := by
  induction n generalizing a s with
  | zero => have := a.isLt; omega
  | succ n ih =>
    simp only [putsFrom]
    cases hr : readable s a with
    | false => rw [memRead_unreadable hr]; exact stop a s hr
    | true =>
      have hs := readable_succ hr
      rw [memRead_readable hr]
      simp only [Res.andThen_ok]
      split
      · next hz => exact null a s hr hz
      · rcases emit_cases w (lowByte (readWord a s).1) (readWord a s).2 with ⟨-, he⟩ | ⟨rest, hw, he⟩
        · simp only [he, Res.andThen_ok]
          exact again a s _ hr (ih _ _ (by omega))
        · simp only [he, Res.andThen_stop]
          exact fail a s rest hr hw

/-- The same for PUTSP, whose round writes the low byte and then the high byte. -/
theorem putspFrom_induct (w : Word) (P : State → State → Prop)
    (stop : ∀ a s, readable s a = false → P s (raiseInstr .memoryReadOutOfRange (.address a) w s))
    (null : ∀ a s, readable s a = true → P s (readWord a s).2)
    (fail : ∀ a s rest, readable s a = true → (readWord a s).2.writeOutcomes = false :: rest →
      P s (raiseInstr .ioError .nothing w { (readWord a s).2 with writeOutcomes := rest }))
    (half : ∀ a s, readable s a = true →
      P s (withOutput [lowByte (readWord a s).1] (readWord a s).2))
    (failHigh : ∀ a s rest, readable s a = true →
      (withOutput [lowByte (readWord a s).1] (readWord a s).2).writeOutcomes = false :: rest →
      P s (raiseInstr .ioError .nothing w
        { (withOutput [lowByte (readWord a s).1] (readWord a s).2) with writeOutcomes := rest }))
    (again : ∀ a s t, readable s a = true →
      P (withOutput [lowByte (readWord a s).1, highByte (readWord a s).1] (readWord a s).2) t → P s t)
    (n : Nat) (a : Word) (s : State) (h : 65536 ≤ a.toNat + n) : P s (putspFrom w n a s) := by
  induction n generalizing a s with
  | zero => have := a.isLt; omega
  | succ n ih =>
    simp only [putspFrom]
    cases hr : readable s a with
    | false => rw [memRead_unreadable hr]; exact stop a s hr
    | true =>
      have hs := readable_succ hr
      rw [memRead_readable hr]
      simp only [Res.andThen_ok]
      split
      · exact null a s hr
      · rcases emit_cases w (lowByte (readWord a s).1) (readWord a s).2 with ⟨-, he⟩ | ⟨rest, hw, he⟩
        · simp only [he, Res.andThen_ok]
          split
          · exact half a s hr
          · rcases emit_cases w (highByte (readWord a s).1) (withOutput [lowByte (readWord a s).1] (readWord a s).2)
              with ⟨-, he2⟩ | ⟨rest, hw2, he2⟩
            · simp only [he2, Res.andThen_ok, withOutput_withOutput, List.cons_append, List.nil_append]
              exact again a s _ hr (ih _ _ (by omega))
            · simp only [he2, Res.andThen_stop]
              exact failHigh a s rest hr hw2
        · simp only [he, Res.andThen_stop]
          exact fail a s rest hr hw

/-! ### What a run of words prints -/

/-- A data read does not see the console. -/
theorem readWord_withOutput (a : Word) (bs : List Byte) (s : State) :
    readWord a (withOutput bs s) = ((readWord a s).1, withOutput bs (readWord a s).2) := by
  have h : (withOutput bs s).kbReady = s.kbReady ∧ (withOutput bs s).channel = s.channel := ⟨rfl, rfl⟩
  unfold readWord
  split_ifs
  · unfold kbsrRead; rw [h.1, h.2]; split <;> [rfl; (split <;> rfl)]
  · unfold kbdrRead; rw [h.1]; split <;> rfl
  · rfl

theorem readable_withOutput (a : Word) (bs : List Byte) (s : State) : readable (withOutput bs s) a = readable s a := rfl

/-- The reads of a run of words do not see the console. -/
theorem readsWords_withOutput (bs : List Byte) (ws : List Word) (a : Word) (s : State) :
    readsWords (withOutput bs s) a ws = readsWords s a ws := by
  induction ws generalizing a s with
  | nil => rfl
  | cons w ws ih => simp only [readsWords, readable_withOutput, readWord_withOutput, ih]

theorem afterReads_withOutput (bs : List Byte) (n : Nat) (a : Word) (s : State) :
    afterReads n a (withOutput bs s) = withOutput bs (afterReads n a s) := by
  induction n generalizing a s with
  | zero => rfl
  | succ n ih => simp only [afterReads, readWord_withOutput, ih]

/-- The reads of a run of words change the keyboard's own fields and the draw counter at most. -/
theorem afterReads_frame (n : Nat) (a : Word) (s : State) : ∃ ready latch ch m, afterReads n a s =
    { s with kbReady := ready, kbLatch := latch, channel := ch, draws := m } := by
  induction n generalizing a s with
  | zero => exact ⟨s.kbReady, s.kbLatch, s.channel, s.draws, rfl⟩
  | succ n ih =>
    obtain ⟨r, l, c, m, h⟩ := readWord_frame a s
    obtain ⟨r', l', c', m', h'⟩ := ih (a + 1#16) (readWord a s).2
    exact ⟨r', l', c', m', by rw [afterReads, h', h]⟩

/-- The address of the word after the first, of a run of words. -/
theorem address_cons (a w : Word) (ws : List Word) :
    a + BitVec.ofNat 16 (w :: ws).length = a + 1#16 + BitVec.ofNat 16 ws.length := by
  rw [BitVec.add_assoc]
  congr 1
  apply BitVec.eq_of_toNat_eq
  simp only [List.length_cons, BitVec.toNat_ofNat, BitVec.toNat_add]
  omega

/-- A run of words is read one after another. -/
theorem readsWords_append (ws vs : List Word) (a : Word) (s : State) : readsWords s a (ws ++ vs) = true ↔
    readsWords s a ws = true ∧
      readsWords (afterReads ws.length a s) (a + BitVec.ofNat 16 ws.length) vs = true := by
  induction ws generalizing a s with
  | nil => simp [readsWords, afterReads]
  | cons w ws ih =>
    rw [address_cons]
    simp only [List.cons_append, readsWords, afterReads, List.length_cons, Bool.and_eq_true, ih, and_assoc]

/-- The one word of a run of one. -/
theorem readsWords_singleton (w a : Word) (s : State) : readsWords s a [w] = true ↔
    readable s a = true ∧ (readWord a s).1 = w := by
  simp [readsWords]

/-- Words in the loaded range read as they stand, and reading them changes nothing. -/
theorem reads_of_holdsWords {s : State} {a : Word} {ws : List Word} (h : holdsWords s a ws = true) {t : State}
    (hm : t.mem = s.mem) (hc : t.instructionCount = s.instructionCount) :
    readsWords t a ws = true ∧ afterReads ws.length a t = t := by
  induction ws generalizing a with
  | nil => exact ⟨rfl, rfl⟩
  | cons w ws ih =>
    simp only [holdsWords, Bool.and_eq_true, bne_iff_ne, beq_iff_eq] at h
    obtain ⟨⟨⟨⟨h1, h2⟩, h3⟩, h4⟩, h5⟩ := h
    have hw : readWord a t = (w, t) := by rw [readWord_plain h2 h3, hm, h4]
    have hr : readable t a = true := by simp [readable, inImage_congr hc, h1]
    simp only [readsWords, afterReads, List.length_cons, hw, hr, ih h5, beq_self_eq_true, Bool.and_self, and_self]

/-- One write now, and the others after it. -/
theorem emit_then {n : Nat} {w : Word} {b : Byte} {s : State} (h : writesSucceed (n + 1) s = true) :
    emit w b s = .ok () (withOutput [b] s) ∧ writesSucceed n (withOutput [b] s) = true := by
  have h' := writesSucceed_withOutput [b] n s (by rw [List.length_singleton, Nat.add_comm]; exact h)
  exact ⟨emit_succeeds h'.1, h'.2⟩

/-- A data read does not change what the console will answer. -/
theorem writesSucceed_readWord (n : Nat) (a : Word) (s : State) :
    writesSucceed n (readWord a s).2 = writesSucceed n s := by
  obtain ⟨r, l, c, m, h⟩ := readWord_frame a s
  rw [h]; rfl

/-- PUTS past words that are not zero: it has printed their low bytes and goes on behind them. -/
theorem putsFrom_prefix (w : Word) (ws : List Word) (n : Nat) (a : Word) (s : State)
    (hr : readsWords s a ws = true) (hz : ∀ v ∈ ws, v ≠ 0#16) (hw : writesSucceed ws.length s = true)
    (hn : 65536 ≤ a.toNat + n) :
    ∃ m, 65536 ≤ (a + BitVec.ofNat 16 ws.length).toNat + m ∧ putsFrom w n a s =
      putsFrom w m (a + BitVec.ofNat 16 ws.length) (withOutput (ws.map lowByte) (afterReads ws.length a s)) := by
  induction ws generalizing n a s with
  | nil => exact ⟨n, by simpa using hn, by simp [afterReads]⟩
  | cons v ws ih =>
    simp only [readsWords, Bool.and_eq_true, beq_iff_eq] at hr
    obtain ⟨⟨h1, h2⟩, h3⟩ := hr
    match n, hn with
    | 0, hn => have := a.isLt; omega
    | n + 1, hn =>
      have hs := readable_succ h1
      have he := emit_then (w := w) (b := lowByte v) (s := (readWord a s).2) ((writesSucceed_readWord _ _ _).trans hw)
      obtain ⟨m, g1, g2⟩ := ih n (a + 1#16) (withOutput [lowByte v] (readWord a s).2)
        ((readsWords_withOutput _ _ _ _).trans h3) (fun x hx => hz x (by simp [hx])) he.2 (by omega)
      rw [address_cons]
      refine ⟨m, g1, ?_⟩
      simp only [putsFrom, memRead_readable h1, h2, Res.andThen_ok, hz v (by simp), if_false, he.1, g2,
        afterReads_withOutput, withOutput_withOutput, List.map_cons, List.length_cons, afterReads, List.singleton_append]

/-- PUTSP past words without a zero byte: it has printed both their bytes and goes on behind them. -/
theorem putspFrom_prefix (w : Word) (ws : List Word) (k n : Nat) (a : Word) (s : State)
    (hr : readsWords s a ws = true) (hz : ∀ v ∈ ws, lowByte v ≠ 0#8 ∧ highByte v ≠ 0#8)
    (hw : writesSucceed (2 * ws.length + k) s = true) (hn : 65536 ≤ a.toNat + n) :
    ∃ m, 65536 ≤ (a + BitVec.ofNat 16 ws.length).toNat + m ∧
      writesSucceed k (withOutput (packedBytes ws) (afterReads ws.length a s)) = true ∧ putspFrom w n a s =
        putspFrom w m (a + BitVec.ofNat 16 ws.length) (withOutput (packedBytes ws) (afterReads ws.length a s)) := by
  induction ws generalizing n a s with
  | nil => exact ⟨n, by simpa using hn, by simpa [afterReads, packedBytes] using hw, by simp [afterReads, packedBytes]⟩
  | cons v ws ih =>
    simp only [readsWords, Bool.and_eq_true, beq_iff_eq] at hr
    obtain ⟨⟨h1, h2⟩, h3⟩ := hr
    match n, hn with
    | 0, hn => have := a.isLt; omega
    | n + 1, hn =>
      have hs := readable_succ h1
      have hb := hz v (by simp)
      have hc : 2 * (v :: ws).length + k = (2 * ws.length + k + 1) + 1 := by simp only [List.length_cons]; omega
      have he := emit_then (w := w) (b := lowByte v) (s := (readWord a s).2)
        ((writesSucceed_readWord _ _ _).trans (hc ▸ hw))
      have he2 := emit_then (w := w) (b := highByte v) he.2
      obtain ⟨m, g1, g2, g3⟩ := ih n (a + 1#16) (withOutput [highByte v] (withOutput [lowByte v] (readWord a s).2))
        ((readsWords_withOutput _ _ _ _).trans ((readsWords_withOutput _ _ _ _).trans h3))
        (fun x hx => hz x (by simp [hx])) he2.2 (by omega)
      rw [address_cons]
      refine ⟨m, g1, ?_, ?_⟩
      · simpa [afterReads, afterReads_withOutput, packedBytes] using g2
      · simp only [putspFrom, memRead_readable h1, h2, Res.andThen_ok, hb.1, hb.2, if_false, he.1, he2.1, g3]
        simp [afterReads, afterReads_withOutput, packedBytes]

end Sys2Proof.Machine
end

