-- ==== Sys2Proof/Laws/Frames.lean ====
section
/-! SUPPORT. `Quiet`: what every operation but a register write, a flag write, a store and a jump leaves alone.
Frames of instructions are put together from it. -/

namespace Sys2Proof.Machine

/-- From `s` to `t` no register, flag, pc, word of memory, parameter or field of the host's side changed, and the
output only grew. The keyboard, the run state, the wait and the draw counter may differ. -/
structure Quiet (s t : State) : Prop where
  regs : t.regs = s.regs
  gprWritten : t.gprWritten = s.gprWritten
  pc : t.pc = s.pc
  cc : t.cc = s.cc
  ccSet : t.ccSet = s.ccSet
  mem : t.mem = s.mem
  instructionCount : t.instructionCount = s.instructionCount
  output : s.output <+: t.output
  inputStream : t.inputStream = s.inputStream
  producerStopped : t.producerStopped = s.producerStopped
  schedule : t.schedule = s.schedule
  params : t.params = s.params

theorem Quiet.refl (s : State) : Quiet s s :=
  ⟨rfl, rfl, rfl, rfl, rfl, rfl, rfl, List.prefix_refl _, rfl, rfl, rfl, rfl⟩

theorem Quiet.trans {s t u : State} (h : Quiet s t) (g : Quiet t u) : Quiet s u :=
  ⟨g.regs.trans h.regs, g.gprWritten.trans h.gprWritten, g.pc.trans h.pc, g.cc.trans h.cc, g.ccSet.trans h.ccSet,
    g.mem.trans h.mem, g.instructionCount.trans h.instructionCount, h.output.trans g.output,
    g.inputStream.trans h.inputStream, g.producerStopped.trans h.producerStopped, g.schedule.trans h.schedule,
    g.params.trans h.params⟩

theorem quiet_readReg (r : Reg) (s : State) : Quiet s (readReg r s).2 := by
  obtain ⟨n, h⟩ := readReg_frame r s
  rw [h]
  exact ⟨rfl, rfl, rfl, rfl, rfl, rfl, rfl, List.prefix_refl _, rfl, rfl, rfl, rfl⟩

theorem quiet_readFlag (s : State) : Quiet s (readFlag s).2 := by
  obtain ⟨n, h⟩ := readFlag_frame s
  rw [h]
  exact ⟨rfl, rfl, rfl, rfl, rfl, rfl, rfl, List.prefix_refl _, rfl, rfl, rfl, rfl⟩

theorem quiet_readWord (a : Word) (s : State) : Quiet s (readWord a s).2 := by
  obtain ⟨ready, latch, ch, n, h⟩ := readWord_frame a s
  rw [h]
  exact ⟨rfl, rfl, rfl, rfl, rfl, rfl, rfl, List.prefix_refl _, rfl, rfl, rfl, rfl⟩

theorem quiet_raise (r : FaultRecord) (s : State) : Quiet s (raise r s) :=
  ⟨rfl, rfl, rfl, rfl, rfl, rfl, rfl, List.prefix_refl _, rfl, rfl, rfl, rfl⟩

theorem quiet_raiseInstr (k : FaultKind) (i : FaultInfo) (w : Word) (s : State) : Quiet s (raiseInstr k i w s) :=
  quiet_raise _ s

theorem quiet_haltRun (h : HaltReason) (s : State) : Quiet s (haltRun h s) :=
  ⟨rfl, rfl, rfl, rfl, rfl, rfl, rfl, List.prefix_refl _, rfl, rfl, rfl, rfl⟩

theorem quiet_withOutput (bs : List Byte) (s : State) : Quiet s (withOutput bs s) :=
  ⟨rfl, rfl, rfl, rfl, rfl, rfl, rfl, List.prefix_append _ _, rfl, rfl, rfl, rfl⟩

/-- The console's coming outcomes are not among what `Quiet` speaks of. -/
theorem quiet_outcomes (rest : List Bool) (s : State) : Quiet s { s with writeOutcomes := rest } :=
  ⟨rfl, rfl, rfl, rfl, rfl, rfl, rfl, List.prefix_refl _, rfl, rfl, rfl, rfl⟩

/-- A console write, followed by something quiet. -/
theorem quiet_emit {w : Word} {b : Byte} {s : State} {f : Unit → State → State}
    (h : Quiet (withOutput [b] s) (f () (withOutput [b] s))) : Quiet s ((emit w b s).andThen f) := by
  rcases emit_cases w b s with ⟨-, he⟩ | ⟨rest, -, he⟩ <;> rw [he]
  · exact (quiet_withOutput [b] s).trans h
  · exact (quiet_outcomes rest s).trans (quiet_raiseInstr _ _ _ _)

/-- A sequence of console writes, followed by something quiet. -/
theorem quiet_emitAll {w : Word} {bs : List Byte} {s : State} {f : Unit → State → State}
    (h : Quiet (withOutput bs s) (f () (withOutput bs s))) : Quiet s ((emitAll w bs s).andThen f) := by
  rcases emitAll_cases w bs s with he | ⟨done, left, rest, -, he⟩ <;> rw [he]
  · exact (quiet_withOutput bs s).trans h
  · exact ⟨rfl, rfl, rfl, rfl, rfl, rfl, rfl, List.prefix_append _ _, rfl, rfl, rfl, rfl⟩

/-- A data read: it raises its fault, or gives its word and goes on from a quiet change of the state. -/
theorem memRead_elim {w a : Word} {s : State} (f : Word → State → State) :
    (readable s a = false ∧
      (memRead w a s).andThen f = raiseInstr .memoryReadOutOfRange (.address a) w s) ∨
    (readable s a = true ∧ (memRead w a s).andThen f = f (readWord a s).1 (readWord a s).2) := by
  cases h : readable s a
  · exact .inl ⟨rfl, by rw [memRead_unreadable h]; rfl⟩
  · exact .inr ⟨rfl, by rw [memRead_readable h]; rfl⟩

/-- The address check rests on the count of loaded words alone. -/
theorem readable_congr {s t : State} (h : t.instructionCount = s.instructionCount) (a : Word) :
    readable t a = readable s a := by simp [readable, inImage_congr h]

/-- Taking a character: it goes on from a quiet change of the state, or waits. -/
theorem takeChar_elim (routine : InputRoutine) (w : Word) (s : State) (f : Byte → State → State) :
    (∃ c u, Quiet s u ∧ u.run = s.run ∧ u.output = s.output ∧ u.writeOutcomes = s.writeOutcomes ∧
      u.wait = s.wait ∧ (takeChar routine w s).andThen f = f c u) ∨
    (s.kbReady = false ∧ s.channel = [] ∧
      (takeChar routine w s).andThen f = { s with wait := .waitingInput routine w }) := by
  rcases takeChar_cases routine w s with ⟨-, h⟩ | ⟨c, rest, -, -, h⟩ | ⟨h1, h2, h⟩ <;> rw [h]
  · exact .inl ⟨_, { s with kbReady := false }, ⟨rfl, rfl, rfl, rfl, rfl, rfl, rfl, List.prefix_refl _, rfl, rfl,
      rfl, rfl⟩, rfl, rfl, rfl, rfl, rfl⟩
  · exact .inl ⟨_, { s with channel := rest }, ⟨rfl, rfl, rfl, rfl, rfl, rfl, rfl, List.prefix_refl _, rfl, rfl,
      rfl, rfl⟩, rfl, rfl, rfl, rfl, rfl⟩
  · exact .inr ⟨h1, h2, rfl⟩

theorem quiet_outRoutine (w : Word) (s : State) : Quiet s (outRoutine w s) :=
  (quiet_readReg 0 s).trans (quiet_emit (Quiet.refl _))

theorem quiet_haltRoutine (w : Word) (s : State) : Quiet s (haltRoutine w s) :=
  quiet_emitAll (quiet_haltRun _ _)

theorem quiet_putsRoutine (w : Word) (s : State) : Quiet s (putsRoutine w s) := by
  refine (quiet_readReg 0 s).trans (putsFrom_induct w Quiet ?_ ?_ ?_ ?_ 65536 _ _ (by omega))
  · exact fun a s _ => quiet_raiseInstr _ _ _ s
  · exact fun a s _ _ => quiet_readWord a s
  · exact fun a s rest _ _ => (quiet_readWord a s).trans ((quiet_outcomes rest _).trans (quiet_raiseInstr _ _ _ _))
  · exact fun a s t _ h => (quiet_readWord a s).trans ((quiet_withOutput _ _).trans h)

theorem quiet_putspRoutine (w : Word) (s : State) : Quiet s (putspRoutine w s) := by
  refine (quiet_readReg 0 s).trans (putspFrom_induct w Quiet ?_ ?_ ?_ ?_ ?_ ?_ 65536 _ _ (by omega))
  · exact fun a s _ => quiet_raiseInstr _ _ _ s
  · exact fun a s _ => quiet_readWord a s
  · exact fun a s rest _ _ => (quiet_readWord a s).trans ((quiet_outcomes rest _).trans (quiet_raiseInstr _ _ _ _))
  · exact fun a s _ => (quiet_readWord a s).trans (quiet_withOutput _ _)
  · exact fun a s rest _ _ => (quiet_readWord a s).trans ((quiet_withOutput _ _).trans
      ((quiet_outcomes rest _).trans (quiet_raiseInstr _ _ _ _)))
  · exact fun a s t _ h => (quiet_readWord a s).trans ((quiet_withOutput _ _).trans h)

/-- Delivering a character writes R0 and is quiet after that. -/
theorem deliverChar_eq (routine : InputRoutine) (w : Word) (c : Byte) (s : State) :
    Quiet (setReg 0 (zext c) s) (deliverChar routine w c s) := by
  cases routine
  · exact Quiet.refl _
  · exact quiet_emit (Quiet.refl _)

/-- GETC and IN: quiet, or quiet up to the one write of R0. -/
theorem inputRoutines_cases (w : Word) (s t : State) (h : t = getcRoutine w s ∨ t = inRoutine w s) :
    Quiet s t ∨ ∃ (u : State) (c : Byte), Quiet s u ∧ Quiet (setReg 0 (zext c) u) t := by
  have wait_quiet : ∀ (u : State) (r : InputRoutine), Quiet u { u with wait := .waitingInput r w } :=
    fun u r => ⟨rfl, rfl, rfl, rfl, rfl, rfl, rfl, List.prefix_refl _, rfl, rfl, rfl, rfl⟩
  rcases h with rfl | rfl
  · rcases takeChar_elim .getc w s (fun c s' => deliverChar .getc w c s') with ⟨c, u, hq, -, -, -, -, h⟩ | ⟨-, -, h⟩
    · exact .inr ⟨u, c, hq, by unfold getcRoutine; rw [h]; exact deliverChar_eq _ _ _ _⟩
    · exact .inl (by unfold getcRoutine; rw [h]; exact wait_quiet _ _)
  · unfold inRoutine
    rcases emitAll_cases w inputPrompt s with he | ⟨done, left, rest, -, he⟩ <;> rw [he]
    · simp only [Res.andThen_ok]
      rcases takeChar_elim .input w (withOutput inputPrompt s) (fun c s' => deliverChar .input w c s')
        with ⟨c, u, hq, -, -, -, -, h⟩ | ⟨-, -, h⟩ <;> rw [h]
      · exact .inr ⟨u, c, (quiet_withOutput _ _).trans hq, deliverChar_eq _ _ _ _⟩
      · exact .inl ((quiet_withOutput _ _).trans (wait_quiet _ _))
    · exact .inl ⟨rfl, rfl, rfl, rfl, rfl, rfl, rfl, List.prefix_append _ _, rfl, rfl, rfl, rfl⟩

/-- A load: its fault or the fault of its pointer, or DR and the flag written at the end. -/
theorem loadInto_cases (w ea : Word) (dr : Reg) (s : State) :
    (readable s ea = false ∧ loadInto w ea dr s = raiseInstr .memoryReadOutOfRange (.address ea) w s) ∨
    (readable s ea = true ∧ loadInto w ea dr s = setRegFlag dr (readWord ea s).1 (readWord ea s).2) :=
  memRead_elim _

/-- A read keeps the run state, the console and the wait. -/
theorem readWord_run (a : Word) (s : State) : (readWord a s).2.run = s.run := by
  obtain ⟨ready, latch, ch, n, h⟩ := readWord_frame a s
  rw [h]

theorem readReg_run (r : Reg) (s : State) : (readReg r s).2.run = s.run := by
  obtain ⟨n, h⟩ := readReg_frame r s
  rw [h]

/-- A load ends quiet and faulted, or with DR and the flag written and the run as it was. -/
theorem loadInto_ends (w ea : Word) (dr : Reg) {s u : State} (hq : Quiet s u) (hr : u.run = s.run) :
    (Quiet s (loadInto w ea dr u) ∧ ∃ r, (loadInto w ea dr u).run = .faulted r) ∨
    (∃ v x, Quiet s x ∧ x.run = s.run ∧ loadInto w ea dr u = setRegFlag dr v x) := by
  rcases loadInto_cases w ea dr u with ⟨-, h⟩ | ⟨-, h⟩ <;> rw [h]
  · exact .inl ⟨hq.trans (quiet_raiseInstr _ _ _ _), _, rfl⟩
  · exact .inr ⟨_, _, hq.trans (quiet_readWord _ _), (readWord_run _ _).trans hr, rfl⟩

/-- A store ends quiet, or with one word of the loaded range written. -/
theorem memWrite_ends (w a v : Word) {s u : State} (hq : Quiet s u) :
    Quiet s (memWrite w a v u) ∨
    ∃ x, inImage s a = true ∧ a ≠ kbsrAddr ∧ a ≠ kbdrAddr ∧ Quiet s x ∧ memWrite w a v u = setMem a v x := by
  rcases memWrite_cases w a v u with ⟨h1, h2, h3, h⟩ | ⟨-, -, h⟩ | ⟨-, h⟩
  · exact .inr ⟨u, (inImage_congr hq.instructionCount a).symm.trans h1, h2, h3, hq, h⟩
  · exact .inl (h.symm ▸ hq)
  · exact .inl (by rw [h]; exact hq.trans (quiet_raiseInstr _ _ _ _))

/-- What an instruction can do, one case for each kind of write. Every frame and whole-machine rule starts from
this. A flag-writing instruction is quiet only when it faulted. -/
inductive Did (i : Instr) (s t : State) : Prop where
  | quiet (q : Quiet s t) (f : flagDest i = none ∨ ∃ r, t.run = .faulted r)
  | flag (dr : Reg) (v : Word) (u : State) (d : flagDest i = some dr) (q : Quiet s u) (r : u.run = s.run)
      (e : t = setRegFlag dr v u)
  | char (c : Byte) (u : State) (d : (0 : Reg) ∈ writtenRegs i) (f : flagDest i = none) (n : isControl i = false)
      (m : isStore i = false) (q : Quiet s u) (q' : Quiet (setReg 0 (zext c) u) t)
  | jump (a : Word) (n : Nat) (d : isControl i = true) (e : t = setPc a { s with draws := n })
  | link (a : Word) (n : Nat) (d : isControl i = true) (w : (7 : Reg) ∈ writtenRegs i)
      (e : t = setPc a (setReg 7 s.pc { s with draws := n }))
  | store (a v : Word) (u : State) (d : isStore i = true) (h : inImage s a = true) (h1 : a ≠ kbsrAddr)
      (h2 : a ≠ kbdrAddr) (q : Quiet s u) (e : t = setMem a v u)

/-- A load of a known register is a `Did`. -/
theorem did_load {i : Instr} {dr : Reg} {w ea : Word} {s u : State} (d : flagDest i = some dr) (q : Quiet s u)
    (r : u.run = s.run) : Did i s (loadInto w ea dr u) := by
  rcases loadInto_ends w ea dr q r with ⟨h, h'⟩ | ⟨v, x, h1, h2, h3⟩
  · exact .quiet h (.inr h')
  · exact .flag dr v x d h1 h2 h3

/-- A store is a `Did`. -/
theorem did_store {i : Instr} {w a v : Word} {s u : State} (d : isStore i = true) (f : flagDest i = none)
    (q : Quiet s u) : Did i s (memWrite w a v u) := by
  rcases memWrite_ends w a v q with h | ⟨x, h1, h2, h3, h4, h5⟩
  · exact .quiet h (.inl f)
  · exact .store a v x d h1 h2 h3 h4 h5

/-- GETC and IN are a `Did`. -/
theorem did_input {i : Instr} {w : Word} {s t : State} (d : (0 : Reg) ∈ writtenRegs i) (f : flagDest i = none)
    (n : isControl i = false) (m : isStore i = false) (h : t = getcRoutine w s ∨ t = inRoutine w s) : Did i s t := by
  rcases inputRoutines_cases w s t h with q | ⟨u, c, q, q'⟩
  · exact .quiet q (.inl f)
  · exact .char c u d f n m q q'

/-- TRAP is a `Did`. -/
theorem did_trap (v : BitVec 8) (ign : BitVec 4) (w : Word) (s : State) : Did (.trap v ign) s (dispatchTrap v w s) := by
  unfold dispatchTrap
  split_ifs with h1 h2 h3 h4 h5 h6
  · exact did_input (by simp [writtenRegs, h1]) rfl rfl rfl (.inl rfl)
  · exact .quiet (quiet_outRoutine w s) (.inl rfl)
  · exact .quiet (quiet_putsRoutine w s) (.inl rfl)
  · exact did_input (by simp [writtenRegs, h4]) rfl rfl rfl (.inr rfl)
  · exact .quiet (quiet_putspRoutine w s) (.inl rfl)
  · exact .quiet (quiet_haltRoutine w s) (.inl rfl)
  · exact .quiet (quiet_raiseInstr _ _ _ _) (.inl rfl)

/-- The state after an instruction. Every arm of `exec` answers a next state. -/
theorem exec_cases {i : Instr} {s t : State} (h : exec i s = .next t) : Did i s t := by
  have operate2 : ∀ (f : Word → Word → Word) dr a b, flagDest i = some dr → Did i s (operateReg f dr a b s) :=
    fun f dr a b d => .flag dr _ _ d ((quiet_readReg _ _).trans (quiet_readReg _ _))
      ((readReg_run _ _).trans (readReg_run _ _)) rfl
  have operate1 : ∀ (f : Word → Word) dr a, flagDest i = some dr → Did i s (operateOne f dr a s) :=
    fun f dr a d => .flag dr _ _ d (quiet_readReg _ _) (readReg_run _ _) rfl
  have jump : ∀ base, isControl i = true → Did i s (jumpThrough base s) := fun base d => by
    obtain ⟨n, hn⟩ := readReg_frame base s
    exact .jump (readReg base s).1 n d (by simp only [jumpThrough, hn])
  cases i with
  | addReg dr a b _ => cases h; exact operate2 _ dr a b rfl
  | addImm dr a _ => cases h; exact operate1 _ dr a rfl
  | andReg dr a b _ => cases h; exact operate2 _ dr a b rfl
  | andImm dr a _ => cases h; exact operate1 _ dr a rfl
  | not dr a _ => cases h; exact operate1 _ dr a rfl
  | br n z p off =>
    cases h
    obtain ⟨k, hk⟩ := readFlag_frame s
    split
    · exact .jump _ k rfl (by rw [hk])
    · exact .quiet (quiet_readFlag s) (.inl rfl)
  | jsr off => cases h; exact .link _ s.draws rfl (by simp [writtenRegs]) rfl
  | jsrr base _ _ =>
    cases h
    split
    · obtain ⟨n, hn⟩ := readReg_frame base s
      exact .link (readReg base s).1 n rfl (by simp [writtenRegs]) (by simp only [hn])
    · obtain ⟨n, hn⟩ := readReg_frame base (setReg 7 s.pc s)
      exact .link (readReg base (setReg 7 s.pc s)).1 n rfl (by simp [writtenRegs]) (by simp only [hn]; rfl)
  | jmp base _ _ => cases h; exact jump base rfl
  | ret _ _ => cases h; exact jump 7 rfl
  | ld dr off => cases h; exact did_load rfl (Quiet.refl s) rfl
  | ldi dr off =>
    cases h
    rcases memRead_elim (w := encode (.ldi dr off)) (a := pcRelative off s) (s := s)
      (fun p s' => loadInto (encode (.ldi dr off)) p dr s') with ⟨-, h⟩ | ⟨-, h⟩ <;> unfold indirect <;> rw [h]
    · exact .quiet (quiet_raiseInstr _ _ _ _) (.inr ⟨_, rfl⟩)
    · exact did_load rfl (quiet_readWord _ _) (readWord_run _ _)
  | ldr dr base off => cases h; exact did_load rfl (quiet_readReg _ _) (readReg_run _ _)
  | lea dr off => cases h; exact .flag dr _ s rfl (Quiet.refl s) rfl rfl
  | st sr off => cases h; exact did_store rfl rfl (quiet_readReg _ _)
  | sti sr off =>
    cases h
    rcases memRead_elim (w := encode (.sti sr off)) (a := pcRelative off (readReg sr s).2) (s := (readReg sr s).2)
      (fun p s' => memWrite (encode (.sti sr off)) p (readReg sr s).1 s') with ⟨-, h⟩ | ⟨-, h⟩ <;>
      unfold indirect <;> rw [h]
    · exact .quiet ((quiet_readReg _ _).trans (quiet_raiseInstr _ _ _ _)) (.inl rfl)
    · exact did_store rfl rfl ((quiet_readReg _ _).trans (quiet_readWord _ _))
  | str sr base off => cases h; exact did_store rfl rfl ((quiet_readReg _ _).trans (quiet_readReg _ _))
  | trap v ign => cases h; exact did_trap _ _ _ _
  | getc _ => cases h; exact did_input (by simp [writtenRegs]) rfl rfl rfl (.inl rfl)
  | out _ => cases h; exact .quiet (quiet_outRoutine _ s) (.inl rfl)
  | puts _ => cases h; exact .quiet (quiet_putsRoutine _ s) (.inl rfl)
  | input _ => cases h; exact did_input (by simp [writtenRegs]) rfl rfl rfl (.inr rfl)
  | putsp _ => cases h; exact .quiet (quiet_putspRoutine _ s) (.inl rfl)
  | halt _ => cases h; exact .quiet (quiet_haltRoutine _ s) (.inl rfl)
  | rti _ => cases h; exact .quiet (quiet_raiseInstr _ _ _ _) (.inl rfl)
  | reserved _ => cases h; exact .quiet (quiet_raiseInstr _ _ _ _) (.inl rfl)

end Sys2Proof.Machine
end

