-- ==== Sys2Proof/Laws/Ends.lean ====
section
/-! SUPPORT. How an instruction can leave the run state and the wait: it goes on, halts, raises a fault whose record
names it, or waits (60_exceptions.md R171, R172, 10_state.md R39). -/

namespace Sys2Proof.Machine

/-- From `s`, the instruction `w` left the run as it was, or halted, or raised a fault with its own record; and it
left the wait as it was, or waits, with the run as it was and no character latched. Where it changed the run or the
wait it changed neither pc nor memory. -/
structure Ends (w : Word) (s t : State) : Prop where
  run : t.run = s.run ∨ t.run = .halted .trapHalt ∨
    ∃ k i, t.run = .faulted (instrRecord k i w s) ∧ infoFits s k i = true ∧ k ≠ .fetchOutOfRange
  wait : t.wait = s.wait ∨ ∃ r, t.wait = .waitingInput r w ∧ t.run = s.run ∧ t.kbReady = false
  still : (t.run = s.run ∧ t.wait = s.wait) ∨ (t.pc = s.pc ∧ t.mem = s.mem)

/-- The run state, the wait, pc and memory are as they were. -/
structure Goes (s t : State) : Prop where
  run : t.run = s.run
  wait : t.wait = s.wait
  pc : t.pc = s.pc
  mem : t.mem = s.mem
  count : t.instructionCount = s.instructionCount

theorem Goes.refl (s : State) : Goes s s := ⟨rfl, rfl, rfl, rfl, rfl⟩

theorem Goes.trans {s t u : State} (h : Goes s t) (g : Goes t u) : Goes s u :=
  ⟨g.run.trans h.run, g.wait.trans h.wait, g.pc.trans h.pc, g.mem.trans h.mem, g.count.trans h.count⟩

theorem Goes.ends {s t : State} (w : Word) (h : Goes s t) : Ends w s t :=
  ⟨.inl h.run, .inl h.wait, .inl ⟨h.run, h.wait⟩⟩

theorem infoFits_congr {s t : State} (h : t.instructionCount = s.instructionCount) (k : FaultKind) (i : FaultInfo) :
    infoFits t k i = infoFits s k i := by
  unfold infoFits
  split <;> simp [readable_congr h, inImage_congr h]

/-- What happens after going on happens from the start. -/
theorem Ends.after {w : Word} {s t u : State} (g : Goes s t) (e : Ends w t u) : Ends w s u := by
  refine ⟨?_, ?_, ?_⟩
  · rcases e.run with h | h | ⟨k, i, h, hf, hk⟩
    · exact .inl (h.trans g.run)
    · exact .inr (.inl h)
    · refine .inr (.inr ⟨k, i, ?_, (infoFits_congr g.count k i) ▸ hf, hk⟩)
      rw [h]; simp [instrRecord, g.pc]
  · rcases e.wait with h | ⟨r, h, hr, hk⟩
    · exact .inl (h.trans g.wait)
    · exact .inr ⟨r, h, hr.trans g.run, hk⟩
  · exact e.still.imp (fun h => ⟨h.1.trans g.run, h.2.trans g.wait⟩) fun h => ⟨h.1.trans g.pc, h.2.trans g.mem⟩

theorem goes_readReg (r : Reg) (s : State) : Goes s (readReg r s).2 := by
  obtain ⟨n, h⟩ := readReg_frame r s; rw [h]; exact ⟨rfl, rfl, rfl, rfl, rfl⟩

theorem goes_readFlag (s : State) : Goes s (readFlag s).2 := by
  obtain ⟨n, h⟩ := readFlag_frame s; rw [h]; exact ⟨rfl, rfl, rfl, rfl, rfl⟩

theorem goes_readWord (a : Word) (s : State) : Goes s (readWord a s).2 := by
  obtain ⟨ready, latch, ch, n, h⟩ := readWord_frame a s; rw [h]; exact ⟨rfl, rfl, rfl, rfl, rfl⟩

theorem goes_withOutput (bs : List Byte) (s : State) : Goes s (withOutput bs s) := ⟨rfl, rfl, rfl, rfl, rfl⟩

theorem goes_outcomes (rest : List Bool) (s : State) : Goes s { s with writeOutcomes := rest } :=
  ⟨rfl, rfl, rfl, rfl, rfl⟩

theorem ends_raise {k : FaultKind} {i : FaultInfo} (w : Word) (s : State) (h : infoFits s k i = true)
    (hk : k ≠ .fetchOutOfRange) : Ends w s (raiseInstr k i w s) :=
  ⟨.inr (.inr ⟨k, i, rfl, h, hk⟩), .inl rfl, .inr ⟨rfl, rfl⟩⟩

theorem ends_ioError (w : Word) (s : State) : Ends w s (raiseInstr .ioError .nothing w s) :=
  ends_raise w s rfl (by simp)

theorem ends_readOutOfRange {a : Word} (w : Word) {s : State} (h : readable s a = false) :
    Ends w s (raiseInstr .memoryReadOutOfRange (.address a) w s) :=
  ends_raise w s (by simp [infoFits, h]) (by simp)

theorem ends_emit {w : Word} {b : Byte} {s : State} {f : Unit → State → State}
    (h : Ends w (withOutput [b] s) (f () (withOutput [b] s))) : Ends w s ((emit w b s).andThen f) := by
  rcases emit_cases w b s with ⟨-, he⟩ | ⟨rest, -, he⟩ <;> rw [he]
  · exact h.after (goes_withOutput _ _)
  · exact (ends_ioError w _).after (goes_outcomes rest s)

theorem ends_emitAll {w : Word} {bs : List Byte} {s : State} {f : Unit → State → State}
    (h : Ends w (withOutput bs s) (f () (withOutput bs s))) : Ends w s ((emitAll w bs s).andThen f) := by
  rcases emitAll_cases w bs s with he | ⟨done, left, rest, -, he⟩ <;> rw [he]
  · exact h.after (goes_withOutput _ _)
  · have g : Goes s { s with output := s.output ++ done, writeOutcomes := rest } := ⟨rfl, rfl, rfl, rfl, rfl⟩
    exact (ends_ioError w _).after g

theorem ends_memRead {w a : Word} {s : State} {f : Word → State → State}
    (h : Ends w (readWord a s).2 (f (readWord a s).1 (readWord a s).2)) : Ends w s ((memRead w a s).andThen f) := by
  rcases memRead_elim (w := w) (a := a) (s := s) f with ⟨hr, he⟩ | ⟨-, he⟩ <;> rw [he]
  · exact ends_readOutOfRange w hr
  · exact h.after (goes_readWord _ _)

theorem ends_loadInto (w ea : Word) (dr : Reg) (s : State) : Ends w s (loadInto w ea dr s) :=
  ends_memRead ⟨.inl rfl, .inl rfl, .inl ⟨rfl, rfl⟩⟩

theorem ends_memWrite (w a v : Word) (s : State) : Ends w s (memWrite w a v s) := by
  rcases memWrite_cases w a v s with ⟨-, -, -, h⟩ | ⟨-, -, h⟩ | ⟨hc, h⟩ <;> rw [h]
  · exact ⟨.inl rfl, .inl rfl, .inl ⟨rfl, rfl⟩⟩
  · exact (Goes.refl s).ends w
  · refine ends_raise w s ?_ (by simp)
    rcases hc with ⟨rfl | rfl, -⟩ | hc
    · simp [infoFits]
    · simp [infoFits]
    · simp [infoFits, hc]

theorem ends_deliverChar (routine : InputRoutine) (w : Word) (c : Byte) (s : State) :
    Ends w s (deliverChar routine w c s) := by
  cases routine
  · exact ⟨.inl rfl, .inl rfl, .inl ⟨rfl, rfl⟩⟩
  · have h : Ends w (setReg 0 (zext c) s) (deliverChar .input w c s) := ends_emit ((Goes.refl _).ends w)
    have g : Goes s (setReg 0 (zext c) s) := ⟨rfl, rfl, rfl, rfl, rfl⟩
    exact h.after g

theorem ends_takeChar {routine : InputRoutine} {w : Word} {s : State} {f : Byte → State → State}
    (h : ∀ c u, Ends w u (f c u)) : Ends w s ((takeChar routine w s).andThen f) := by
  rcases takeChar_cases routine w s with ⟨-, he⟩ | ⟨c, rest, -, -, he⟩ | ⟨hk, -, he⟩ <;> rw [he]
  · have g : Goes s { s with kbReady := false } := ⟨rfl, rfl, rfl, rfl, rfl⟩
    exact (h _ _).after g
  · have g : Goes s { s with channel := rest } := ⟨rfl, rfl, rfl, rfl, rfl⟩
    exact (h _ _).after g
  · exact ⟨.inl rfl, .inr ⟨routine, rfl, rfl, hk⟩, .inr ⟨rfl, rfl⟩⟩

theorem ends_getcRoutine (w : Word) (s : State) : Ends w s (getcRoutine w s) :=
  ends_takeChar fun c u => ends_deliverChar .getc w c u

theorem ends_inRoutine (w : Word) (s : State) : Ends w s (inRoutine w s) :=
  ends_emitAll (ends_takeChar fun c u => ends_deliverChar .input w c u)

theorem ends_outRoutine (w : Word) (s : State) : Ends w s (outRoutine w s) :=
  (ends_emit ((Goes.refl _).ends w)).after (goes_readReg 0 s)

theorem ends_haltRoutine (w : Word) (s : State) : Ends w s (haltRoutine w s) :=
  ends_emitAll ⟨.inr (.inl rfl), .inl rfl, .inr ⟨rfl, rfl⟩⟩

theorem ends_putsRoutine (w : Word) (s : State) : Ends w s (putsRoutine w s) := by
  refine Ends.after (goes_readReg 0 s) (putsFrom_induct w (Ends w) ?_ ?_ ?_ ?_ 65536 _ _ (by omega))
  · exact fun a s hr => ends_readOutOfRange w hr
  · exact fun a s _ _ => (goes_readWord a s).ends w
  · exact fun a s rest _ _ => (ends_ioError w _).after ((goes_readWord a s).trans (goes_outcomes rest _))
  · exact fun a s t _ h => h.after ((goes_readWord a s).trans (goes_withOutput _ _))

theorem ends_putspRoutine (w : Word) (s : State) : Ends w s (putspRoutine w s) := by
  refine Ends.after (goes_readReg 0 s) (putspFrom_induct w (Ends w) ?_ ?_ ?_ ?_ ?_ ?_ 65536 _ _ (by omega))
  · exact fun a s hr => ends_readOutOfRange w hr
  · exact fun a s _ => (goes_readWord a s).ends w
  · exact fun a s rest _ _ => (ends_ioError w _).after ((goes_readWord a s).trans (goes_outcomes rest _))
  · exact fun a s _ => ((goes_readWord a s).trans (goes_withOutput _ _)).ends w
  · exact fun a s rest _ _ => (ends_ioError w _).after
      ((goes_readWord a s).trans ((goes_withOutput _ _).trans (goes_outcomes rest _)))
  · exact fun a s t _ h => h.after ((goes_readWord a s).trans (goes_withOutput _ _))

theorem ends_dispatchTrap (v : BitVec 8) (w : Word) (s : State) : Ends w s (dispatchTrap v w s) := by
  unfold dispatchTrap
  split_ifs with h1 h2 h3 h4 h5 h6
  · exact ends_getcRoutine w s
  · exact ends_outRoutine w s
  · exact ends_putsRoutine w s
  · exact ends_inRoutine w s
  · exact ends_putspRoutine w s
  · exact ends_haltRoutine w s
  · exact ends_raise w s (by simp [infoFits, trapVectors, h1, h2, h3, h4, h5, h6]) (by simp)

/-- How every instruction leaves the run state and the wait. -/
theorem exec_ends {i : Instr} {s t : State} (h : exec i s = .next t) : Ends (encode i) s t := by
  have plain : ∀ {u : State}, u.run = s.run → u.wait = s.wait → Ends (encode i) s u :=
    fun h g => ⟨.inl h, .inl g, .inl ⟨h, g⟩⟩
  have two : ∀ a b, Goes s (readReg b (readReg a s).2).2 := fun a b => (goes_readReg _ _).trans (goes_readReg _ _)
  cases i with
  | addReg dr a b _ => cases h; exact plain (two a b).run (two a b).wait
  | addImm dr a _ => cases h; exact plain (goes_readReg a s).run (goes_readReg a s).wait
  | andReg dr a b _ => cases h; exact plain (two a b).run (two a b).wait
  | andImm dr a _ => cases h; exact plain (goes_readReg a s).run (goes_readReg a s).wait
  | not dr a _ => cases h; exact plain (goes_readReg a s).run (goes_readReg a s).wait
  | br n z p off =>
    cases h
    split
    · exact plain (goes_readFlag s).run (goes_readFlag s).wait
    · exact (goes_readFlag s).ends _
  | jsr off => cases h; exact plain rfl rfl
  | jsrr base _ _ =>
    cases h
    split
    · exact plain (goes_readReg base s).run (goes_readReg base s).wait
    · exact plain (goes_readReg base (setReg 7 s.pc s)).run (goes_readReg base (setReg 7 s.pc s)).wait
  | jmp base _ _ => cases h; exact plain (goes_readReg base s).run (goes_readReg base s).wait
  | ret _ _ => cases h; exact plain (goes_readReg 7 s).run (goes_readReg 7 s).wait
  | ld dr off => cases h; exact ends_loadInto _ _ _ _
  | ldi dr off => cases h; exact ends_memRead (ends_loadInto _ _ _ _)
  | ldr dr base off => cases h; exact (ends_loadInto _ _ _ _).after (goes_readReg base s)
  | lea dr off => cases h; exact plain rfl rfl
  | st sr off => cases h; exact (ends_memWrite _ _ _ _).after (goes_readReg sr s)
  | sti sr off => cases h; exact Ends.after (goes_readReg sr s) (ends_memRead (ends_memWrite _ _ _ _))
  | str sr base off => cases h; exact (ends_memWrite _ _ _ _).after (two sr base)
  | trap v ign => cases h; exact ends_dispatchTrap _ _ _
  | getc _ => cases h; exact ends_getcRoutine _ _
  | out _ => cases h; exact ends_outRoutine _ _
  | puts _ => cases h; exact ends_putsRoutine _ _
  | input _ => cases h; exact ends_inRoutine _ _
  | putsp _ => cases h; exact ends_putspRoutine _ _
  | halt _ => cases h; exact ends_haltRoutine _ _
  | rti _ => cases h; exact ends_raise _ s rfl (by simp)
  | reserved _ => cases h; exact ends_raise _ s rfl (by simp)

end Sys2Proof.Machine
end

