-- ==== Sys2Proof/Laws/Exec.lean ====
section
/-! SUPPORT. The loads and stores by their address, and the step by the agent that moves: the equations that later
proofs cite instead of unfolding a meaning. -/

namespace Sys2Proof.Machine

/-! ### What reading an operand leaves as it was -/

theorem readReg_pc (r : Reg) (s : State) : (readReg r s).2.pc = s.pc := (quiet_readReg r s).pc

theorem readable_readReg (r : Reg) (s : State) (a : Word) : readable (readReg r s).2 a = readable s a :=
  readable_congr (quiet_readReg r s).instructionCount a

theorem readable_readWord (b : Word) (s : State) (a : Word) : readable (readWord b s).2 a = readable s a :=
  readable_congr (quiet_readWord b s).instructionCount a

/-- A fault raised after operands were read records the pc of the instruction's start. -/
theorem raiseInstr_eq {k : FaultKind} {i : FaultInfo} {w : Word} {s u : State} (h : u.pc = s.pc) :
    raiseInstr k i w u = faultedWith (instrRecord k i w s) u := by
  simp [raiseInstr, faultedWith, instrRecord, raise, h]

/-! ### A register and the flag written together -/

/-- The register holds the value and is marked, and the flag is set and says what the value is (R9, R28). -/
theorem setRegFlag_says (dr : Reg) (v : Word) (s : State) :
    (setRegFlag dr v s).regs[dr] = v ∧ (setRegFlag dr v s).gprWritten[dr] = true ∧ (setRegFlag dr v s).ccSet = true ∧
      flagSays v (setRegFlag dr v s).cc :=
  ⟨by simp [setRegFlag], by simp [setRegFlag], rfl, flagSays_flagOf v⟩

/-! ### Loads and stores by their address -/

theorem loadInto_readable {w ea : Word} {dr : Reg} {s : State} (h : readable s ea = true) :
    loadInto w ea dr s = setRegFlag dr (readWord ea s).1 (readWord ea s).2 := by
  unfold loadInto; rw [memRead_readable h]; rfl

theorem loadInto_unreadable {w ea : Word} {dr : Reg} {s : State} (h : readable s ea = false) :
    loadInto w ea dr s = raiseInstr .memoryReadOutOfRange (.address ea) w s := by
  unfold loadInto; rw [memRead_unreadable h]; rfl

theorem memWrite_inImage {w a v : Word} {s : State} (h : inImage s a = true) (h1 : a ≠ kbsrAddr) (h2 : a ≠ kbdrAddr) :
    memWrite w a v s = setMem a v s := by
  simp [memWrite, h, h1, h2]

theorem memWrite_keyboard {w a v : Word} {s : State} (h : a = kbsrAddr ∨ a = kbdrAddr) :
    memWrite w a v s = match s.params.mmioWritePolicy with
      | .discard => s
      | .fault => raiseInstr .memoryWriteOutOfRange (.address a) w s := by
  unfold memWrite; exact if_pos h

theorem memWrite_unreadable {w a v : Word} {s : State} (h : readable s a = false) :
    memWrite w a v s = raiseInstr .memoryWriteOutOfRange (.address a) w s := by
  simp only [readable, Bool.or_eq_false_iff, beq_eq_false_iff_ne] at h
  simp [memWrite, h]

/-! ### The step by the agent that moves -/

theorem step_core {s : State} (h : nextTurn s = .core) : step s = coreTurn (popTurn s) := by simp [step, h, takeTurn]

theorem step_producer {s : State} (h : nextTurn s = .producer) : step s = .next (producerTurn (popTurn s)) := by
  simp [step, h, takeTurn]

theorem step_start {s : State} (h : nextTurn s = .start) : step s = .next (startTurn (popTurn s)) := by
  simp [step, h, takeTurn]

/-- A running core that does not wait makes an iteration. -/
theorem coreTurn_running {s : State} (h : s.run = .running) (g : s.wait = .none) :
    coreTurn s = closeRun (iteration s) := by
  simp [coreTurn, h, g]

/-- A running core that waits completes its routine once a character is there. -/
theorem coreTurn_waiting {s : State} {routine : InputRoutine} {w : Word} (h : s.run = .running)
    (g : s.wait = .waitingInput routine w) : coreTurn s = .next (dropReceiver (resumeInput routine w s)) := by
  simp [coreTurn, h, g, closeRun]

/-- An iteration away from the end of the program. -/
theorem iteration_fetched {s : State} {w : Word} (h : fetch s.pc s = some w) :
    iteration s = exec (decode w) (setPc (s.pc + 1#16) s) := by
  have hne : s.pc ≠ programEnd s := by
    intro e
    have hi := (fetch_eq_some.1 h).1
    rw [e] at hi
    simp [inImage] at hi
  simp [iteration, hne, h]

end Sys2Proof.Machine
end

