-- ==== Sys2Proof/Laws/PerInstr.lean ====
section
/-! SUPPORT. One lemma per instruction: its word has every fixed field and every operand field of its row of
spec/opcode_table.json where that row puts it, and the fields are the whole word. -/

namespace Sys2Proof.Laws.MatchesTable

/-- A field of a row: its highest and lowest bit, and its value in a word. -/
structure Field where
  hi    : Nat
  lo    : Nat
  value : Nat

/-- The fields of the instruction's row of spec/opcode_table.json, from bit 15 down, with nothing left out. -/
def rowFields : Instr → List Field
  | .addReg dr sr1 sr2 ign => [⟨15, 12, 1⟩, ⟨11, 9, dr⟩, ⟨8, 6, sr1⟩, ⟨5, 5, 0⟩, ⟨4, 3, ign.toNat⟩, ⟨2, 0, sr2⟩]
  | .addImm dr sr1 imm5 => [⟨15, 12, 1⟩, ⟨11, 9, dr⟩, ⟨8, 6, sr1⟩, ⟨5, 5, 1⟩, ⟨4, 0, imm5.toNat⟩]
  | .andReg dr sr1 sr2 ign => [⟨15, 12, 5⟩, ⟨11, 9, dr⟩, ⟨8, 6, sr1⟩, ⟨5, 5, 0⟩, ⟨4, 3, ign.toNat⟩, ⟨2, 0, sr2⟩]
  | .andImm dr sr1 imm5 => [⟨15, 12, 5⟩, ⟨11, 9, dr⟩, ⟨8, 6, sr1⟩, ⟨5, 5, 1⟩, ⟨4, 0, imm5.toNat⟩]
  | .not dr sr ign => [⟨15, 12, 9⟩, ⟨11, 9, dr⟩, ⟨8, 6, sr⟩, ⟨5, 0, ign.toNat⟩]
  | .br n z p off9 => [⟨15, 12, 0⟩, ⟨11, 11, n.toNat⟩, ⟨10, 10, z.toNat⟩, ⟨9, 9, p.toNat⟩, ⟨8, 0, off9.toNat⟩]
  | .jsr off11 => [⟨15, 11, 9⟩, ⟨10, 0, off11.toNat⟩]
  | .jsrr base ignHi ignLo => [⟨15, 11, 8⟩, ⟨10, 9, ignHi.toNat⟩, ⟨8, 6, base⟩, ⟨5, 0, ignLo.toNat⟩]
  | .jmp base ignHi ignLo => [⟨15, 12, 12⟩, ⟨11, 9, ignHi.toNat⟩, ⟨8, 6, base⟩, ⟨5, 0, ignLo.toNat⟩]
  | .ret ignHi ignLo => [⟨15, 12, 12⟩, ⟨11, 9, ignHi.toNat⟩, ⟨8, 6, 7⟩, ⟨5, 0, ignLo.toNat⟩]
  | .ld dr off9 => [⟨15, 12, 2⟩, ⟨11, 9, dr⟩, ⟨8, 0, off9.toNat⟩]
  | .ldi dr off9 => [⟨15, 12, 10⟩, ⟨11, 9, dr⟩, ⟨8, 0, off9.toNat⟩]
  | .ldr dr base off6 => [⟨15, 12, 6⟩, ⟨11, 9, dr⟩, ⟨8, 6, base⟩, ⟨5, 0, off6.toNat⟩]
  | .lea dr off9 => [⟨15, 12, 14⟩, ⟨11, 9, dr⟩, ⟨8, 0, off9.toNat⟩]
  | .st sr off9 => [⟨15, 12, 3⟩, ⟨11, 9, sr⟩, ⟨8, 0, off9.toNat⟩]
  | .sti sr off9 => [⟨15, 12, 11⟩, ⟨11, 9, sr⟩, ⟨8, 0, off9.toNat⟩]
  | .str sr base off6 => [⟨15, 12, 7⟩, ⟨11, 9, sr⟩, ⟨8, 6, base⟩, ⟨5, 0, off6.toNat⟩]
  | .trap vect ign => [⟨15, 12, 15⟩, ⟨11, 8, ign.toNat⟩, ⟨7, 0, vect.toNat⟩]
  | .getc ign => [⟨15, 12, 15⟩, ⟨11, 8, ign.toNat⟩, ⟨7, 0, 32⟩]
  | .out ign => [⟨15, 12, 15⟩, ⟨11, 8, ign.toNat⟩, ⟨7, 0, 33⟩]
  | .puts ign => [⟨15, 12, 15⟩, ⟨11, 8, ign.toNat⟩, ⟨7, 0, 34⟩]
  | .input ign => [⟨15, 12, 15⟩, ⟨11, 8, ign.toNat⟩, ⟨7, 0, 35⟩]
  | .putsp ign => [⟨15, 12, 15⟩, ⟨11, 8, ign.toNat⟩, ⟨7, 0, 36⟩]
  | .halt ign => [⟨15, 12, 15⟩, ⟨11, 8, ign.toNat⟩, ⟨7, 0, 37⟩]
  | .rti ign => [⟨15, 12, 8⟩, ⟨11, 0, ign.toNat⟩]
  | .reserved ign => [⟨15, 12, 13⟩, ⟨11, 0, ign.toNat⟩]

/-- The word of the instruction has every field of its row, and the row covers all sixteen bits. -/
def Statement (i : Instr) : Prop :=
  (∀ f ∈ rowFields i, (encode i).toNat / 2 ^ f.lo % 2 ^ (f.hi - f.lo + 1) = f.value) ∧
    ((rowFields i).map fun f => f.hi - f.lo + 1).sum = 16

theorem addReg (dr : Reg) (sr1 : Reg) (sr2 : Reg) (ign : BitVec 2) : Statement (.addReg dr sr1 sr2 ign) := by
  have h : (encode (.addReg dr sr1 sr2 ign)).toNat = 1 * 4096 + dr * 512 + sr1 * 64 + 0 * 32 + ign.toNat * 8 + sr2 := by
    simp only [encode, toNat_word3336, toNat_append_add, toNat_regBits, BitVec.toNat_ofNat]; omega
  refine ⟨fun f hf => ?_, rfl⟩
  simp only [rowFields, List.mem_cons, List.not_mem_nil, or_false] at hf
  rw [h]
  rcases hf with rfl | rfl | rfl | rfl | rfl | rfl <;> simp only [] <;> omega

theorem addImm (dr : Reg) (sr1 : Reg) (imm5 : BitVec 5) : Statement (.addImm dr sr1 imm5) := by
  have h : (encode (.addImm dr sr1 imm5)).toNat = 1 * 4096 + dr * 512 + sr1 * 64 + 1 * 32 + imm5.toNat := by
    simp only [encode, toNat_word3336, toNat_append_add, toNat_regBits, BitVec.toNat_ofNat]; omega
  refine ⟨fun f hf => ?_, rfl⟩
  simp only [rowFields, List.mem_cons, List.not_mem_nil, or_false] at hf
  rw [h]
  rcases hf with rfl | rfl | rfl | rfl | rfl <;> simp only [] <;> omega

theorem andReg (dr : Reg) (sr1 : Reg) (sr2 : Reg) (ign : BitVec 2) : Statement (.andReg dr sr1 sr2 ign) := by
  have h : (encode (.andReg dr sr1 sr2 ign)).toNat = 5 * 4096 + dr * 512 + sr1 * 64 + 0 * 32 + ign.toNat * 8 + sr2 := by
    simp only [encode, toNat_word3336, toNat_append_add, toNat_regBits, BitVec.toNat_ofNat]; omega
  refine ⟨fun f hf => ?_, rfl⟩
  simp only [rowFields, List.mem_cons, List.not_mem_nil, or_false] at hf
  rw [h]
  rcases hf with rfl | rfl | rfl | rfl | rfl | rfl <;> simp only [] <;> omega

theorem andImm (dr : Reg) (sr1 : Reg) (imm5 : BitVec 5) : Statement (.andImm dr sr1 imm5) := by
  have h : (encode (.andImm dr sr1 imm5)).toNat = 5 * 4096 + dr * 512 + sr1 * 64 + 1 * 32 + imm5.toNat := by
    simp only [encode, toNat_word3336, toNat_append_add, toNat_regBits, BitVec.toNat_ofNat]; omega
  refine ⟨fun f hf => ?_, rfl⟩
  simp only [rowFields, List.mem_cons, List.not_mem_nil, or_false] at hf
  rw [h]
  rcases hf with rfl | rfl | rfl | rfl | rfl <;> simp only [] <;> omega

theorem not (dr : Reg) (sr : Reg) (ign : BitVec 6) : Statement (.not dr sr ign) := by
  have h : (encode (.not dr sr ign)).toNat = 9 * 4096 + dr * 512 + sr * 64 + ign.toNat := by
    simp only [encode, toNat_word3336, toNat_regBits, BitVec.toNat_ofNat]
  refine ⟨fun f hf => ?_, rfl⟩
  simp only [rowFields, List.mem_cons, List.not_mem_nil, or_false] at hf
  rw [h]
  rcases hf with rfl | rfl | rfl | rfl <;> simp only [] <;> omega

theorem br (n : Bool) (z : Bool) (p : Bool) (off9 : BitVec 9) : Statement (.br n z p off9) := by
  have h : (encode (.br n z p off9)).toNat = n.toNat * 2048 + z.toNat * 1024 + p.toNat * 512 + off9.toNat := by
    simp only [encode, toNat_word349, toNat_append_add, oneBit, BitVec.toNat_ofBool]; simp; omega
  have := n.toNat_lt; have := z.toNat_lt; have := p.toNat_lt
  refine ⟨fun f hf => ?_, rfl⟩
  simp only [rowFields, List.mem_cons, List.not_mem_nil, or_false] at hf
  rw [h]
  rcases hf with rfl | rfl | rfl | rfl | rfl <;> simp only [] <;> omega

theorem jsr (off11 : BitVec 11) : Statement (.jsr off11) := by
  have h : (encode (.jsr off11)).toNat = 9 * 2048 + off11.toNat := by
    simp only [encode, toNat_word412, toNat_append_add, BitVec.toNat_ofNat]; omega
  refine ⟨fun f hf => ?_, rfl⟩
  simp only [rowFields, List.mem_cons, List.not_mem_nil, or_false] at hf
  rw [h]
  rcases hf with rfl | rfl <;> simp only [] <;> omega

theorem jsrr (base : Reg) (ignHi : BitVec 2) (ignLo : BitVec 6) : Statement (.jsrr base ignHi ignLo) := by
  have h : (encode (.jsrr base ignHi ignLo)).toNat = 8 * 2048 + ignHi.toNat * 512 + base * 64 + ignLo.toNat := by
    simp only [encode, toNat_word3336, toNat_append_add, toNat_regBits, BitVec.toNat_ofNat]; omega
  refine ⟨fun f hf => ?_, rfl⟩
  simp only [rowFields, List.mem_cons, List.not_mem_nil, or_false] at hf
  rw [h]
  rcases hf with rfl | rfl | rfl | rfl <;> simp only [] <;> omega

theorem jmp (base : Reg) (ignHi : BitVec 3) (ignLo : BitVec 6) : Statement (.jmp base ignHi ignLo) := by
  have h : (encode (.jmp base ignHi ignLo)).toNat = 12 * 4096 + ignHi.toNat * 512 + base * 64 + ignLo.toNat := by
    simp only [encode, toNat_word3336, toNat_regBits, BitVec.toNat_ofNat]
  refine ⟨fun f hf => ?_, rfl⟩
  simp only [rowFields, List.mem_cons, List.not_mem_nil, or_false] at hf
  rw [h]
  rcases hf with rfl | rfl | rfl | rfl <;> simp only [] <;> omega

theorem ret (ignHi : BitVec 3) (ignLo : BitVec 6) : Statement (.ret ignHi ignLo) := by
  have h : (encode (.ret ignHi ignLo)).toNat = 12 * 4096 + ignHi.toNat * 512 + 7 * 64 + ignLo.toNat := by
    simp only [encode, toNat_word3336, BitVec.toNat_ofNat]
  refine ⟨fun f hf => ?_, rfl⟩
  simp only [rowFields, List.mem_cons, List.not_mem_nil, or_false] at hf
  rw [h]
  rcases hf with rfl | rfl | rfl | rfl <;> simp only [] <;> omega

theorem ld (dr : Reg) (off9 : BitVec 9) : Statement (.ld dr off9) := by
  have h : (encode (.ld dr off9)).toNat = 2 * 4096 + dr * 512 + off9.toNat := by
    simp only [encode, toNat_word349, toNat_regBits, BitVec.toNat_ofNat]
  refine ⟨fun f hf => ?_, rfl⟩
  simp only [rowFields, List.mem_cons, List.not_mem_nil, or_false] at hf
  rw [h]
  rcases hf with rfl | rfl | rfl <;> simp only [] <;> omega

theorem ldi (dr : Reg) (off9 : BitVec 9) : Statement (.ldi dr off9) := by
  have h : (encode (.ldi dr off9)).toNat = 10 * 4096 + dr * 512 + off9.toNat := by
    simp only [encode, toNat_word349, toNat_regBits, BitVec.toNat_ofNat]
  refine ⟨fun f hf => ?_, rfl⟩
  simp only [rowFields, List.mem_cons, List.not_mem_nil, or_false] at hf
  rw [h]
  rcases hf with rfl | rfl | rfl <;> simp only [] <;> omega

theorem ldr (dr : Reg) (base : Reg) (off6 : BitVec 6) : Statement (.ldr dr base off6) := by
  have h : (encode (.ldr dr base off6)).toNat = 6 * 4096 + dr * 512 + base * 64 + off6.toNat := by
    simp only [encode, toNat_word3336, toNat_regBits, BitVec.toNat_ofNat]
  refine ⟨fun f hf => ?_, rfl⟩
  simp only [rowFields, List.mem_cons, List.not_mem_nil, or_false] at hf
  rw [h]
  rcases hf with rfl | rfl | rfl | rfl <;> simp only [] <;> omega

theorem lea (dr : Reg) (off9 : BitVec 9) : Statement (.lea dr off9) := by
  have h : (encode (.lea dr off9)).toNat = 14 * 4096 + dr * 512 + off9.toNat := by
    simp only [encode, toNat_word349, toNat_regBits, BitVec.toNat_ofNat]
  refine ⟨fun f hf => ?_, rfl⟩
  simp only [rowFields, List.mem_cons, List.not_mem_nil, or_false] at hf
  rw [h]
  rcases hf with rfl | rfl | rfl <;> simp only [] <;> omega

theorem st (sr : Reg) (off9 : BitVec 9) : Statement (.st sr off9) := by
  have h : (encode (.st sr off9)).toNat = 3 * 4096 + sr * 512 + off9.toNat := by
    simp only [encode, toNat_word349, toNat_regBits, BitVec.toNat_ofNat]
  refine ⟨fun f hf => ?_, rfl⟩
  simp only [rowFields, List.mem_cons, List.not_mem_nil, or_false] at hf
  rw [h]
  rcases hf with rfl | rfl | rfl <;> simp only [] <;> omega

theorem sti (sr : Reg) (off9 : BitVec 9) : Statement (.sti sr off9) := by
  have h : (encode (.sti sr off9)).toNat = 11 * 4096 + sr * 512 + off9.toNat := by
    simp only [encode, toNat_word349, toNat_regBits, BitVec.toNat_ofNat]
  refine ⟨fun f hf => ?_, rfl⟩
  simp only [rowFields, List.mem_cons, List.not_mem_nil, or_false] at hf
  rw [h]
  rcases hf with rfl | rfl | rfl <;> simp only [] <;> omega

theorem str (sr : Reg) (base : Reg) (off6 : BitVec 6) : Statement (.str sr base off6) := by
  have h : (encode (.str sr base off6)).toNat = 7 * 4096 + sr * 512 + base * 64 + off6.toNat := by
    simp only [encode, toNat_word3336, toNat_regBits, BitVec.toNat_ofNat]
  refine ⟨fun f hf => ?_, rfl⟩
  simp only [rowFields, List.mem_cons, List.not_mem_nil, or_false] at hf
  rw [h]
  rcases hf with rfl | rfl | rfl | rfl <;> simp only [] <;> omega

theorem trap (vect : BitVec 8) (ign : BitVec 4) : Statement (.trap vect ign) := by
  have h : (encode (.trap vect ign)).toNat = 15 * 4096 + ign.toNat * 256 + vect.toNat := by
    simp only [encode, toNat_word448, BitVec.toNat_ofNat]
  refine ⟨fun f hf => ?_, rfl⟩
  simp only [rowFields, List.mem_cons, List.not_mem_nil, or_false] at hf
  rw [h]
  rcases hf with rfl | rfl | rfl <;> simp only [] <;> omega

theorem getc (ign : BitVec 4) : Statement (.getc ign) := by
  have h : (encode (.getc ign)).toNat = 15 * 4096 + ign.toNat * 256 + 32 := by
    simp only [encode, toNat_word448, BitVec.toNat_ofNat]
  refine ⟨fun f hf => ?_, rfl⟩
  simp only [rowFields, List.mem_cons, List.not_mem_nil, or_false] at hf
  rw [h]
  rcases hf with rfl | rfl | rfl <;> simp only [] <;> omega

theorem out (ign : BitVec 4) : Statement (.out ign) := by
  have h : (encode (.out ign)).toNat = 15 * 4096 + ign.toNat * 256 + 33 := by
    simp only [encode, toNat_word448, BitVec.toNat_ofNat]
  refine ⟨fun f hf => ?_, rfl⟩
  simp only [rowFields, List.mem_cons, List.not_mem_nil, or_false] at hf
  rw [h]
  rcases hf with rfl | rfl | rfl <;> simp only [] <;> omega

theorem puts (ign : BitVec 4) : Statement (.puts ign) := by
  have h : (encode (.puts ign)).toNat = 15 * 4096 + ign.toNat * 256 + 34 := by
    simp only [encode, toNat_word448, BitVec.toNat_ofNat]
  refine ⟨fun f hf => ?_, rfl⟩
  simp only [rowFields, List.mem_cons, List.not_mem_nil, or_false] at hf
  rw [h]
  rcases hf with rfl | rfl | rfl <;> simp only [] <;> omega

theorem input (ign : BitVec 4) : Statement (.input ign) := by
  have h : (encode (.input ign)).toNat = 15 * 4096 + ign.toNat * 256 + 35 := by
    simp only [encode, toNat_word448, BitVec.toNat_ofNat]
  refine ⟨fun f hf => ?_, rfl⟩
  simp only [rowFields, List.mem_cons, List.not_mem_nil, or_false] at hf
  rw [h]
  rcases hf with rfl | rfl | rfl <;> simp only [] <;> omega

theorem putsp (ign : BitVec 4) : Statement (.putsp ign) := by
  have h : (encode (.putsp ign)).toNat = 15 * 4096 + ign.toNat * 256 + 36 := by
    simp only [encode, toNat_word448, BitVec.toNat_ofNat]
  refine ⟨fun f hf => ?_, rfl⟩
  simp only [rowFields, List.mem_cons, List.not_mem_nil, or_false] at hf
  rw [h]
  rcases hf with rfl | rfl | rfl <;> simp only [] <;> omega

theorem halt (ign : BitVec 4) : Statement (.halt ign) := by
  have h : (encode (.halt ign)).toNat = 15 * 4096 + ign.toNat * 256 + 37 := by
    simp only [encode, toNat_word448, BitVec.toNat_ofNat]
  refine ⟨fun f hf => ?_, rfl⟩
  simp only [rowFields, List.mem_cons, List.not_mem_nil, or_false] at hf
  rw [h]
  rcases hf with rfl | rfl | rfl <;> simp only [] <;> omega

theorem rti (ign : BitVec 12) : Statement (.rti ign) := by
  have h : (encode (.rti ign)).toNat = 8 * 4096 + ign.toNat := by
    simp only [encode, toNat_word412, BitVec.toNat_ofNat]
  refine ⟨fun f hf => ?_, rfl⟩
  simp only [rowFields, List.mem_cons, List.not_mem_nil, or_false] at hf
  rw [h]
  rcases hf with rfl | rfl <;> simp only [] <;> omega

theorem reserved (ign : BitVec 12) : Statement (.reserved ign) := by
  have h : (encode (.reserved ign)).toNat = 13 * 4096 + ign.toNat := by
    simp only [encode, toNat_word412, BitVec.toNat_ofNat]
  refine ⟨fun f hf => ?_, rfl⟩
  simp only [rowFields, List.mem_cons, List.not_mem_nil, or_false] at hf
  rw [h]
  rcases hf with rfl | rfl <;> simp only [] <;> omega

end Sys2Proof.Laws.MatchesTable
end

