-- ==== Sys2Proof/Tests/Slice0.lean ====
section
/-! SUPPORT. The model's own tests. Words and expected results are taken from 95_test_vectors.md (its vector numbers
stand in the comments), or written out by hand from R84's formats; the witnesses at the end meet the hypotheses of the
statements. -/

namespace Sys2Proof.Tests

open Sys2Proof.Machine

/-! ### Well-formedness: both checks refuse an ill-formed term -/

theorem test_wf_jmp_not_r7 : (Instr.jmp 7 0 0).wellFormed = false := by decide
theorem test_wf_trap_not_getc : (Instr.trap 0x20 0).wellFormed = false := by decide
theorem test_wf_trap_not_in : (Instr.trap 0x23 5).wellFormed = false := by decide
theorem test_wf_trap_not_halt : (Instr.trap 0x25 15).wellFormed = false := by decide
theorem test_wf_accepts : (Instr.jmp 6 7 63).wellFormed = true ∧ (Instr.trap 0x1F 0).wellFormed = true ∧
    (Instr.trap 0x26 0).wellFormed = true := by decide

/-! ### Decoding: a word written out field by field for each constructor -/

theorem test_decode_addReg : decode 0b0001_110_101_0_10_011#16 = .addReg 6 5 3 2 := by decide
theorem test_decode_addImm : decode 0b0001_110_101_1_10011#16 = .addImm 6 5 0b10011 := by decide
theorem test_decode_andReg : decode 0b0101_001_010_0_01_100#16 = .andReg 1 2 4 1 := by decide
theorem test_decode_andImm : decode 0b0101_001_010_1_01100#16 = .andImm 1 2 0b01100 := by decide
theorem test_decode_not : decode 0b1001_010_001_111110#16 = .not 2 1 0b111110 := by decide
theorem test_decode_br : decode 0b0000_1_0_1_100000001#16 = .br true false true 0b100000001 := by decide
theorem test_decode_jsr : decode 0b0100_1_10000000011#16 = .jsr 0b10000000011 := by decide
theorem test_decode_jsrr : decode 0b0100_0_10_110_100001#16 = .jsrr 6 0b10 0b100001 := by decide
theorem test_decode_jmp : decode 0b1100_101_011_100001#16 = .jmp 3 0b101 0b100001 := by decide
theorem test_decode_ret : decode 0b1100_101_111_100001#16 = .ret 0b101 0b100001 := by decide
theorem test_decode_ld : decode 0b0010_011_100000110#16 = .ld 3 0b100000110 := by decide
theorem test_decode_ldi : decode 0b1010_011_100000110#16 = .ldi 3 0b100000110 := by decide
theorem test_decode_ldr : decode 0b0110_011_101_100110#16 = .ldr 3 5 0b100110 := by decide
theorem test_decode_lea : decode 0b1110_011_100000110#16 = .lea 3 0b100000110 := by decide
theorem test_decode_st : decode 0b0011_011_100000110#16 = .st 3 0b100000110 := by decide
theorem test_decode_sti : decode 0b1011_011_100000110#16 = .sti 3 0b100000110 := by decide
theorem test_decode_str : decode 0b0111_011_101_100110#16 = .str 3 5 0b100110 := by decide
theorem test_decode_trap : decode 0b1111_1001_00100110#16 = .trap 0x26 0b1001 := by decide
theorem test_decode_getc : decode 0b1111_1001_00100000#16 = .getc 0b1001 := by decide
theorem test_decode_out : decode 0b1111_1001_00100001#16 = .out 0b1001 := by decide
theorem test_decode_puts : decode 0b1111_1001_00100010#16 = .puts 0b1001 := by decide
theorem test_decode_in : decode 0b1111_1001_00100011#16 = .input 0b1001 := by decide
theorem test_decode_putsp : decode 0b1111_1001_00100100#16 = .putsp 0b1001 := by decide
theorem test_decode_halt : decode 0b1111_1001_00100101#16 = .halt 0b1001 := by decide
theorem test_decode_rti : decode 0b1000_100000000001#16 = .rti 0b100000000001 := by decide
theorem test_decode_reserved : decode 0b1101_100000000001#16 = .reserved 0b100000000001 := by decide
theorem test_decodeTableWord : decodeTableWord 16 0xF025 = some (.halt 0) ∧ decodeTableWord 32 0xF025 = none := by
  decide

/-! ### One step on a small state -/

/-- A running core with `w` at `a`, program_end `pe`, the listed words in memory and the listed registers
written. -/
def machine (pe a w : Word) (cells : Memory) (regs : List (Reg × Word)) : State :=
  regs.foldl (fun s r => setReg r.1 r.2 s)
    { State.reset with
      pc := a, run := .running, instructionCount := pe.toNat - 0x3000,
      mem := cells.foldl (fun m c => m.write c.1 c.2) (Memory.write [] a.toNat w) }

/-- The step answers a next state of which `p` holds. -/
def steps (s : State) (p : State → Bool) : Bool :=
  match step s with
  | .next t => p t
  | .fault _ => false
  | .refused _ => false

-- S1
theorem test_add_reg : steps (machine 0x3100 0x3000 0x1642 [] [(1, 0x0016), (2, 0x0080)])
    (fun t => t.regs[(3 : Reg)] == 0x0096#16 && t.cc == .pos && t.pc == 0x3001#16) = true := by decide
-- O4
theorem test_add_wraps : steps (machine 0x3100 0x3000 0x1642 [] [(1, 0x8000), (2, 0x8000)])
    (fun t => t.regs[(3 : Reg)] == 0#16 && t.cc == .zero) = true := by decide
-- S3
theorem test_add_imm_overflow : steps (machine 0x3100 0x3000 0x1021 [] [(0, 0x7FFF)])
    (fun t => t.regs[(0 : Reg)] == 0x8000#16 && t.cc == .neg) = true := by decide
-- O1
theorem test_add_imm_negative : steps (machine 0x3100 0x3000 0x1470 [] [(1, 5)])
    (fun t => t.regs[(2 : Reg)] == 0xFFF5#16 && t.cc == .neg && t.regs[(1 : Reg)] == 5#16) = true := by decide
-- S4
theorem test_and_reg : steps (machine 0x3100 0x3000 0x5642 [] [(1, 0xD975), (2, 0x4A29)])
    (fun t => t.regs[(3 : Reg)] == 0x4821#16 && t.cc == .pos) = true := by decide
-- O7: R0 never written
theorem test_and_zero : steps (machine 0x3100 0x3000 0x5020 [] [])
    (fun t => t.regs[(0 : Reg)] == 0#16 && t.cc == .zero && t.gprWritten[(0 : Reg)]) = true := by decide
-- O8
theorem test_and_imm_signed : steps (machine 0x3100 0x3000 0x547F [] [(1, 0x8123)])
    (fun t => t.regs[(2 : Reg)] == 0x8123#16 && t.cc == .neg) = true := by decide
-- O12
theorem test_not : steps (machine 0x3100 0x3000 0x947F [] [(1, 0x5555)])
    (fun t => t.regs[(2 : Reg)] == 0xAAAA#16 && t.cc == .neg && t.regs[(1 : Reg)] == 0x5555#16) = true := by decide
-- B1
theorem test_brz_taken : steps (setcc 0 (machine 0x3100 0x3000 0x0405 [] []))
    (fun t => t.pc == 0x3006#16) = true := by decide
-- B2
theorem test_brz_not_taken : steps (setcc 1 (machine 0x3100 0x3000 0x0405 [] []))
    (fun t => t.pc == 0x3001#16) = true := by decide
-- B9
theorem test_jsr_back : steps (machine 0x3100 0x3000 0x4C00 [] [])
    (fun t => t.pc == 0x2C01#16 && t.regs[(7 : Reg)] == 0x3001#16) = true := by decide
-- B10
theorem test_jsrr_r7 : steps (machine 0x3100 0x3000 0x41C0 [] [(7, 0x4000)])
    (fun t => t.pc == 0x3001#16 && t.regs[(7 : Reg)] == 0x3001#16) = true := by decide
-- B11
theorem test_jsrr_r7_base_first :
    steps { machine 0x3100 0x3000 0x41C0 [] [(7, 0x4000)] with params := { jsrrBaseReadFirst := true } }
      (fun t => t.pc == 0x4000#16 && t.regs[(7 : Reg)] == 0x3001#16) = true := by decide
-- B13
theorem test_jmp : steps (machine 0x3100 0x3000 0xC0C0 [] [(3, 0x3020)])
    (fun t => t.pc == 0x3020#16 && !t.gprWritten[(7 : Reg)]) = true := by decide
-- B14
theorem test_ret : steps (machine 0x3100 0x3000 0xC1C0 [] [(7, 0x3005)]) (fun t => t.pc == 0x3005#16) = true := by decide
-- M1
theorem test_ld : steps (machine 0x3100 0x3005 0x23FE [(0x3004, 0x8001)] [])
    (fun t => t.regs[(1 : Reg)] == 0x8001#16 && t.cc == .neg) = true := by decide
-- M2
theorem test_ld_out_of_range : steps (machine 0x3001 0x3000 0x2005 [] [])
    (fun t => t.run == .faulted ⟨.memoryReadOutOfRange, 0x3000, some 0x2005, .address 0x3006⟩ &&
      t.pc == 0x3001#16 && !t.gprWritten[(0 : Reg)] && !t.ccSet) = true := by decide
-- M3
theorem test_ldi_kbsr : steps { machine 0x3100 0x3000 0xA204 [(0x3005, 0xFE00)] [] with channel := [0x78] }
    (fun t => t.regs[(1 : Reg)] == 0x8000#16 && t.cc == .neg && t.kbReady && t.kbLatch == 0x78#8 &&
      t.channel == []) = true := by decide
-- M6
theorem test_ldi_second_read_faults : steps (machine 0x3100 0x3000 0xA202 [(0x3003, 0x0100)] [])
    (fun t => t.run == .faulted ⟨.memoryReadOutOfRange, 0x3000, some 0xA202, .address 0x0100⟩ &&
      !t.gprWritten[(1 : Reg)]) = true := by decide
-- S7
theorem test_ldr : steps (machine 0x3100 0x3000 0x6960 [(0x3005, 0x1234)] [(5, 0x3025)])
    (fun t => t.regs[(4 : Reg)] == 0x1234#16 && t.cc == .pos) = true := by decide
-- M8
theorem test_ldr_base_is_dr : steps (machine 0x3100 0x3000 0x6240 [] [(1, 0x3003)])
    (fun t => t.regs[(1 : Reg)] == 0#16 && t.cc == .zero) = true := by decide
-- S6
theorem test_lea : steps (machine 0x3100 0x3044 0xE455 [] [])
    (fun t => t.regs[(2 : Reg)] == 0x309A#16 && t.cc == .pos) = true := by decide
-- M11
theorem test_lea_outside : steps (machine 0x3100 0x3000 0xE100 [] [])
    (fun t => t.regs[(0 : Reg)] == 0x2F01#16 && t.cc == .pos && t.run == .running) = true := by decide
-- M13
theorem test_st : steps (machine 0x3004 0x3000 0x3602 [] [(3, 0x1234)])
    (fun t => t.mem.read 0x3003 == 0x1234#16 && !t.ccSet) = true := by decide
-- M15
theorem test_st_beyond_the_program : steps (machine 0x3002 0x3000 0x3002 [] [(0, 7)])
    (fun t => t.run == .faulted ⟨.memoryWriteOutOfRange, 0x3000, some 0x3002, .address 0x3003⟩ &&
      t.mem.read 0x3003 == 0#16) = true := by decide
-- M16
theorem test_sti : steps (machine 0x3100 0x300F 0xB000 [(0x3010, 0x3020)] [(0, 0x41)])
    (fun t => t.mem.read 0x3020 == 0x41#16) = true := by decide
-- M17, the fault policy
theorem test_sti_kbsr_fault :
    steps { machine 0x3100 0x300F 0xB000 [(0x3010, 0xFE00)] [(0, 0x41)] with params := { mmioWritePolicy := .fault } }
      (fun t => t.run == .faulted ⟨.memoryWriteOutOfRange, 0x300F, some 0xB000, .address 0xFE00⟩) = true := by decide
-- M19
theorem test_str : steps (machine 0x3100 0x3000 0x7241 [] [(1, 0x3004)])
    (fun t => t.mem.read 0x3005 == 0x3004#16) = true := by decide
-- T13
theorem test_trap_unknown : steps (machine 0x3100 0x3000 0xF026 [] [])
    (fun t => t.run == .faulted ⟨.unknownTrapRoutine, 0x3000, some 0xF026, .vector 0x26⟩ && t.output == []) = true := by
  decide
-- T8
theorem test_getc_latched_first :
    steps { machine 0x3100 0x3000 0xF020 [] [] with kbReady := true, kbLatch := 0x61, channel := [0x62] }
      (fun t => t.regs[(0 : Reg)] == 0x61#16 && !t.kbReady && t.channel == [0x62#8]) = true := by decide
-- T9
theorem test_getc_waits : steps (machine 0x3100 0x3000 0xF020 [] [])
    (fun t => t.wait == .waitingInput .getc 0xF020 && t.run == .running) = true := by decide
-- T1
theorem test_out : steps (machine 0x3100 0x3000 0xF021 [] [(0, 0x1241)]) (fun t => t.output == [0x41#8]) = true := by
  decide
-- T4
theorem test_puts_zero_low_byte : steps (machine 0x3100 0x3000 0xF022 [(0x3010, 0x4100)] [(0, 0x3010)])
    (fun t => t.output == [0#8] && t.run == .running) = true := by decide
-- T6
theorem test_puts_runs_out : steps (machine 0x3012 0x3000 0xF022 [(0x3010, 0x41), (0x3011, 0x42)] [(0, 0x3010)])
    (fun t => t.output == [0x41#8, 0x42#8] &&
      t.run == .faulted ⟨.memoryReadOutOfRange, 0x3000, some 0xF022, .address 0x3012⟩) = true := by decide
-- T10
theorem test_in : steps { machine 0x3100 0x3000 0xF023 [] [] with channel := [0x71] }
    (fun t => t.output == [0x49#8, 0x6E#8, 0x70#8, 0x75#8, 0x74#8, 0x3A#8, 0x20#8, 0x71#8] &&
      t.regs[(0 : Reg)] == 0x71#16) = true := by decide
-- T2
theorem test_putsp : steps (machine 0x3100 0x3000 0xF024 [(0x3010, 0x6948), (0x3011, 0x21)] [(0, 0x3010)])
    (fun t => t.output == [0x48#8, 0x69#8, 0x21#8]) = true := by decide
-- T3
theorem test_putsp_low_byte_ends : steps (machine 0x3100 0x3000 0xF024 [(0x3010, 0x4100)] [(0, 0x3010)])
    (fun t => t.output == []) = true := by decide
-- T12
theorem test_halt : steps (machine 0x3100 0x3000 0xFF25 [] [])
    (fun t => t.run == .halted .trapHalt && t.output.length == 16) = true := by decide
-- T15
theorem test_halt_write_fails : steps { machine 0x3100 0x3000 0xF025 [] [] with writeOutcomes := [false] }
    (fun t => t.run == .faulted ⟨.ioError, 0x3000, some 0xF025, .nothing⟩ && t.output == []) = true := by decide
-- X2
theorem test_rti : steps (machine 0x3100 0x3000 0x8FFF [] [])
    (fun t => t.run == .faulted ⟨.rtiUnimplemented, 0x3000, some 0x8FFF, .nothing⟩ && t.pc == 0x3001#16) = true := by
  decide
-- X4
theorem test_reserved : steps (machine 0x3100 0x3000 0xDABC [] [])
    (fun t => t.run == .faulted ⟨.reservedInstructionFound, 0x3000, some 0xDABC, .nothing⟩) = true := by decide
-- K8
theorem test_end_of_program : steps (machine 0x3005 0x3005 0 [] [])
    (fun t => t.run == .halted .endOfProgram && t.output == []) = true := by decide
-- K9
theorem test_fetch_out_of_range : steps (machine 0x3005 0x2FFF 0 [] [])
    (fun t => t.run == .faulted ⟨.fetchOutOfRange, 0x2FFF, none, .nothing⟩ && t.pc == 0x2FFF#16) = true := by decide
-- K5: a KBDR read with nothing latched takes no character from the channel
theorem test_kbdr_not_ready : (kbdrRead { State.reset with channel := [0x79] }).2.channel = [0x79] ∧
    (kbdrRead { State.reset with channel := [0x79] }).2.kbReady = false := by decide
-- L3, L6
theorem test_load_errors : load State.reset (.bytes [0x30, 0x00, 0xF0]) = .error (.oddByteCount 3) ∧
    load State.reset (.bytes [0x00, 0x30, 0xF0, 0x25]) = .error (.wrongOrigin 0x0030) := ⟨rfl, rfl⟩
-- L7
theorem test_load : load State.reset (.bytes [0x30, 0x00, 0xF0, 0x25]) =
    .ok { State.reset with mem := [(0x3000, 0xF025#16)], instructionCount := 1 } := rfl

-- R170's table
theorem test_fault_codes : faultCode .reservedInstructionFound = 1 ∧ faultCode .memoryWriteOutOfRange = 7 := by decide

/-- A word placed after reset runs as the first instruction. -/
theorem test_withFetchWord : steps (State.reset.withFetchWord 16 0x5020)
    (fun t => t.regs[(0 : Reg)] == 0#16 && t.pc == 0x3001#16 && t.cc == .zero) = true := by decide

/-! ### Witnesses: a concrete state and operands for the hypotheses of each statement that has any -/

/-- A running core at 0x3000 with `ADD R0, R0, #0` there and 16 words loaded. -/
def idle : State := machine 0x3010 0x3000 0x1020 [] [(0, 5)]

/-- A core waiting in GETC, with the word 0xF020 before pc, and the program's end at pc. -/
def waiting : State := { machine 0x3001 0x3000 0xF020 [] [] with pc := 0x3001, wait := .waitingInput .getc 0xF020 }

theorem witness_DecodeOfEncodeIsTheInstruction : (Instr.jmp 6 7 63).wellFormed = true ∧
    (Instr.trap 0xFF 15).wellFormed = true ∧ (Instr.addReg 7 7 7 3).wellFormed = true := by decide

theorem witness_RegisterReadsAndWrites : idle.gprWritten[(0 : Reg)] = true ∧ idle.gprWritten[(7 : Reg)] = false ∧
    (7 : Reg) ≠ 0 := by decide

theorem witness_SetccSetsTheFlag : (0x8000#16 ≠ 0x0000#16 ∧ (0x8000#16).getLsbD 15 = true) ∧
    (0x7FFF#16 ≠ 0x0000#16 ∧ (0x7FFF#16).getLsbD 15 = false) := by decide

theorem witness_FlagWrittenByExactlySeven : (∃ t, exec (.lea 7 0x100) idle = .next t) ∧
    flagDest (.lea 7 0x100) = some 7 ∧ idle.run = .running ∧
    (∃ t, exec (.jsr 0x400) idle = .next t) ∧ flagDest (.jsr 0x400) = none :=
  ⟨⟨_, rfl⟩, by decide, by decide, ⟨_, rfl⟩, by decide⟩

theorem witness_RegistersWrittenOnlyByTheirInstructions : (∃ t, exec (.jsrr 7 0 0) idle = .next t) ∧
    idle.gprWritten[(0 : Reg)] = true := ⟨⟨_, rfl⟩, by decide⟩

theorem witness_OperateInstructionsFrame :
    (∃ sr1 sr2 ign, Instr.addReg 7 0 7 3 = .addReg 7 sr1 sr2 ign) ∧ (∃ off9, Instr.lea 0 0x1FF = .lea 0 off9) :=
  ⟨⟨0, 7, 3, rfl⟩, ⟨0x1FF, rfl⟩⟩

/-- The flag is set and matches (taken), is set and does not match (not taken), or was never set. -/
theorem witness_BranchIsTakenByItsCondition : idle.ccSet = false ∧ (setcc 0x8000 idle).ccSet = true ∧
    (readFlag (setcc 0x8000 idle)).1 = .neg ∧
    ¬((false = false ∧ true = false ∧ true = false) ∨ (false = true ∧ (readFlag (setcc 0x8000 idle)).1 = .neg) ∨
      (true = true ∧ (readFlag (setcc 0x8000 idle)).1 = .zero) ∨
      (true = true ∧ (readFlag (setcc 0x8000 idle)).1 = .pos)) := by decide

theorem witness_RegisterJumpsReadTheirBase : (0 : Reg) ≠ 7 ∧ idle.params.jsrrBaseReadFirst = false ∧
    ({ idle with params := { jsrrBaseReadFirst := true } } : State).params.jsrrBaseReadFirst = true := by decide

theorem witness_ControlInstructionsFrame : isControl (.br false false false 0) = true ∧
    isControl (.jsr 0) = true ∧ isControl (.jsrr 7 0 0) = true ∧ isControl (.jmp 7 0 0) = true ∧
    isControl (.ret 0 0) = true := by decide

theorem witness_OnlyControlTransfersWritePc : (∃ t, exec (.st 0 1) idle = .next t) ∧ isControl (.st 0 1) = false :=
  ⟨⟨_, rfl⟩, rfl⟩

/-- The first and the last loaded address, and the addresses beside the range and beside KBSR. -/
theorem witness_MemReadChecksTheRange : (programEnd idle).toNat = 0x3010 ∧
    (0x3000 ≤ (0x3000#16).toNat ∧ (0x3000#16).toNat < (programEnd idle).toNat) ∧
    (0x3000 ≤ (0x300F#16).toNat ∧ (0x300F#16).toNat < (programEnd idle).toNat) ∧
    ¬(0x3000 ≤ (0x2FFF#16).toNat ∧ (0x2FFF#16).toNat < (programEnd idle).toNat) ∧
    ¬(0x3000 ≤ (0x3010#16).toNat ∧ (0x3010#16).toNat < (programEnd idle).toNat) ∧
    ¬(0x3000 ≤ (0xFE01#16).toNat ∧ (0xFE01#16).toNat < (programEnd idle).toNat) := by decide

theorem witness_KeyboardRegisterReads : ({ idle with kbReady := true } : State).kbReady = true ∧
    (idle.kbReady = false ∧ ({ idle with channel := [0x78] } : State).channel = 0x78 :: []) ∧
    (idle.kbReady = false ∧ idle.channel = []) := by decide

/-- Addresses that can be read, for LD and LDR at the ends of the range and at the keyboard; and both reads of LDI. -/
theorem witness_LoadsReadTheirAddress : readable idle (idle.pc + sext 0#9) = true ∧
    readable idle (idle.pc + sext 0xF#9) = true ∧
    readable (setReg 1 0xFE1F idle) ((readReg 1 (setReg 1 0xFE1F idle)).1 + sext 0x21#6) = true ∧
    readable (setMem 0x3001 0xFE02 idle) (readWord (idle.pc + sext 1#9) (setMem 0x3001 0xFE02 idle)).1 = true := by
  decide

theorem witness_LoadInstructionsFrame : idle.pc + sext 1#9 ≠ kbsrAddr ∧ idle.pc + sext 1#9 ≠ kbdrAddr ∧
    idle.mem.read (idle.pc + sext 1#9).toNat ≠ kbsrAddr ∧ idle.mem.read (idle.pc + sext 1#9).toNat ≠ kbdrAddr ∧
    (∃ t, exec (.ld 1 1) idle = .next t) ∧ (∃ t, exec (.ldi 1 1) idle = .next t) ∧
    (readReg 0 idle).1 + sext 0#6 ≠ kbsrAddr ∧ (readReg 0 idle).1 + sext 0#6 ≠ kbdrAddr ∧
    (∃ t, exec (.ldr 1 0 0) idle = .next t) :=
  ⟨by decide, by decide, by decide, by decide, ⟨_, rfl⟩, ⟨_, rfl⟩, by decide, by decide, ⟨_, rfl⟩⟩

/-- Addresses beside the range; and an LDI whose pointer is read and whose second read is out of range. -/
theorem witness_LoadsOutOfRangeFault : readable idle (idle.pc + sext 0x1FF#9) = false ∧
    readable idle (idle.pc + sext 0x10#9) = false ∧ readable idle ((readReg 0 idle).1 + sext 0#6) = false ∧
    (readable idle (idle.pc + sext 1#9) = true ∧ readable idle (readWord (idle.pc + sext 1#9) idle).1 = false) := by
  decide

/-- In the range for each store; and an STI whose pointer is read at KBSR, with low bits that are in the range. -/
theorem witness_StoresWriteTheirWord : idle.mem.wf ∧
    (inImage idle (idle.pc + sext 0xF#9) = true ∧ idle.pc + sext 0xF#9 ≠ kbsrAddr ∧ idle.pc + sext 0xF#9 ≠ kbdrAddr) ∧
    (let s := setReg 1 0x3000 idle
     let a := (readReg 1 (readReg 0 s).2).1 + sext 0#6
     s.mem.wf ∧ inImage s a = true ∧ a ≠ kbsrAddr ∧ a ≠ kbdrAddr) ∧
    (let s := setMem 0x3001 0x300F idle
     let a := (readWord (s.pc + sext 1#9) (readReg 0 s).2).1
     readable s (s.pc + sext 1#9) = true ∧ s.mem.wf ∧ inImage s a = true ∧ a ≠ kbsrAddr ∧ a ≠ kbdrAddr ∧
      s.pc + sext 1#9 ≠ kbsrAddr ∧ s.pc + sext 1#9 ≠ kbdrAddr) ∧
    (let s : State := { idle with pc := 0xFE00, params := { kbsrNotReadyLow := 0x3000 } }
     let a := (readWord (s.pc + sext 0#9) (readReg 0 s).2).1
     readable s (s.pc + sext 0#9) = true ∧ s.mem.wf ∧ inImage s a = true ∧ a ≠ kbsrAddr ∧ a ≠ kbdrAddr) := by decide

theorem witness_StoresToTheKeyboardFollowThePolicy :
    (({ idle with pc := 0xFE00 } : State).pc + sext 2#9 = 0xFE02#16) ∧
    (readReg 1 (readReg 0 (setReg 1 0xFE00 idle)).2).1 + sext 0#6 = 0xFE00#16 ∧
    (let s := setMem 0x3001 0xFE02 idle
     readable s (s.pc + sext 1#9) = true ∧ (readWord (s.pc + sext 1#9) (readReg 0 s).2).1 = 0xFE02#16) := by decide

theorem witness_StoresOutOfRangeFault : readable idle (idle.pc + sext 0x1FF#9) = false ∧
    readable idle (idle.pc + sext 0x10#9) = false ∧
    readable idle ((readReg 0 (readReg 0 idle).2).1 + sext 0#6) = false ∧
    (readable idle (idle.pc + sext 1#9) = true ∧
      readable idle (readWord (idle.pc + sext 1#9) (readReg 0 idle).2).1 = false) := by decide

theorem witness_StoreIsSeenByTheNextFetch : idle.mem.wf ∧ inImage idle (idle.pc + sext 1#9) = true ∧
    idle.pc + sext 1#9 ≠ kbsrAddr ∧ idle.pc + sext 1#9 ≠ kbdrAddr ∧ (0x3002#16 : Word) ≠ idle.pc + sext 1#9 := by decide

theorem witness_OnlyStoresChangeMemory : (∃ t, exec (.ld 0 1) idle = .next t) ∧ isStore (.ld 0 1) = false :=
  ⟨⟨_, rfl⟩, rfl⟩

/-- The vectors beside the table, on both sides, and the ends of the range. -/
theorem witness_UnknownTrapVectorFaults : (0x1F#8).toNat < 0x20 ∧ (0x00#8).toNat < 0x20 ∧ 0x25 < (0x26#8).toNat ∧
    0x25 < (0xFF#8).toNat := by decide

theorem witness_GetcTakesACharacter : ({ idle with kbReady := true } : State).kbReady = true ∧
    (({ idle with channel := [0x78] } : State).kbReady = false ∧
      ({ idle with channel := [0x78] } : State).channel = 0x78 :: []) := by decide

theorem witness_InPromptsTakesAndEchoes : writesSucceed 8 { idle with kbReady := true } = true ∧
    writesSucceed 8 { idle with channel := [0x71], writeOutcomes := List.replicate 8 true ++ [false] } = true ∧
    idle.kbReady = false := by decide

theorem witness_InputWaitsAndResumes : (idle.kbReady = false ∧ idle.channel = [] ∧ writesSucceed 7 idle = true) ∧
    (nextTurn waiting = .core ∧ waiting.run = .running ∧ waiting.wait = .waitingInput .getc 0xF020 ∧
      waiting.channel = []) ∧
    (let s : State := { waiting with channel := [0x71], wait := .waitingInput .input 0xF023 }
     nextTurn s = .core ∧ s.run = .running ∧ s.wait = .waitingInput .input 0xF023 ∧ s.channel = 0x71 :: [] ∧
      writesSucceed 1 s = true) := by decide

theorem witness_OutEmitsTheLowByte : writesSucceed 1 idle = true ∧
    writesSucceed 1 { idle with writeOutcomes := [false] } = false := by decide

/-- "Hi", 0x6948, 0x4100 and 0x4142 at the end of the loaded range, with R0 at `r0`. -/
def strings (r0 : Word) : State :=
  { State.reset with
    run := .running, instructionCount := 16,
    regs := State.reset.regs.set 0 r0, gprWritten := State.reset.gprWritten.set 0 true,
    mem := [(0x300A, 0x48#16), (0x300B, 0x69#16), (0x300D, 0x6948#16), (0x300E, 0x4100#16), (0x300F, 0x4142#16)] }

theorem strings_r0 (r0 : Word) : readReg 0 (strings r0) = (r0, strings r0) := rfl

/-- The whole program section loaded, zeros but for "A" at its last address, with R0 there: the string goes on at
KBSR, and the channel holds `ch`. -/
def lastWord (ch : List Byte) : State :=
  { strings 0xFDFF with instructionCount := 0xCE00, mem := [(0xFDFF, 0x41#16)], channel := ch }

theorem lastWord_r0 (ch : List Byte) : readReg 0 (lastWord ch) = (0xFDFF, lastWord ch) := rfl

/-- With R0 at KBDR: a latched character is the string's first word, and the next address cannot be read. -/
def atKbdr : State := { strings 0xFE02 with kbReady := true, kbLatch := 0x78 }

/-- A string in the loaded range, an empty one, and one that goes on at KBSR and ends there, with nothing ready. -/
theorem witness_PutsPrintsItsString :
    (readsWords (readReg 0 (lastWord [])).2 (readReg 0 (lastWord [])).1 ([0x41#16] ++ [0#16]) = true ∧
      (∀ w ∈ [0x41#16], w ≠ 0#16) ∧ writesSucceed 1 (lastWord []) = true) ∧
    holdsWords (strings 0x300A) (readReg 0 (strings 0x300A)).1 ([0x48#16, 0x69#16] ++ [0#16]) = true ∧
    (∀ w ∈ [0x48#16, 0x69#16], w ≠ 0#16) ∧ writesSucceed 2 (strings 0x300A) = true ∧
    holdsWords (strings 0x300C) (readReg 0 (strings 0x300C)).1 ([] ++ [0#16]) = true := by
  rw [strings_r0, strings_r0, lastWord_r0]
  exact ⟨⟨by decide, by simp, by decide⟩, by decide, by simp, by decide, by decide⟩

/-- The last word ends the string by its low byte, or by its high byte; or it is KBSR's, ready, with low byte 0. The
writes that a string ended by a low byte makes are accepted, and the next one, which it does not make, would fail. -/
theorem witness_PutspPrintsItsString :
    (readsWords (readReg 0 { strings 0xFE00 with channel := [0x78] }).2
        (readReg 0 { strings 0xFE00 with channel := [0x78] }).1 ([] ++ [0x8000#16]) = true ∧
      lowByte 0x8000#16 = 0#8 ∧ writesSucceed (2 * 0 + if lowByte 0x8000#16 = 0#8 then 0 else 1)
        { strings 0xFE00 with channel := [0x78], writeOutcomes := [false] } = true) ∧
    (holdsWords (strings 0x300D) (readReg 0 (strings 0x300D)).1 ([0x6948#16] ++ [0x4100#16]) = true ∧
      (∀ w ∈ [0x6948#16], lowByte w ≠ 0#8 ∧ highByte w ≠ 0#8) ∧ lowByte 0x4100#16 = 0#8 ∧
      writesSucceed (2 * 1 + if lowByte 0x4100#16 = 0#8 then 0 else 1)
        { strings 0x300D with writeOutcomes := [true, true, false] } = true) ∧
    (holdsWords (strings 0x300A) (readReg 0 (strings 0x300A)).1 ([] ++ [0x48#16]) = true ∧ highByte 0x48#16 = 0#8 ∧
      writesSucceed (2 * 0 + if lowByte 0x48#16 = 0#8 then 0 else 1) (strings 0x300A) = true) := by
  rw [strings_r0, strings_r0]
  exact ⟨⟨by decide, by decide, by decide⟩, ⟨by decide, by simp [lowByte, highByte], by decide, by decide⟩,
    by decide, by decide, by decide⟩

/-- A string up to the last loaded word, one that starts outside the range, one that goes on at KBSR, where a
character is ready, and runs out at 0xFE01; and one of the latched character that KBDR reads. -/
theorem witness_StringsRunningOutFault :
    (readsWords (readReg 0 (lastWord [0x78])).2 (readReg 0 (lastWord [0x78])).1 [0x41#16, 0x8000#16] = true ∧
      0xFE01#16 = (readReg 0 (lastWord [0x78])).1 + BitVec.ofNat 16 2 ∧ readable (lastWord [0x78]) 0xFE01 = false ∧
      (∀ w ∈ [0x41#16, 0x8000#16], w ≠ 0#16) ∧ writesSucceed 2 (lastWord [0x78]) = true) ∧
    (readsWords (readReg 0 atKbdr).2 (readReg 0 atKbdr).1 [0x78#16] = true ∧
      0xFE03#16 = (readReg 0 atKbdr).1 + BitVec.ofNat 16 1 ∧ readable atKbdr 0xFE03 = false ∧
      (∀ w ∈ [0x78#16], w ≠ 0#16) ∧ writesSucceed 1 atKbdr = true) ∧
    (holdsWords (strings 0x300F) (readReg 0 (strings 0x300F)).1 [0x4142#16] = true ∧
      0x3010#16 = (readReg 0 (strings 0x300F)).1 + BitVec.ofNat 16 1 ∧ readable (strings 0x300F) 0x3010 = false ∧
      (∀ w ∈ [0x4142#16], w ≠ 0#16) ∧ writesSucceed (2 * 1) (strings 0x300F) = true ∧
      (∀ w ∈ [0x4142#16], lowByte w ≠ 0#8 ∧ highByte w ≠ 0#8)) ∧
    (holdsWords (strings 5) (readReg 0 (strings 5)).1 [] = true ∧ readable (strings 5) (readReg 0 (strings 5)).1 = false) := by
  rw [strings_r0, strings_r0, lastWord_r0]
  exact ⟨⟨by decide, by decide, by decide, by simp, by decide⟩, ⟨by decide, by decide, by decide, by simp, by decide⟩,
    ⟨by decide, by decide, by decide, by simp, by decide, by simp [lowByte, highByte]⟩, by decide, by decide⟩

/-- The write fails at the second word of a PUTS string; at the low byte, and at the high byte, of the second word of
a PUTSP string. -/
theorem witness_FailedStringWritesRaiseIoError :
    (let s : State := { strings 0x300A with writeOutcomes := [true, false] }
     readsWords (readReg 0 s).2 (readReg 0 s).1 ([0x48#16] ++ [0x69#16]) = true ∧ (∀ w ∈ [0x48#16], w ≠ 0#16) ∧
      0x69#16 ≠ 0#16 ∧ s.writeOutcomes = List.replicate 1 true ++ false :: []) ∧
    (let s : State := { strings 0x300C with
        mem := [(0x300C, 0x6948#16), (0x300D, 0x4142#16)], writeOutcomes := [true, true, false] }
     readsWords (readReg 0 s).2 (readReg 0 s).1 ([0x6948#16] ++ [0x4142#16]) = true ∧
      (∀ w ∈ [0x6948#16], lowByte w ≠ 0#8 ∧ highByte w ≠ 0#8) ∧ lowByte 0x4142#16 ≠ 0#8 ∧ highByte 0x4142#16 ≠ 0#8 ∧
      s.writeOutcomes = List.replicate (2 * 1) true ++ false :: [] ∧
      ({ s with writeOutcomes := [true, true, true, false] } : State).writeOutcomes =
        List.replicate (2 * 1 + 1) true ++ false :: []) :=
  ⟨⟨by decide, by simp, by decide, by decide⟩,
    by decide, by simp [lowByte, highByte], by decide, by decide, by decide, by decide⟩

theorem witness_HaltPrintsAndEndsTheRun : writesSucceed 16 idle = true ∧
    writesSucceed 16 { idle with writeOutcomes := List.replicate 16 true ++ [false] } = true := by decide

/-- The first and the last byte of the banner and of the prompt; and the echo of a latched character, of the
channel's, and of the channel's after a wait. -/
theorem witness_FailedWritesRaiseIoError :
    (({ idle with writeOutcomes := [false] } : State).writeOutcomes = List.replicate 0 true ++ false :: [] ∧
      ({ idle with writeOutcomes := List.replicate 15 true ++ [false] } : State).writeOutcomes =
        List.replicate 15 true ++ false :: [] ∧
      ({ idle with writeOutcomes := List.replicate 6 true ++ [false] } : State).writeOutcomes =
        List.replicate 6 true ++ false :: []) ∧
    (let s : State := { idle with writeOutcomes := List.replicate 7 true ++ [false], kbReady := true }
     s.writeOutcomes = List.replicate 7 true ++ false :: [] ∧ s.kbReady = true) ∧
    (let s : State := { idle with writeOutcomes := List.replicate 7 true ++ [false], channel := [0x71] }
     s.writeOutcomes = List.replicate 7 true ++ false :: [] ∧ s.kbReady = false ∧ s.channel = 0x71 :: []) ∧
    (let s : State := { waiting with
        channel := [0x71], wait := .waitingInput .input 0xF023, writeOutcomes := [false] }
     nextTurn s = .core ∧ s.run = .running ∧ s.wait = .waitingInput .input 0xF023 ∧ s.channel = 0x71 :: [] ∧
      s.writeOutcomes = false :: []) := by decide

theorem witness_TrapInstructionsFrame : (∃ v, Instr.trap 0xFF 3 = .trap v 3) ∧ Instr.getc 3 = .getc 3 :=
  ⟨⟨0xFF, rfl⟩, rfl⟩

theorem witness_StepRunsTheDecodedInstruction : nextTurn idle = .core ∧ idle.run = .running ∧ idle.wait = .none ∧
    inImage idle idle.pc = true := by decide

theorem witness_PcOutsideTheProgramEndsTheRun :
    (let s : State := { idle with pc := 0x3010 }
     nextTurn s = .core ∧ s.run = .running ∧ s.wait = .none ∧ inImage s s.pc = false ∧ s.pc = programEnd s) ∧
    (let s : State := { idle with pc := 0x2FFF }
     nextTurn s = .core ∧ s.run = .running ∧ s.wait = .none ∧ inImage s s.pc = false ∧ s.pc ≠ programEnd s) := by decide

theorem witness_AnEndedRunStaysAsItIs :
    (let s : State := { idle with run := .halted .trapHalt }
     runEnded s = true ∧ ∃ t, step s = .next t) ∧
    (let s : State := { idle with run := .faulted ⟨.ioError, 0x3000, some 0xF025, .nothing⟩, schedule := [.producer] }
     runEnded s = true ∧ ∃ t, step s = .next t) := ⟨⟨rfl, _, rfl⟩, ⟨rfl, _, rfl⟩⟩

theorem witness_OutputOnlyGrows : (∃ t, step waiting = .next t) ∧ (∃ t, exec (.getc 0) idle = .next t) ∧
    isConsole (.getc 0) = false := ⟨⟨_, rfl⟩, ⟨_, rfl⟩, rfl⟩

theorem witness_StepsKeepWhatIsOutsideTheProgram : (∃ t, step waiting = .next t) ∧ inImage waiting 0x2FFF = false ∧
    inImage waiting 0x3001 = false := ⟨⟨_, rfl⟩, by decide, by decide⟩

/-- The invariant holds of a state in which every part of it says something: a wait, and a fault record. -/
theorem witness_StepKeepsTheInvariant : Machine.Inv waiting ∧ (∃ t, step waiting = .next t) ∧
    Machine.Inv { machine 0x3001 0x3000 0xD000 [] [] with
      pc := 0x3001, run := .faulted ⟨.reservedInstructionFound, 0x3000, some 0xD000, .nothing⟩ } :=
  ⟨by decide, ⟨_, rfl⟩, by decide⟩

/-- A finite stream, before and after the end of the run; an infinite one; none, and a producer that stopped. -/
theorem witness_ProducerFeedsTheChannel :
    (let s : State := { idle with schedule := [.producer], inputStream := ⟨[0x41], none⟩ }
     nextTurn s = .producer ∧ s.producerStopped = false ∧ nextChar s.inputStream = some (0x41, ⟨[], none⟩) ∧
      runEnded s = false) ∧
    (let s : State := { idle with
        schedule := [.producer], inputStream := ⟨[0x41], none⟩, run := .halted .endOfProgram }
     nextTurn s = .producer ∧ s.producerStopped = false ∧ nextChar s.inputStream = some (0x41, ⟨[], none⟩) ∧
      runEnded s = true) ∧
    (let s : State := { idle with schedule := [.producer], inputStream := ⟨[], some 7⟩ }
     nextTurn s = .producer ∧ s.producerStopped = false ∧
      nextChar s.inputStream = some (Config.streamByte 7, ⟨[], some 8⟩) ∧ runEnded s = false) ∧
    (let s : State := { idle with schedule := [.producer] }
     nextTurn s = .producer ∧ nextChar s.inputStream = none) ∧
    ({ idle with producerStopped := true } : State).producerStopped = true :=
  ⟨by decide, by decide, ⟨rfl, rfl, rfl, rfl⟩, by decide, rfl⟩

/-- A core that takes the head of its channel, one whose LDR takes the latched character from KBDR, one whose ADD takes
none, and a producer with a character to deliver. -/
theorem witness_InputOrderIsKept :
    (let s : State := { machine 0x3100 0x3000 0x6040 [] [(1, 0xFE02)] with kbReady := true, kbLatch := 0x61 }
     Machine.Inv s ∧ (∃ t, step s = .next t ∧ delivered 0x61 s t) ∧ nextTurn s ≠ .producer) ∧
    (let s : State := { idle with kbReady := true, kbLatch := 0x61 }
     Machine.Inv s ∧ (∃ t, step s = .next t ∧ t.kbReady = true) ∧ nextTurn s ≠ .producer) ∧
    (let s : State := { waiting with channel := [0x61, 0x62], inputStream := ⟨[0x63], none⟩ }
     Machine.Inv s ∧ (∃ t, step s = .next t) ∧ nextTurn s ≠ .producer) ∧
    (let s : State := { waiting with
        channel := [0x61, 0x62], inputStream := ⟨[0x63], some 0⟩, schedule := [.producer] }
     Machine.Inv s ∧ (∃ t, step s = .next t) ∧ nextTurn s = .producer) :=
  ⟨⟨by decide, ⟨_, rfl, rfl, rfl, .inr ⟨rfl, by decide, rfl, by decide, by decide⟩⟩, by decide⟩,
    ⟨by decide, ⟨_, rfl, by decide⟩, by decide⟩, ⟨by decide, ⟨_, rfl⟩, by decide⟩, by decide, ⟨_, rfl⟩, by decide⟩

/-- A fair run of a waiting core with a character in the channel: it gets it, then its program ends. -/
def fairRun : Nat → State
  | 0 => { waiting with channel := [0x61] }
  | 1 => { setReg 0 0x61 waiting with wait := .none }
  | _ + 2 => { setReg 0 0x61 waiting with wait := .none, run := .halted .endOfProgram }

theorem witness_WaitEndsUnderFairness : IsRun (fun _ => .core) fairRun ∧ WeaklyFair (fun _ => .core) fairRun ∧
    (fairRun 0).run = .running ∧ (∃ routine w, (fairRun 0).wait = .waitingInput routine w) ∧
    (fairRun 0).channel ≠ [] ∧
    (let s : State := { waiting with inputStream := ⟨[], some 0⟩ }
     (nextChar s.inputStream).isSome = true ∧ s.producerStopped = false) := by
  refine ⟨?_, ⟨fun n _ => ⟨n, Nat.le_refl n, rfl⟩, fun n h => ?_⟩, rfl, ⟨_, _, rfl⟩, by decide, rfl, rfl⟩
  · intro n
    match n with
    | 0 => rfl
    | 1 => rfl
    | _ + 2 => rfl
  · exact absurd (h (n + 2) (by omega)) (by simp [fairRun, producerEnabled, runEnded])

theorem witness_StartRequestStartsTheRun :
    (let s : State := { State.reset with schedule := [.start] }
     nextTurn s = .start ∧ s.run = .notStarted) ∧
    (let s : State := { idle with schedule := [.start] }
     nextTurn s = .start ∧ s.run ≠ .notStarted) ∧
    (nextTurn State.reset = .core ∧ State.reset.run = .notStarted) := by decide

theorem witness_LoadedCoreIsAsReset : ∃ t, load State.reset (.bytes [0x30, 0x00, 0xF0, 0x25]) = .ok t := ⟨_, rfl⟩

/-- The shortest and the longest body, an odd length, and a header that is not 0x3000. -/
theorem witness_LoadPlacesBigEndianWords :
    ([0xF0#8, 0x25#8].length % 2 = 0 ∧ 0 < [0xF0#8, 0x25#8].length ∧ [0xF0#8, 0x25#8].length ≤ 2 * 0xCE00) ∧
    (List.replicate (2 * 0xCE00) 0#8).length ≤ 2 * 0xCE00 ∧ [0x30#8].length % 2 = 1 ∧
    ¬(0x00#8 = 0x30#8 ∧ 0x30#8 = 0x00#8) :=
  ⟨by decide, by rw [List.length_replicate], by decide, by decide⟩

theorem witness_LoadChecksInOrder : (List.replicate (2 * 0xCE01) 0#8).length % 2 = 0 ∧
    2 * 0xCE00 < (List.replicate (2 * 0xCE01) 0#8).length ∧
    (∃ t, load State.reset (.bytes [0x30, 0x00, 0xF0, 0x25]) = .ok t) := 
  ⟨by rw [List.length_replicate], by rw [List.length_replicate]; decide, ⟨_, rfl⟩⟩

theorem witness_ListingIsTheLoadedProgram : idle.instructionCount ≤ 0xCE00 ∧ 0 < (programSlice idle).length := by
  decide

end Sys2Proof.Tests
end

section
/-! SUPPORT. The rules of `00_scope.md`: a field widened to a word (R11), a word's two views (R10), and the producer's
move (R6, R67, R68). -/

namespace Sys2Proof.Machine

/-! ### Fields widened to a word (R11) -/

/-- Widening with zeros keeps the number. -/
theorem toNat_zext {n : Nat} (f : BitVec n) (h : n ≤ 16) : (zext f).toNat = f.toNat :=
  BitVec.toNat_setWidth_of_le h

/-- The spec's rule: a field whose top bit is 1 gains every bit above the field, which as a number adds
65536 - 2^n. -/
theorem toNat_sext {n : Nat} (f : BitVec n) (h : n ≤ 16) :
    (sext f).toNat = if f.getLsbD (n - 1) then f.toNat + (65536 - 2 ^ n) else f.toNat := by
  have hsum : (sext f).toNat = f.toNat + if f.msb then 65536 - 2 ^ n else 0 := by
    rw [sext, BitVec.toNat_signExtend, BitVec.toNat_setWidth_of_le h]
  rw [hsum, BitVec.msb_eq_getLsbD_last]
  split <;> rfl

/-! ### The two views of a word (R10) -/

theorem u16_lt (w : Word) : u16 w < 65536 := w.isLt

/-- The signed view is the library's. -/
theorem s16_eq_toInt (w : Word) : s16 w = w.toInt := (BitVec.toInt_eq_msb_cond w).symm

theorem s16_eq_u16 (w : Word) : s16 w = if w.getLsbD 15 then (u16 w : Int) - 65536 else u16 w := by
  rw [s16, BitVec.msb_eq_getLsbD_last, u16]

theorem le_s16 (w : Word) : -32768 ≤ s16 w := s16_eq_toInt w ▸ BitVec.le_toInt w

theorem s16_le (w : Word) : s16 w ≤ 32767 := by
  have h : s16 w < 32768 := s16_eq_toInt w ▸ BitVec.toInt_lt
  omega

/-- The conversion from an integer is the library's. -/
theorem fromSigned_eq_ofInt (n : Int) : fromSigned n = BitVec.ofInt 16 n := by
  apply BitVec.eq_of_toNat_eq
  rw [fromSigned, BitVec.toNat_ofNat, BitVec.toNat_ofInt]
  omega

theorem fromSigned_s16 (w : Word) : fromSigned (s16 w) = w := by
  rw [fromSigned_eq_ofInt, s16_eq_toInt, BitVec.ofInt_toInt]

theorem s16_fromSigned {n : Int} (hlo : -32768 ≤ n) (hhi : n ≤ 32767) : s16 (fromSigned n) = n := by
  rw [s16_eq_toInt, fromSigned_eq_ofInt]
  exact BitVec.toInt_ofInt_eq_self (by decide) hlo (Int.lt_add_one_of_le hhi)

theorem u16_fromSigned (n : Int) : (u16 (fromSigned n) : Int) = n % 65536 := by
  have hpos : 0 ≤ n % 65536 := Int.emod_nonneg n (by decide)
  rw [u16, fromSigned_eq_ofInt, BitVec.toNat_ofInt]
  exact Int.toNat_of_nonneg hpos

/-! ### The producer's move (R67, R68) -/

/-- Before the end of the run the next character goes to the channel's tail. -/
theorem producerTurn_delivers {s : State} {c : Byte} {rest : InputStream} (hp : s.producerStopped = false)
    (hc : nextChar s.inputStream = some (c, rest)) (he : runEnded s = false) :
    producerTurn s = { s with channel := s.channel ++ [c], inputStream := rest } := by
  simp [producerTurn, hp, hc, he]

/-- After the end of the run the send fails: the producer stops and its stream is dropped. -/
theorem producerTurn_sendFails {s : State} {c : Byte} {rest : InputStream} (hp : s.producerStopped = false)
    (hc : nextChar s.inputStream = some (c, rest)) (he : runEnded s = true) :
    producerTurn s = { s with producerStopped := true, inputStream := ⟨[], none⟩ } := by
  simp [producerTurn, hp, hc, he]

/-- A producer that has stopped, or has no character to take, changes nothing. -/
theorem producerTurn_idle {s : State} (h : s.producerStopped = true ∨ nextChar s.inputStream = none) :
    producerTurn s = s := by
  rcases h with hp | hc
  · simp [producerTurn, hp]
  · simp [producerTurn, hc]

/-! ### The statements -/

/-- Settles O5: the general rule `toNat_sext` at the four widths of R11, and `toNat_zext` at 8. -/
theorem signExtensionFormula : Obligations.SignExtensionFormula :=
  ⟨fun f => toNat_sext f (by decide), fun f => toNat_sext f (by decide), fun f => toNat_sext f (by decide),
    fun f => toNat_sext f (by decide), fun f => toNat_zext f (by decide)⟩

/-- Settles O6: both conversions are the library's between a word and its two's-complement value. -/
theorem wordViewsRoundTrip : Obligations.WordViewsRoundTrip :=
  ⟨fun w => ⟨u16_lt w, s16_eq_u16 w, le_s16 w, s16_le w, fromSigned_s16 w⟩, u16_fromSigned,
    fun _ => s16_fromSigned⟩

/-- Settles O52: the producer's step is `producerTurn` with its own move taken off the schedule, so each clause is
one of the move's three cases; the last three are the equations of `nextChar`. -/
theorem producerFeedsTheChannel : Obligations.ProducerFeedsTheChannel := by
  refine ⟨fun s ht => ⟨fun c rest hp hc he => ?delivers, fun c rest hp hc he => ?fails, fun h => ?idle⟩,
    nextChar_listed, nextChar_endless, nextChar_end⟩
  case delivers => rw [step_producer ht, producerTurn_delivers (s := popTurn s) hp hc he]; rfl
  case fails => rw [step_producer ht, producerTurn_sendFails (s := popTurn s) hp hc he]; rfl
  case idle => rw [step_producer ht, producerTurn_idle (s := popTurn s) h]; rfl

end Sys2Proof.Machine
end

section
/-! SUPPORT. The word of a decoded instruction is the word it was decoded from (30_encoding.md R83 to R86): each
format puts back the fields that `decode` took. -/

namespace Sys2Proof

/-! ### A word is put together from its fields -/

theorem word3336_eq {w : Word} {op : BitVec 4} {a b : BitVec 3} {c : BitVec 6} (hop : bits w 12 4 = op)
    (ha : bits w 9 3 = a) (hb : bits w 6 3 = b) (hc : bits w 0 6 = c) : word3336 op a b c = w := by
  subst hop ha hb hc
  apply BitVec.eq_of_toNat_eq
  simp only [toNat_word3336, toNat_bits]
  omega

theorem word349_eq {w : Word} {op : BitVec 4} {a : BitVec 3} {c : BitVec 9} (hop : bits w 12 4 = op)
    (ha : bits w 9 3 = a) (hc : bits w 0 9 = c) : word349 op a c = w := by
  subst hop ha hc
  apply BitVec.eq_of_toNat_eq
  simp only [toNat_word349, toNat_bits]
  omega

theorem word448_eq {w : Word} {op a : BitVec 4} {c : BitVec 8} (hop : bits w 12 4 = op)
    (ha : bits w 8 4 = a) (hc : bits w 0 8 = c) : word448 op a c = w := by
  subst hop ha hc
  apply BitVec.eq_of_toNat_eq
  simp only [toNat_word448, toNat_bits]
  omega

theorem word412_eq {w : Word} {op : BitVec 4} {a : BitVec 12} (hop : bits w 12 4 = op)
    (ha : bits w 0 12 = a) : word412 op a = w := by
  subst hop ha
  apply BitVec.eq_of_toNat_eq
  simp only [toNat_word412, toNat_bits]
  omega

/-! ### A field is put together from its parts -/

/-- Two fields that meet are one field. -/
theorem bits_eq_append (w : Word) (lo m n : Nat) : bits w lo (m + n) = bits w (lo + n) m ++ bits w lo n := by
  apply BitVec.eq_of_toNat_eq
  rw [toNat_append_add, toNat_bits, toNat_bits, toNat_bits, Nat.add_comm m n, Nat.pow_add, Nat.mod_mul,
    Nat.div_div_eq_div_mul, ← Nat.pow_add]
  ring

/-- A bit is the field of length 1. -/
theorem bits_one (w : Word) (i : Nat) : bits w i 1 = oneBit (flagBit w i) := by
  apply BitVec.eq_of_toNat_eq
  rw [toNat_bits, oneBit, BitVec.toNat_ofBool, flagBit_eq]
  rcases Nat.mod_two_eq_zero_or_one (w.toNat / 2 ^ i) with h | h <;> simp [h]

/-! ### Decoding -/

/-- The number of an opcode class in R83's map. -/
def Opcode.code : Opcode → BitVec 4
  | .br => 0 | .add => 1 | .ld => 2 | .st => 3 | .jsr => 4 | .and => 5 | .ldr => 6 | .str => 7
  | .rti => 8 | .not => 9 | .ldi => 10 | .sti => 11 | .jmp => 12 | .reserved => 13 | .lea => 14 | .trap => 15

/-- The top four bits of a word are the number of its opcode class. -/
theorem bits_opcode {w : Word} {c : Opcode} (h : opcodeOf w = c) : bits w 12 4 = c.code := by
  subst h
  unfold opcodeOf
  generalize bits w 12 4 = op
  revert op
  decide

/-- Every TRAP word is the word of the row it is read as. -/
theorem encode_decodeTrap {w : Word} (hop : bits w 12 4 = 15#4) : encode (decodeTrap w) = w := by
  simp only [decodeTrap]
  split_ifs with h1 h2 h3 h4 h5 h6
  · exact word448_eq hop rfl h1
  · exact word448_eq hop rfl h2
  · exact word448_eq hop rfl h3
  · exact word448_eq hop rfl h4
  · exact word448_eq hop rfl h5
  · exact word448_eq hop rfl h6
  · exact word448_eq hop rfl rfl

/-- The low six bits of ADD and AND in immediate mode. -/
theorem bits_immediate {w : Word} (h : flagBit w 5 = true) : bits w 0 6 = 1#1 ++ bits w 0 5 := by
  have hbit : bits w 5 1 = 1#1 := by rw [bits_one, h]; rfl
  rw [← hbit]
  exact bits_eq_append w 0 1 5

/-- The low six bits of ADD and AND in register mode. -/
theorem bits_register {w : Word} (h : flagBit w 5 = false) : bits w 0 6 = 0#1 ++ bits w 3 2 ++ bits w 0 3 := by
  have hbit : bits w 5 1 = 0#1 := by rw [bits_one, h]; rfl
  have htop : bits w 3 3 = bits w 5 1 ++ bits w 3 2 := bits_eq_append w 3 1 2
  rw [← hbit, ← htop]
  exact bits_eq_append w 0 3 3

/-- Encoding a decoded word gives the word: no bit of it is lost (R86). -/
theorem encode_decode (w : Word) : encode (decode w) = w := by
  unfold decode
  cases h : opcodeOf w <;> have hop := bits_opcode h
  case br =>
    refine word349_eq hop ?_ rfl
    rw [← bits_one, ← bits_one, ← bits_one]
    exact (bits_eq_append w 9 2 1).trans (congrArg (· ++ bits w 9 1) (bits_eq_append w 10 1 1))
  case add =>
    dsimp only
    split
    · next h5 => exact word3336_eq hop rfl rfl (bits_immediate h5)
    · next h5 => exact word3336_eq hop rfl rfl (bits_register (Bool.eq_false_iff.2 h5))
  case and =>
    dsimp only
    split
    · next h5 => exact word3336_eq hop rfl rfl (bits_immediate h5)
    · next h5 => exact word3336_eq hop rfl rfl (bits_register (Bool.eq_false_iff.2 h5))
  case jsr =>
    dsimp only
    split
    · next h11 =>
      refine word412_eq hop ((bits_eq_append w 0 1 11).trans ?_)
      rw [bits_one, Nat.zero_add, h11]; rfl
    · next h11 =>
      refine word3336_eq hop ((bits_eq_append w 9 1 2).trans ?_) rfl rfl
      rw [bits_one, Bool.eq_false_iff.2 h11]; rfl
  case jmp =>
    dsimp only
    split
    · next h7 => exact word3336_eq hop rfl (congrArg BitVec.ofFin h7) rfl
    · exact word3336_eq hop rfl rfl rfl
  case ld => exact word349_eq hop rfl rfl
  case st => exact word349_eq hop rfl rfl
  case ldi => exact word349_eq hop rfl rfl
  case sti => exact word349_eq hop rfl rfl
  case lea => exact word349_eq hop rfl rfl
  case ldr => exact word3336_eq hop rfl rfl rfl
  case str => exact word3336_eq hop rfl rfl rfl
  case not => exact word3336_eq hop rfl rfl rfl
  case rti => exact word412_eq hop rfl
  case reserved => exact word412_eq hop rfl
  case trap => exact encode_decodeTrap hop

end Sys2Proof
end

section
/-! SUPPORT. What a step can do: one case for each move of an agent (10_state.md R35 to R39, 20_memory.md R67, R68).
Every rule about all steps starts from `step_cases`. -/

namespace Sys2Proof.Machine

/-! ### Instructions answer a next state -/

theorem exec_next (i : Instr) (s : State) : ∃ t, exec i s = .next t := by
  cases i <;> exact ⟨_, rfl⟩

/-! ### The end of a move -/

/-- Before the end of the run the channel stays. -/
theorem dropReceiver_running {s : State} (h : runEnded s = false) : dropReceiver s = s := by
  simp [dropReceiver, h]

/-- After the end of the run the channel is emptied. -/
theorem dropReceiver_ended {s : State} (h : runEnded s = true) : dropReceiver s = { s with channel := [] } := by
  simp [dropReceiver, h]

/-- The end of a move changes the channel at most, and leaves it empty after the end of the run (R68). -/
theorem dropReceiver_frame (s : State) :
    ∃ ch, dropReceiver s = { s with channel := ch } ∧ (runEnded s = true → ch = []) := by
  cases h : runEnded s
  · exact ⟨s.channel, dropReceiver_running h, nofun⟩
  · exact ⟨[], dropReceiver_ended h, fun _ => rfl⟩

@[simp] theorem dropReceiver_output (s : State) : (dropReceiver s).output = s.output := by
  obtain ⟨ch, h, -⟩ := dropReceiver_frame s
  rw [h]

theorem runEnded_of_run_running {s : State} (h : s.run = .running) : runEnded s = false := by
  simp [runEnded, h]

theorem runEnded_of_run_notStarted {s : State} (h : s.run = .notStarted) : runEnded s = false := by
  simp [runEnded, h]

/-! ### The iteration at its ends -/

theorem iteration_programEnd {s : State} (h : s.pc = programEnd s) : iteration s = .next (haltRun .endOfProgram s) := by
  simp [iteration, h]

/-- Nothing can be fetched outside the loaded range. -/
theorem fetch_eq_none {s : State} {a : Word} : fetch a s = none ↔ inImage s a = false := by
  unfold fetch
  cases inImage s a <;> simp

theorem iteration_unfetched {s : State} (hne : s.pc ≠ programEnd s) (h : fetch s.pc s = none) :
    iteration s = .next (raise { kind := .fetchOutOfRange, addr := s.pc, word := none, info := .nothing } s) := by
  simp [iteration, hne, h]

/-! ### The start request -/

theorem startTurn_notStarted {s : State} (h : s.run = .notStarted) : startTurn s = { s with run := .running } := by
  simp [startTurn, h]

theorem startTurn_started {s : State} (h : s.run ≠ .notStarted) : startTurn s = s := by
  unfold startTurn
  split
  · next h' => exact absurd h' h
  all_goals rfl

theorem coreTurn_notStarted {s : State} (h : s.run = .notStarted) : coreTurn s = .next s := by
  simp [coreTurn, h]

/-! ### The moves -/

/-- How a move leads from `s`, its turn taken off the schedule, to `t`. -/
inductive Moved (s t : State) : Prop where
  /-- The agent has nothing to do, or the core may not move. -/
  | idle (e : t = s)
  /-- The core runs the instruction at pc. -/
  | instr (w : Word) (x : State) (r : s.run = .running) (n : s.wait = .none) (f : fetch s.pc s = some w)
      (hx : exec (decode w) (setPc (s.pc + 1#16) s) = .next x) (e : t = dropReceiver x)
  /-- The core comes to the end of the program. -/
  | programEnd (r : s.run = .running) (n : s.wait = .none) (p : s.pc = programEnd s)
      (e : t = dropReceiver (haltRun .endOfProgram s))
  /-- The core cannot fetch. -/
  | fetchFault (r : s.run = .running) (n : s.wait = .none) (f : fetch s.pc s = none)
      (e : t = dropReceiver (raise { kind := .fetchOutOfRange, addr := s.pc, word := none, info := .nothing } s))
  /-- The core ends its wait with the head of the channel. -/
  | resume (routine : InputRoutine) (w : Word) (c : Byte) (rest : List Byte) (r : s.run = .running)
      (n : s.wait = .waitingInput routine w) (h : s.channel = c :: rest)
      (e : t = dropReceiver (deliverChar routine w c { s with channel := rest, wait := .none }))
  /-- The producer sends a character. -/
  | delivers (c : Byte) (rest : InputStream) (p : s.producerStopped = false)
      (h : nextChar s.inputStream = some (c, rest)) (r : runEnded s = false)
      (e : t = { s with channel := s.channel ++ [c], inputStream := rest })
  /-- The producer's send fails after the end of the run. -/
  | sendFails (c : Byte) (rest : InputStream) (p : s.producerStopped = false)
      (h : nextChar s.inputStream = some (c, rest)) (r : runEnded s = true)
      (e : t = { s with producerStopped := true, inputStream := ⟨[], none⟩ })
  /-- The host starts the run. -/
  | starts (r : s.run = .notStarted) (e : t = { s with run := .running })

theorem iteration_cases {s t : State} (r : s.run = .running) (n : s.wait = .none)
    (h : closeRun (iteration s) = .next t) : Moved s t := by
  by_cases hp : s.pc = programEnd s
  · rw [iteration_programEnd hp] at h
    cases h
    exact .programEnd r n hp rfl
  · cases hf : fetch s.pc s with
    | none =>
      rw [iteration_unfetched hp hf] at h
      cases h
      exact .fetchFault r n hf rfl
    | some w =>
      obtain ⟨x, hx⟩ := exec_next (decode w) (setPc (s.pc + 1#16) s)
      rw [iteration_fetched hf, hx] at h
      cases h
      exact .instr w x r n hf hx rfl

theorem coreTurn_cases {s t : State} (h : coreTurn s = .next t) : Moved s t := by
  cases hr : s.run with
  | notStarted => rw [coreTurn_notStarted hr] at h; cases h; exact .idle rfl
  | halted reason => simp only [coreTurn, hr] at h; cases h; exact .idle rfl
  | faulted record => simp only [coreTurn, hr] at h; cases h
  | running =>
    cases hw : s.wait with
    | none => exact iteration_cases hr hw (coreTurn_running hr hw ▸ h)
    | waitingInput routine w =>
      rw [coreTurn_waiting hr hw] at h
      cases h
      cases hc : s.channel with
      | nil =>
        refine .idle ?_
        simp only [resumeInput, hc]
        exact dropReceiver_running (runEnded_of_run_running hr)
      | cons c rest => exact .resume routine w c rest hr hw hc (by simp only [resumeInput, hc])

theorem producerTurn_cases (s : State) : Moved s (producerTurn s) := by
  cases hp : s.producerStopped with
  | true => exact .idle (producerTurn_idle (.inl hp))
  | false =>
    cases hc : nextChar s.inputStream with
    | none => exact .idle (producerTurn_idle (.inr hc))
    | some next =>
      cases he : runEnded s with
      | false => exact .delivers next.1 next.2 hp hc he (producerTurn_delivers hp hc he)
      | true => exact .sendFails next.1 next.2 hp hc he (producerTurn_sendFails hp hc he)

theorem startTurn_cases (s : State) : Moved s (startTurn s) := by
  by_cases hr : s.run = .notStarted
  · exact .starts hr (startTurn_notStarted hr)
  · exact .idle (startTurn_started hr)

/-- A step is one move of the agent whose turn it is. -/
theorem step_cases {s t : State} (h : step s = .next t) : Moved (popTurn s) t := by
  cases ht : nextTurn s with
  | core => exact coreTurn_cases (step_core ht ▸ h)
  | producer => rw [step_producer ht] at h; cases h; exact producerTurn_cases _
  | start => rw [step_start ht] at h; cases h; exact startTurn_cases _

end Sys2Proof.Machine
end

section
/-! SUPPORT. What every instruction keeps, read off the cases of `Did` (10_state.md R20, R25, R27, R31, R34): the
registers outside its list, pc, the flag, memory and the environment. -/

namespace Sys2Proof.Machine

/-! ### The flag and the registers under one write -/

theorem flagOf_zero : flagOf 0x0000#16 = .zero := rfl

theorem flagOf_neg {v : Word} (h : v ≠ 0x0000#16) (hb : v.getLsbD 15 = true) : flagOf v = .neg := by
  have hm : v.msb = true := by rw [BitVec.msb_eq_getLsbD_last, hb]
  simp [flagOf, h, hm]

theorem flagOf_pos {v : Word} (h : v ≠ 0x0000#16) (hb : v.getLsbD 15 = false) : flagOf v = .pos := by
  have hm : v.msb = false := by rw [BitVec.msb_eq_getLsbD_last, hb]
  simp [flagOf, h, hm]

theorem setcc_eq (v : Word) (s : State) : setcc v s = { s with cc := flagOf v, ccSet := true } := rfl

/-- A write of a register leaves what a read of any other gives. -/
theorem readReg_setReg_other {r q : Reg} (h : q ≠ r) (v : Word) (s : State) :
    (readReg q (setReg r v s)).1 = (readReg q s).1 := by
  obtain ⟨hv, hm⟩ := setReg_regs_other h v s
  unfold readReg
  rw [hm, hv]
  split <;> rfl

theorem SameRegsExcept.of_eq {l : List Reg} {s t : State} (h : t.regs = s.regs) (g : t.gprWritten = s.gprWritten) :
    SameRegsExcept l s t :=
  fun r _ => ⟨by rw [h], by rw [g]⟩

/-- One register written, of those listed. -/
theorem SameRegsExcept.of_set {l : List Reg} {s t : State} {q : Reg} {v : Word} (hq : q ∈ l)
    (h : t.regs = s.regs.set q v) (g : t.gprWritten = s.gprWritten.set q true) : SameRegsExcept l s t := by
  intro r hr
  rw [h, g]
  exact setReg_regs_other (ne_of_mem_of_not_mem hq hr).symm v s

/-- A write leaves every mark that is set. -/
theorem marked_set {s : State} {q r : Reg} (h : s.gprWritten[r] = true) :
    (s.gprWritten.set q true)[r] = true := by
  by_cases e : r = q
  · subst e; simp
  · exact (setReg_regs_other e 0 s).2.trans h

/-! ### Which instructions have a DR -/

theorem mem_writtenRegs_of_flagDest {i : Instr} {dr : Reg} (h : flagDest i = some dr) : dr ∈ writtenRegs i := by
  cases i <;> simp_all [flagDest, writtenRegs]

theorem flagDest_of_isControl {i : Instr} (h : isControl i = true) : flagDest i = none := by
  cases i <;> simp_all [flagDest, isControl]

theorem flagDest_of_isStore {i : Instr} (h : isStore i = true) : flagDest i = none := by
  cases i <;> simp_all [flagDest, isStore]

/-! ### The frames -/

theorem Quiet.sameFlag {s t : State} (q : Quiet s t) : SameFlag s t := ⟨q.cc, q.ccSet⟩

theorem Quiet.sameEnvironment {s t : State} (q : Quiet s t) : SameEnvironment s t :=
  ⟨q.inputStream, q.producerStopped, q.schedule, q.params⟩

variable {i : Instr} {s t : State}

theorem Did.sameRegs (h : Did i s t) : SameRegsExcept (writtenRegs i) s t := by
  cases h with
  | quiet q f => exact .of_eq q.regs q.gprWritten
  | flag dr v u d q r e =>
    subst e
    exact .of_set (v := v) (mem_writtenRegs_of_flagDest d) (by simp [q.regs]) (by simp [q.gprWritten])
  | char c u d f n m q q' =>
    exact .of_set (v := zext c) d (by simp [q'.regs, q.regs]) (by simp [q'.gprWritten, q.gprWritten])
  | jump a n d e => subst e; exact .of_eq rfl rfl
  | link a n d w e => subst e; exact .of_set w rfl rfl
  | store a v u d h h1 h2 q e => subst e; exact .of_eq q.regs q.gprWritten

theorem Did.marked (h : Did i s t) {r : Reg} (hr : s.gprWritten[r] = true) : t.gprWritten[r] = true := by
  cases h with
  | quiet q f => rw [q.gprWritten]; exact hr
  | flag dr v u d q _ e => subst e; rw [setRegFlag_gprWritten, q.gprWritten]; exact marked_set hr
  | char c u d f n m q q' => rw [q'.gprWritten, setReg_gprWritten, q.gprWritten]; exact marked_set hr
  | jump a n d e => subst e; exact hr
  | link a n d w e => subst e; exact marked_set hr
  | store a v u d h h1 h2 q e => subst e; rw [setMem_gprWritten, q.gprWritten]; exact hr

theorem Did.pc (h : Did i s t) (hi : isControl i = false) : t.pc = s.pc := by
  cases h with
  | quiet q f => exact q.pc
  | flag dr v u d q r e => subst e; exact q.pc
  | char c u d f n m q q' => exact q'.pc.trans q.pc
  | jump a n d e => simp [hi] at d
  | link a n d w e => simp [hi] at d
  | store a v u d h h1 h2 q e => subst e; exact q.pc

theorem Did.sameEnvironment (h : Did i s t) : SameEnvironment s t := by
  cases h with
  | quiet q f => exact q.sameEnvironment
  | flag dr v u d q r e => subst e; exact q.sameEnvironment
  | char c u d f n m q q' =>
    obtain ⟨h1, h2, h3, h4⟩ := q.sameEnvironment
    exact ⟨q'.inputStream.trans h1, q'.producerStopped.trans h2, q'.schedule.trans h3, q'.params.trans h4⟩
  | jump a n d e => subst e; exact ⟨rfl, rfl, rfl, rfl⟩
  | link a n d w e => subst e; exact ⟨rfl, rfl, rfl, rfl⟩
  | store a v u d h h1 h2 q e => subst e; exact q.sameEnvironment

/-- Memory is as it was, or a store wrote one word of the loaded range. -/
theorem Did.mem (h : Did i s t) :
    t.mem = s.mem ∨ isStore i = true ∧ ∃ a v, inImage s a = true ∧ t.mem = s.mem.write a.toNat v := by
  cases h with
  | quiet q f => exact .inl q.mem
  | flag dr v u d q r e => subst e; exact .inl q.mem
  | char c u d f n m q q' => exact .inl (q'.mem.trans q.mem)
  | jump a n d e => subst e; exact .inl rfl
  | link a n d w e => subst e; exact .inl rfl
  | store a v u d h h1 h2 q e => subst e; exact .inr ⟨d, a, v, h, by rw [setMem_mem, q.mem]⟩

theorem Did.instructionCount (h : Did i s t) : t.instructionCount = s.instructionCount := by
  cases h with
  | quiet q f => exact q.instructionCount
  | flag dr v u d q r e => subst e; exact q.instructionCount
  | char c u d f n m q q' => exact q'.instructionCount.trans q.instructionCount
  | jump a n d e => subst e; rfl
  | link a n d w e => subst e; rfl
  | store a v u d h h1 h2 q e => subst e; exact q.instructionCount

theorem Did.output (h : Did i s t) : s.output <+: t.output := by
  cases h with
  | quiet q f => exact q.output
  | flag dr v u d q r e => subst e; exact q.output
  | char c u d f n m q q' => exact q.output.trans q'.output
  | jump a n d e => subst e; exact List.prefix_refl _
  | link a n d w e => subst e; exact List.prefix_refl _
  | store a v u d h h1 h2 q e => subst e; exact q.output

/-- An instruction without a DR leaves the flag. -/
theorem Did.sameFlag (h : Did i s t) (hi : flagDest i = none) : SameFlag s t := by
  cases h with
  | quiet q f => exact q.sameFlag
  | flag dr v u d q r e => simp [hi] at d
  | char c u d f n m q q' => exact ⟨q'.cc.trans q.cc, q'.ccSet.trans q.ccSet⟩
  | jump a n d e => subst e; exact ⟨rfl, rfl⟩
  | link a n d w e => subst e; exact ⟨rfl, rfl⟩
  | store a v u d h h1 h2 q e => subst e; exact q.sameFlag

/-- One of the seven, of a running core: it completes with the flag set from DR, or faults and leaves both. -/
theorem Did.flagOrFault (h : Did i s t) {dr : Reg} (hi : flagDest i = some dr) (hr : s.run = .running) :
    (t.run = .running ∧ t.ccSet = true ∧ flagSays t.regs[dr] t.cc ∧ t.gprWritten[dr] = true) ∨
    (t.run ≠ .running ∧ SameFlag s t ∧ SameRegsExcept [] s t) := by
  cases h with
  | quiet q f =>
    rcases f with f | ⟨record, f⟩
    · simp [hi] at f
    · exact .inr ⟨by simp [f], q.sameFlag, .of_eq q.regs q.gprWritten⟩
  | flag dr' v u d q r e =>
    obtain rfl : dr' = dr := Option.some.inj (d.symm.trans hi)
    subst e
    obtain ⟨hv, hmark, hset, hsays⟩ := setRegFlag_says dr' v u
    exact .inl ⟨r.trans hr, hset, hv.symm ▸ hsays, hmark⟩
  | char c u d f n m q q' => simp [hi] at f
  | jump a n d e => simp [flagDest_of_isControl d] at hi
  | link a n d w e => simp [flagDest_of_isControl d] at hi
  | store a v u d h h1 h2 q e => simp [flagDest_of_isStore d] at hi

/-! ### The console -/

theorem SameConsole.refl (s : State) : SameConsole s s := ⟨rfl, rfl⟩

theorem SameConsole.trans {u : State} (h : SameConsole s t) (g : SameConsole t u) : SameConsole s u :=
  ⟨g.1.trans h.1, g.2.trans h.2⟩

theorem sameConsole_readReg (r : Reg) (s : State) : SameConsole s (readReg r s).2 := by
  obtain ⟨n, h⟩ := readReg_frame r s
  rw [h]; exact ⟨rfl, rfl⟩

theorem sameConsole_readFlag (s : State) : SameConsole s (readFlag s).2 := by
  obtain ⟨n, h⟩ := readFlag_frame s
  rw [h]; exact ⟨rfl, rfl⟩

theorem sameConsole_readWord (a : Word) (s : State) : SameConsole s (readWord a s).2 := by
  obtain ⟨ready, latch, ch, n, h⟩ := readWord_frame a s
  rw [h]; exact ⟨rfl, rfl⟩

/-- A data read, followed by something that leaves the console. -/
theorem sameConsole_memRead {w a : Word} {f : Word → State → State}
    (h : SameConsole (readWord a s).2 (f (readWord a s).1 (readWord a s).2)) :
    SameConsole s ((memRead w a s).andThen f) := by
  rcases memRead_elim (w := w) (a := a) (s := s) f with ⟨-, he⟩ | ⟨-, he⟩ <;> rw [he]
  · exact ⟨rfl, rfl⟩
  · exact (sameConsole_readWord a s).trans h

theorem sameConsole_loadInto (w ea : Word) (dr : Reg) (s : State) : SameConsole s (loadInto w ea dr s) :=
  sameConsole_memRead ⟨rfl, rfl⟩

theorem sameConsole_memWrite (w a v : Word) (s : State) : SameConsole s (memWrite w a v s) := by
  rcases memWrite_cases w a v s with ⟨-, -, -, h⟩ | ⟨-, -, h⟩ | ⟨-, h⟩ <;> rw [h] <;> exact ⟨rfl, rfl⟩

theorem sameConsole_jumpThrough (base : Reg) (s : State) : SameConsole s (jumpThrough base s) :=
  sameConsole_readReg base s

theorem sameConsole_getcRoutine (w : Word) (s : State) : SameConsole s (getcRoutine w s) := by
  unfold getcRoutine
  rcases takeChar_elim .getc w s (fun c s' => deliverChar .getc w c s')
    with ⟨c, u, -, -, ho, hw, -, h⟩ | ⟨-, -, h⟩ <;> rw [h]
  · exact ⟨ho, hw⟩
  · exact ⟨rfl, rfl⟩

/-- Only TRAP and its routines but GETC write to the console. -/
theorem sameConsole_exec (h : exec i s = .next t) (hi : isConsole i = false) : SameConsole s t := by
  have two : ∀ a b, SameConsole s (readReg b (readReg a s).2).2 :=
    fun a b => (sameConsole_readReg a s).trans (sameConsole_readReg b _)
  cases i with
  | addReg dr a b _ => cases h; exact two a b
  | addImm dr a _ => cases h; exact sameConsole_readReg a s
  | andReg dr a b _ => cases h; exact two a b
  | andImm dr a _ => cases h; exact sameConsole_readReg a s
  | not dr a _ => cases h; exact sameConsole_readReg a s
  | br n z p off =>
    cases h
    split
    · exact sameConsole_readFlag s
    · exact sameConsole_readFlag s
  | jsr off => cases h; exact ⟨rfl, rfl⟩
  | jsrr base _ _ =>
    cases h
    split
    · exact sameConsole_readReg base s
    · exact sameConsole_readReg base (setReg 7 s.pc s)
  | jmp base _ _ => cases h; exact sameConsole_jumpThrough base s
  | ret _ _ => cases h; exact sameConsole_jumpThrough 7 s
  | ld dr off => cases h; exact sameConsole_loadInto _ _ _ _
  | ldi dr off => cases h; exact sameConsole_memRead (sameConsole_loadInto _ _ _ _)
  | ldr dr base off => cases h; exact (sameConsole_readReg base s).trans (sameConsole_loadInto _ _ _ _)
  | lea dr off => cases h; exact ⟨rfl, rfl⟩
  | st sr off => cases h; exact (sameConsole_readReg sr s).trans (sameConsole_memWrite _ _ _ _)
  | sti sr off =>
    cases h
    exact (sameConsole_readReg sr s).trans (sameConsole_memRead (sameConsole_memWrite _ _ _ _))
  | str sr base off => cases h; exact (two sr base).trans (sameConsole_memWrite _ _ _ _)
  | getc _ => cases h; exact sameConsole_getcRoutine _ _
  | rti _ => cases h; exact ⟨rfl, rfl⟩
  | reserved _ => cases h; exact ⟨rfl, rfl⟩
  | trap _ _ | out _ | puts _ | input _ | putsp _ | halt _ => simp [isConsole] at hi

/-! ### What a move keeps -/

/-- No move starts, resumes or runs anything after the end of the run: the producer alone has one. -/
theorem Moved.ended (h : Moved s t) (he : runEnded s = true) :
    t = { s with inputStream := t.inputStream, producerStopped := t.producerStopped } := by
  have running : s.run ≠ .running := fun r => by simp [runEnded_of_run_running r] at he
  cases h with
  | idle e => subst e; rfl
  | instr _ _ r => exact absurd r running
  | programEnd r => exact absurd r running
  | fetchFault r => exact absurd r running
  | resume _ _ _ _ r => exact absurd r running
  | delivers _ _ _ _ r => simp [he] at r
  | sendFails c rest p h r e => subst e; rfl
  | starts r => simp [runEnded_of_run_notStarted r] at he

theorem Moved.output (h : Moved s t) : s.output <+: t.output := by
  cases h with
  | idle e => subst e; exact List.prefix_refl _
  | instr w x r n f hx e => subst e; rw [dropReceiver_output]; exact (exec_cases hx).output
  | programEnd r n p e => subst e; rw [dropReceiver_output]; exact List.prefix_refl _
  | fetchFault r n f e => subst e; rw [dropReceiver_output]; exact List.prefix_refl _
  | resume routine w c rest r n h e =>
    subst e
    rw [dropReceiver_output]
    exact (deliverChar_eq routine w c { s with channel := rest, wait := .none }).output
  | delivers c rest p h r e => subst e; exact List.prefix_refl _
  | sendFails c rest p h r e => subst e; exact List.prefix_refl _
  | starts r e => subst e; exact List.prefix_refl _

end Sys2Proof.Machine
end

section
/-! SUPPORT. Every move keeps the invariant (10_state.md R31, R39; 20_memory.md R52, R68; 60_exceptions.md R171,
R172). A move of the core ends in `dropReceiver`, so for it three things are shown of the state before that: memory,
the wait and the fault record. -/

namespace Sys2Proof.Machine

variable {s t : State}

/-! ### What each part of the invariant rests on -/

theorem fetch_congr (hm : t.mem = s.mem) (hc : t.instructionCount = s.instructionCount) (a : Word) :
    fetch a t = fetch a s := by
  simp [fetch, inImage_congr hc, hm]

theorem memoryInv_congr (hm : t.mem = s.mem) (hc : t.instructionCount = s.instructionCount) (h : memoryInv s) :
    memoryInv t := by
  obtain ⟨hwf, hcount, hlisted⟩ := h
  refine ⟨hm ▸ hwf, hc ▸ hcount, fun c hcell => ?_⟩
  rw [inImage_congr hc]
  exact hlisted c (hm ▸ hcell)

/-- A write of a word of the loaded range keeps memory as the invariant says. -/
theorem memoryInv_write {a v : Word} (ha : inImage s a = true) (hm : t.mem = s.mem.write a.toNat v)
    (hc : t.instructionCount = s.instructionCount) (h : memoryInv s) : memoryInv t := by
  obtain ⟨hwf, hcount, hlisted⟩ := h
  refine ⟨hm ▸ Memory.write_word_wf hwf a v, hc ▸ hcount, fun c hcell => ?_⟩
  rw [inImage_congr hc]
  rw [hm] at hcell
  rcases Memory.mem_write hcell with hold | ⟨rfl, -⟩
  · exact hlisted c hold
  · simpa using ha

theorem waitInv_of_none (h : s.wait = .none) : waitInv s = true := by
  simp [waitInv, h]

theorem waitInv_iff {routine : InputRoutine} {w : Word} (h : s.wait = .waitingInput routine w) :
    waitInv s = true ↔ s.run = .running ∧ s.kbReady = false ∧ fetch (s.pc - 1#16) s = some w := by
  simp [waitInv, h, and_assoc]

/-- A core that is not running does not wait. -/
theorem wait_eq_none (h : waitInv s = true) (hr : s.run ≠ .running) : s.wait = .none := by
  cases hw : s.wait with
  | none => rfl
  | waitingInput routine w => exact absurd ((waitInv_iff hw).1 h).1 hr

/-- Without a fault record there is nothing to say of one. -/
theorem faultInv_of_not_faulted (h : ∀ r, s.run ≠ .faulted r) : faultInv s = true := by
  unfold faultInv
  split
  · next r hr => exact absurd hr (h r)
  all_goals rfl

/-- The record of an instruction's fault, with pc one past it. -/
theorem faultInv_instrRecord {k : FaultKind} {i : FaultInfo} {w : Word}
    (hr : s.run = .faulted (instrRecord k i w s)) (hi : infoFits s k i = true) (hk : k ≠ .fetchOutOfRange)
    (hf : fetch (s.pc - 1#16) s = some w) : faultInv s = true := by
  simp [faultInv, hr, instrRecord, hi, hk, hf]

/-- The record of a failed fetch, with pc at its address. -/
theorem faultInv_fetchOutOfRange (hf : fetch s.pc s = none) :
    faultInv (raise { kind := .fetchOutOfRange, addr := s.pc, word := none, info := .nothing } s) = true := by
  have hi : inImage (raise { kind := .fetchOutOfRange, addr := s.pc, word := none, info := .nothing } s) s.pc = false :=
    (inImage_congr (raise_instructionCount s _) s.pc).trans (fetch_eq_none.1 hf)
  simp [faultInv, infoFits, hi]

/-- Before the end of the run the producer has not stopped. -/
theorem not_producerStopped (h : Inv s) (hr : runEnded s = false) : s.producerStopped = false := by
  obtain ⟨-, -, -, -, hstop⟩ := h
  cases hp : s.producerStopped
  · rfl
  · exact absurd (hstop hp) (by simp [hr])

/-! ### The end of a move of the core -/

/-- The end of a move keeps every part of the invariant and gives the last: an empty channel after the end of the
run. -/
theorem inv_dropReceiver (hm : memoryInv s) (hw : waitInv s = true) (hf : faultInv s = true)
    (hp : s.producerStopped = false) : Inv (dropReceiver s) := by
  obtain ⟨ch, h, hch⟩ := dropReceiver_frame s
  rw [h]
  exact ⟨hm, hw, hf, hch, fun hstop => absurd (hp.symm.trans hstop) (by decide)⟩

/-- The wait after an instruction. A new one has the word before pc, since pc and memory are then as they were. -/
theorem Ends.waitInv {w : Word} (e : Ends w s t) (hc : t.instructionCount = s.instructionCount)
    (hr : s.run = .running) (hw : s.wait = .none) (hf : fetch (s.pc - 1#16) s = some w) :
    Machine.waitInv t = true := by
  rcases e.wait with h | ⟨routine, h, hrun, hk⟩
  · exact waitInv_of_none (h.trans hw)
  · obtain ⟨hpc, hm⟩ := e.still.resolve_left fun ⟨_, h'⟩ => by simp [h, hw] at h'
    refine (waitInv_iff h).2 ⟨hrun.trans hr, hk, ?_⟩
    rw [hpc, fetch_congr hm hc]
    exact hf

/-- The fault record after an instruction. It names the word before pc, since pc and memory are then as they
were. -/
theorem Ends.faultInv {w : Word} (e : Ends w s t) (hc : t.instructionCount = s.instructionCount)
    (hr : s.run = .running) (hf : fetch (s.pc - 1#16) s = some w) : Machine.faultInv t = true := by
  rcases e.run with h | h | ⟨k, i, h, hi, hk⟩
  · exact faultInv_of_not_faulted fun r => by simp [h, hr]
  · exact faultInv_of_not_faulted fun r => by simp [h]
  · obtain ⟨hpc, hm⟩ := e.still.resolve_left fun ⟨h', _⟩ => by simp [h, hr] at h'
    have hrecord : instrRecord k i w t = instrRecord k i w s := by simp [instrRecord, hpc]
    refine faultInv_instrRecord (hrecord ▸ h) ((infoFits_congr hc k i).trans hi) hk ?_
    rw [hpc, fetch_congr hm hc]
    exact hf

/-- The instruction `w` at pc - 1, run by a core that goes on, ends in a state of the invariant. -/
theorem Ends.inv {w : Word} (e : Ends w s t) (hm : memoryInv t) (hc : t.instructionCount = s.instructionCount)
    (hr : s.run = .running) (hw : s.wait = .none) (hf : fetch (s.pc - 1#16) s = some w)
    (hp : t.producerStopped = false) : Inv (dropReceiver t) :=
  inv_dropReceiver hm (e.waitInv hc hr hw hf) (e.faultInv hc hr hf) hp

/-! ### The moves -/

theorem Did.memoryInv {i : Instr} (h : Did i s t) (hm : Machine.memoryInv s) : Machine.memoryInv t := by
  rcases h.mem with hmem | ⟨-, a, v, ha, hmem⟩
  · exact memoryInv_congr hmem h.instructionCount hm
  · exact memoryInv_write ha hmem h.instructionCount hm

/-- The word fetched is the one before the incremented pc. -/
theorem fetch_setPc_succ {w : Word} (hf : fetch s.pc s = some w) :
    fetch ((setPc (s.pc + 1#16) s).pc - 1#16) (setPc (s.pc + 1#16) s) = some w := by
  rw [setPc_pc, BitVec.add_sub_cancel]
  exact hf

theorem inv_instr {w : Word} (h : Inv s) (hr : s.run = .running) (hw : s.wait = .none) (hf : fetch s.pc s = some w)
    (hx : exec (decode w) (setPc (s.pc + 1#16) s) = .next t) : Inv (dropReceiver t) := by
  have hp := not_producerStopped h (runEnded_of_run_running hr)
  obtain ⟨hm, -⟩ := h
  have did := exec_cases hx
  have ends : Ends w (setPc (s.pc + 1#16) s) t := encode_decode w ▸ exec_ends hx
  obtain ⟨-, hstop, -, -⟩ := did.sameEnvironment
  exact ends.inv (did.memoryInv hm) did.instructionCount hr hw (fetch_setPc_succ hf) (hstop.trans hp)

theorem inv_resume {routine : InputRoutine} {w : Word} (c : Byte) (rest : List Byte) (h : Inv s)
    (hw : s.wait = .waitingInput routine w) :
    Inv (dropReceiver (deliverChar routine w c { s with channel := rest, wait := .none })) := by
  have ⟨hm, hwait, _⟩ := h
  obtain ⟨hr, -, hf⟩ := (waitInv_iff hw).1 hwait
  have hp := not_producerStopped h (runEnded_of_run_running hr)
  have q := deliverChar_eq routine w c { s with channel := rest, wait := .none }
  exact (ends_deliverChar routine w c _).inv (memoryInv_congr q.mem q.instructionCount hm) q.instructionCount hr rfl hf
    (q.producerStopped.trans hp)

theorem inv_fetchFault (h : Inv s) (hr : s.run = .running) (hw : s.wait = .none) (hf : fetch s.pc s = none) :
    Inv (dropReceiver (raise { kind := .fetchOutOfRange, addr := s.pc, word := none, info := .nothing } s)) := by
  have hp := not_producerStopped h (runEnded_of_run_running hr)
  obtain ⟨hm, -⟩ := h
  exact inv_dropReceiver hm (waitInv_of_none hw) (faultInv_fetchOutOfRange hf) hp

theorem inv_haltRun (reason : HaltReason) (h : Inv s) (hr : s.run = .running) (hw : s.wait = .none) :
    Inv (dropReceiver (haltRun reason s)) := by
  have hp := not_producerStopped h (runEnded_of_run_running hr)
  obtain ⟨hm, -⟩ := h
  exact inv_dropReceiver hm (waitInv_of_none hw) (faultInv_of_not_faulted nofun) hp

/-- The producer sends only before the end of the run. -/
theorem inv_delivers (c : Byte) (rest : InputStream) (h : Inv s) (hr : runEnded s = false) :
    Inv { s with channel := s.channel ++ [c], inputStream := rest } := by
  obtain ⟨hm, hwait, hfault, -, hstop⟩ := h
  exact ⟨hm, hwait, hfault, fun he => absurd (hr.symm.trans he) (by decide), hstop⟩

/-- The producer stops only after the end of the run. -/
theorem inv_sendFails (h : Inv s) (hr : runEnded s = true) :
    Inv { s with producerStopped := true, inputStream := ⟨[], none⟩ } := by
  obtain ⟨hm, hwait, hfault, hch, -⟩ := h
  exact ⟨hm, hwait, hfault, hch, fun _ => hr⟩

/-- A core that is not started does not wait, and its producer has not stopped. -/
theorem inv_starts (h : Inv s) (hr : s.run = .notStarted) : Inv { s with run := .running } := by
  have hp := not_producerStopped h (runEnded_of_run_notStarted hr)
  obtain ⟨hm, hwait, -⟩ := h
  have hw : s.wait = .none := wait_eq_none hwait (by simp [hr])
  exact ⟨hm, waitInv_of_none hw, rfl, nofun, fun hstop => absurd (hp.symm.trans hstop) (by decide)⟩

/-- Every move keeps the invariant. -/
theorem Moved.inv (h : Moved s t) (hs : Inv s) : Inv t := by
  cases h with
  | idle e => exact e ▸ hs
  | instr w x r n f hx e => exact e ▸ inv_instr hs r n f hx
  | programEnd r n p e => exact e ▸ inv_haltRun .endOfProgram hs r n
  | fetchFault r n f e => exact e ▸ inv_fetchFault hs r n f
  | resume routine w c rest r n h e => exact e ▸ inv_resume c rest hs n
  | delivers c rest p h r e => exact e ▸ inv_delivers c rest hs r
  | sendFails c rest p h r e => exact e ▸ inv_sendFails hs r
  | starts r e => exact e ▸ inv_starts hs r

/-- The invariant says nothing of the schedule. -/
theorem inv_popTurn (h : Inv s) : Inv (popTurn s) := h

end Sys2Proof.Machine
end

section
/-! The statements of 10_state.md. -/

namespace Sys2Proof.Machine

/-- Settles O51: a step is one move with its turn taken off the schedule, and every move keeps the invariant. -/
theorem stepKeepsTheInvariant : Obligations.StepKeepsTheInvariant :=
  fun _ _ hs h => (step_cases h).inv (inv_popTurn hs)

/-- Settles O9, by the cases of what an instruction can do. -/
theorem flagWrittenByExactlySeven : Obligations.FlagWrittenByExactlySeven :=
  fun _ _ _ h => ⟨(exec_cases h).sameFlag, fun _ hd hr => (exec_cases h).flagOrFault hd hr⟩

/-- Settles O10, by the cases of what an instruction can do. -/
theorem registersWrittenOnlyByTheirInstructions : Obligations.RegistersWrittenOnlyByTheirInstructions :=
  fun _ _ _ h => ⟨(exec_cases h).sameRegs, fun _ hr => (exec_cases h).marked hr⟩

/-- Settles O19, by the cases of what an instruction can do. -/
theorem onlyControlTransfersWritePc : Obligations.OnlyControlTransfersWritePc :=
  fun _ _ _ h => ⟨(exec_cases h).pc, (exec_cases h).sameEnvironment⟩

/-- Settles O30: an instruction leaves memory, or is a store. -/
theorem onlyStoresChangeMemory : Obligations.OnlyStoresChangeMemory := by
  intro i s t h hi
  rcases (exec_cases h).mem with hm | ⟨hstore, -⟩
  · exact hm
  · simp [hi] at hstore

/-- Settles O47: of an ended run only the producer has a move. -/
theorem anEndedRunStaysAsItIs : Obligations.AnEndedRunStaysAsItIs :=
  fun s _ he h => (step_cases h).ended (s := popTurn s) he

/-- Settles O48: each move extends the output, and no instruction outside TRAP's rows reaches the console. -/
theorem outputOnlyGrows : Obligations.OutputOnlyGrows :=
  ⟨rfl, fun _ _ h => (step_cases h).output, fun _ _ _ => sameConsole_exec⟩

/-- Settles O7, by the laws of `readReg` and `setReg`. -/
theorem registerReadsAndWrites : Obligations.RegisterReadsAndWrites :=
  ⟨fun _ _ => readReg_written, fun _ _ => readReg_unwritten, fun r _ v s =>
    ⟨readReg_setReg_same r v s, .of_set (List.mem_singleton_self r) rfl rfl, fun hq => readReg_setReg_other hq v s⟩⟩

/-- Settles O8: `setcc` writes `flagOf` of the word, and marks the flag set. -/
theorem setccSetsTheFlag : Obligations.SetccSetsTheFlag := by
  intro v s
  refine ⟨fun h => ?zero, fun h hb => ?neg, fun h hb => ?pos⟩
  case zero => rw [setcc_eq, h, flagOf_zero]
  case neg => rw [setcc_eq, flagOf_neg h hb]
  case pos => rw [setcc_eq, flagOf_pos h hb]

/-- Settles O44: the core's move is an iteration, which runs the word it fetches at pc. -/
theorem stepRunsTheDecodedInstruction : Obligations.StepRunsTheDecodedInstruction := by
  intro s ht hr hw hi
  have hf : fetch (popTurn s).pc (popTurn s) = some (s.mem.read s.pc.toNat) := fetch_eq_some.2 ⟨hi, rfl⟩
  obtain ⟨t, h⟩ := exec_next (decode (s.mem.read s.pc.toNat)) (setPc ((popTurn s).pc + 1#16) (popTurn s))
  refine ⟨t, h, ?_⟩
  rw [step_core ht, coreTurn_running (s := popTurn s) hr hw, iteration_fetched hf, h]
  rfl

/-- Settles O45: outside the loaded range the iteration halts at program_end, and fails to fetch elsewhere. -/
theorem pcOutsideTheProgramEndsTheRun : Obligations.PcOutsideTheProgramEndsTheRun := by
  intro s ht hr hw hi
  rw [step_core ht, coreTurn_running (s := popTurn s) hr hw]
  constructor
  · intro hp
    rw [iteration_programEnd (s := popTurn s) hp]
    rfl
  · intro hp
    rw [iteration_unfetched (s := popTurn s) hp (fetch_eq_none.2 hi)]
    rfl

/-- Settles O55: the start turn's two cases, and the core's move before the start. -/
theorem startRequestStartsTheRun : Obligations.StartRequestStartsTheRun := by
  refine fun s => ⟨fun ht hr => ?starts, fun ht hr => ?started, fun ht hr => ?notStarted⟩
  case starts => rw [step_start ht, startTurn_notStarted (s := popTurn s) hr]; rfl
  case started => rw [step_start ht, startTurn_started (s := popTurn s) hr]; rfl
  case notStarted => rw [step_core ht, coreTurn_notStarted (s := popTurn s) hr]; rfl

end Sys2Proof.Machine
end

section
/-! SUPPORT. Data reads, data writes and fetches by their address (20_memory.md R51 to R57, R65), the host's listing
(R69), and what no step changes (R52). -/

namespace Sys2Proof.Machine

/-! ### The loaded range -/

theorem inImage_iff {s : State} {a : Word} :
    inImage s a = true ↔ 0x3000 ≤ a.toNat ∧ a.toNat < (programEnd s).toNat := by
  simp [inImage, programStart]

theorem readable_of_inImage {s : State} {a : Word} (h : inImage s a = true) : readable s a = true := by
  simp [readable, h]

theorem readable_eq_false {s : State} {a : Word} :
    readable s a = false ↔ inImage s a = false ∧ a ≠ kbsrAddr ∧ a ≠ kbdrAddr := by
  simp [readable, and_assoc]

/-- Up to the capacity, `program_end` does not wrap. -/
theorem toNat_programEnd {s : State} (h : s.instructionCount ≤ programCapacity) :
    (programEnd s).toNat = 0x3000 + s.instructionCount := by
  simp only [programEnd, programStart, programCapacity, BitVec.toNat_add, BitVec.toNat_ofNat] at *
  omega

theorem programSlice_length (s : State) : (programSlice s).length = (programEnd s).toNat - 0x3000 := by
  simp [programSlice, programStart]

theorem programSlice_getElem (s : State) (k : Nat) (h : k < (programSlice s).length) :
    (programSlice s)[k] = s.mem.read (0x3000 + k) := by
  simp [programSlice, programStart]

/-! ### Reads -/

theorem readWord_kbsr (s : State) : readWord kbsrAddr s = kbsrRead s := if_pos rfl

theorem readWord_kbdr (s : State) : readWord kbdrAddr s = kbdrRead s := by simp [readWord, kbdrAddr, kbsrAddr]

theorem readable_kbsr (s : State) : readable s kbsrAddr = true := by simp [readable]

theorem readable_kbdr (s : State) : readable s kbdrAddr = true := by simp [readable]

theorem kbsrRead_ready {s : State} (h : s.kbReady = true) : kbsrRead s = (kbsrReady s.params, s) := by
  simp [kbsrRead, h]

theorem kbsrRead_latches {s : State} {c : Byte} {rest : List Byte} (h : s.kbReady = false)
    (hc : s.channel = c :: rest) :
    kbsrRead s = (kbsrReady s.params, { s with kbReady := true, kbLatch := c, channel := rest }) := by
  simp [kbsrRead, h, hc]

theorem kbsrRead_empty {s : State} (h : s.kbReady = false) (hc : s.channel = []) :
    kbsrRead s = (kbsrNotReady s.params, s) := by
  simp [kbsrRead, h, hc]

theorem kbdrRead_ready {s : State} (h : s.kbReady = true) :
    kbdrRead s = (zext s.kbLatch, { s with kbReady := false }) := by
  simp [kbdrRead, h, zext]

theorem kbdrRead_free {s : State} (h : s.kbReady = false) :
    kbdrRead s = (zext (Config.freeByte s.draws), { s with draws := s.draws + 1 }) := by
  simp [kbdrRead, h, zext]

theorem toNat_zext_byte (c : Byte) : (zext c).toNat = c.toNat := toNat_zext c (by decide)

theorem kbsrReady_bit15 (p : Params) : (kbsrReady p).getLsbD 15 = true := by
  rw [kbsrReady, BitVec.getLsbD_append]; rfl

theorem kbsrNotReady_bit15 (p : Params) : (kbsrNotReady p).getLsbD 15 = false := by
  rw [kbsrNotReady, BitVec.getLsbD_append]; rfl

/-! ### Stores -/

theorem exec_st (sr : Reg) (off9 : BitVec 9) (s : State) : exec (.st sr off9) s =
    .next (memWrite (encode (.st sr off9)) (s.pc + sext off9) (readReg sr s).1 (readReg sr s).2) := by
  simp only [exec, execSt, pcRelative, readReg_pc]

theorem exec_str (sr base : Reg) (off6 : BitVec 6) (s : State) : exec (.str sr base off6) s =
    .next (memWrite (encode (.str sr base off6)) ((readReg base (readReg sr s).2).1 + sext off6) (readReg sr s).1
      (readReg base (readReg sr s).2).2) := rfl

/-- STI reads its pointer, and stores where it points. -/
theorem exec_sti {sr : Reg} {off9 : BitVec 9} {s : State} (h : readable s (s.pc + sext off9) = true) :
    exec (.sti sr off9) s =
      .next (memWrite (encode (.sti sr off9)) (readWord (s.pc + sext off9) (readReg sr s).2).1 (readReg sr s).1
        (readWord (s.pc + sext off9) (readReg sr s).2).2) := by
  have hr : readable (readReg sr s).2 (s.pc + sext off9) = true := (readable_readReg sr s _).trans h
  simp only [exec, execSti, indirect, pcRelative, readReg_pc, memRead_readable hr, Res.andThen_ok]

/-- A store to a keyboard register, from a state `u` that reading the operands in `s` led to. -/
theorem memWrite_policy {w a v : Word} {s u : State} (q : Quiet s u) (h : a = kbsrAddr ∨ a = kbdrAddr) :
    memWrite w a v u = match s.params.mmioWritePolicy with
      | .discard => u
      | .fault => faultedWith (instrRecord .memoryWriteOutOfRange (.address a) w s) u := by
  rw [memWrite_keyboard h, q.params]
  cases s.params.mmioWritePolicy
  · rfl
  · exact raiseInstr_eq q.pc

/-! ### What no step changes -/

/-- The parameters, the loaded range and every word outside it are as they were. -/
structure SameOutsideProgram (s t : State) : Prop where
  params : t.params = s.params
  instructionCount : t.instructionCount = s.instructionCount
  read : ∀ a : Word, inImage s a = false → t.mem.read a.toNat = s.mem.read a.toNat

theorem SameOutsideProgram.of_quiet {s t : State} (q : Quiet s t) : SameOutsideProgram s t :=
  ⟨q.params, q.instructionCount, fun _ _ => by rw [q.mem]⟩

/-- An instruction writes to the loaded range alone. -/
theorem Did.sameOutsideProgram {i : Instr} {s t : State} (h : Did i s t) : SameOutsideProgram s t := by
  obtain ⟨-, -, -, hparams⟩ := h.sameEnvironment
  refine ⟨hparams, h.instructionCount, fun b hb => ?_⟩
  rcases h.mem with hm | ⟨-, a, v, ha, hm⟩
  · rw [hm]
  · have hne : b ≠ a := by rintro rfl; simp [ha] at hb
    rw [hm, Memory.read_write_other _ _ fun e => hne (BitVec.eq_of_toNat_eq e)]

theorem SameOutsideProgram.dropReceiver {s t : State} (h : SameOutsideProgram s t) :
    SameOutsideProgram s (dropReceiver t) := by
  obtain ⟨ch, e, -⟩ := dropReceiver_frame t
  rw [e]
  exact ⟨h.params, h.instructionCount, h.read⟩

theorem Moved.sameOutsideProgram {s t : State} (h : Moved s t) : SameOutsideProgram s t := by
  cases h with
  | idle e => subst e; exact .of_quiet (Quiet.refl _)
  | instr w x r n f hx e =>
    subst e
    obtain ⟨hp, hc, hm⟩ := (exec_cases hx).sameOutsideProgram
    exact SameOutsideProgram.dropReceiver ⟨hp, hc, hm⟩
  | programEnd r n p e => subst e; exact (SameOutsideProgram.of_quiet (quiet_haltRun _ s)).dropReceiver
  | fetchFault r n f e => subst e; exact (SameOutsideProgram.of_quiet (quiet_raise _ s)).dropReceiver
  | resume routine w c rest r n h e =>
    subst e
    have q := deliverChar_eq routine w c { s with channel := rest, wait := .none }
    exact SameOutsideProgram.dropReceiver ⟨q.params, q.instructionCount, fun _ _ => by rw [q.mem]; rfl⟩
  | delivers c rest p h r e => subst e; exact ⟨rfl, rfl, fun _ _ => rfl⟩
  | sendFails c rest p h r e => subst e; exact ⟨rfl, rfl, fun _ _ => rfl⟩
  | starts r e => subst e; exact ⟨rfl, rfl, fun _ _ => rfl⟩

end Sys2Proof.Machine
end

section
/-! SUPPORT. What a word reads as is well-formed (30_encoding.md R84, R86). -/

namespace Sys2Proof

theorem wellFormed_decodeTrap (w : Word) : (decodeTrap w).wellFormed = true := by
  simp only [decodeTrap]
  split_ifs with h1 h2 h3 h4 h5 h6
  case neg => simp [Instr.wellFormed, trapVectors, h1, h2, h3, h4, h5, h6]
  all_goals rfl

theorem wellFormed_decode (w : Word) : (decode w).wellFormed = true := by
  unfold decode
  cases opcodeOf w
  case add | and | jsr => dsimp only; split <;> rfl
  case jmp =>
    dsimp only
    split
    · rfl
    · next h => exact bne_iff_ne.2 h
  case trap => exact wellFormed_decodeTrap w
  all_goals rfl

end Sys2Proof
end

section
/-! SUPPORT. What becomes of the characters that reached the core (20_memory.md R55, R62, R67; 43_trap.md R150): an
operation holds them all, or takes the oldest. -/

namespace Sys2Proof.Machine

/-! ### Holding and taking -/

/-- From `s` to `t` the undelivered characters are the same, and a latched one is still latched. -/
structure Holds (s t : State) : Prop where
  buffered : buffered t = buffered s
  ready : s.kbReady = true → t.kbReady = true

/-- From `s` to `t` all characters are held, or the oldest, `c`, is taken, with `P c t`. -/
def HoldsOrTakes (P : Byte → State → Prop) (s t : State) : Prop :=
  Holds s t ∨ ∃ c, buffered s = c :: buffered t ∧ P c t

variable {s t u : State} {P Q : Byte → State → Prop}

theorem Holds.refl (s : State) : Holds s s := ⟨rfl, id⟩

theorem Holds.trans (h : Holds s t) (g : Holds t u) : Holds s u :=
  ⟨g.buffered.trans h.buffered, fun hr => g.ready (h.ready hr)⟩

theorem SameKeyboard.holds (h : SameKeyboard s t) : Holds s t := by
  obtain ⟨hready, hlatch, hchannel⟩ := h
  exact ⟨by simp [buffered, hready, hlatch, hchannel], fun hr => hready.trans hr⟩

theorem HoldsOrTakes.after (h : Holds s t) (g : HoldsOrTakes P t u) : HoldsOrTakes P s u := by
  rcases g with g | ⟨c, hc, hp⟩
  · exact .inl (h.trans g)
  · exact .inr ⟨c, h.buffered.symm.trans hc, hp⟩

/-- What holds every character after one was taken. -/
theorem HoldsOrTakes.before {c : Byte} (h : HoldsOrTakes (fun d _ => d = c) s t) (g : Holds t u) (hp : P c u) :
    HoldsOrTakes P s u := by
  rcases h with h | ⟨_, hc, rfl⟩
  · exact .inl (h.trans g)
  · exact .inr ⟨_, hc.trans (by rw [g.buffered]), hp⟩

theorem HoldsOrTakes.mono (h : HoldsOrTakes P s t) (hpq : ∀ c t, P c t → Q c t) : HoldsOrTakes Q s t :=
  h.imp_right fun ⟨c, hc, hp⟩ => ⟨c, hc, hpq c t hp⟩

/-! ### Operations that hold every character -/

theorem holds_readReg (r : Reg) (s : State) : Holds s (readReg r s).2 := by
  obtain ⟨n, h⟩ := readReg_frame r s
  rw [h]
  exact SameKeyboard.holds ⟨rfl, rfl, rfl⟩

theorem holds_readFlag (s : State) : Holds s (readFlag s).2 := by
  obtain ⟨n, h⟩ := readFlag_frame s
  rw [h]
  exact SameKeyboard.holds ⟨rfl, rfl, rfl⟩

theorem holds_setReg (r : Reg) (v : Word) (s : State) : Holds s (setReg r v s) := SameKeyboard.holds ⟨rfl, rfl, rfl⟩

theorem holds_setRegFlag (r : Reg) (v : Word) (s : State) : Holds s (setRegFlag r v s) :=
  SameKeyboard.holds ⟨rfl, rfl, rfl⟩

theorem holds_setPc (a : Word) (s : State) : Holds s (setPc a s) := SameKeyboard.holds ⟨rfl, rfl, rfl⟩

theorem holds_raise (r : FaultRecord) (s : State) : Holds s (raise r s) := SameKeyboard.holds ⟨rfl, rfl, rfl⟩

theorem holds_raiseInstr (k : FaultKind) (i : FaultInfo) (w : Word) (s : State) : Holds s (raiseInstr k i w s) :=
  holds_raise _ s

theorem holds_haltRun (h : HaltReason) (s : State) : Holds s (haltRun h s) := SameKeyboard.holds ⟨rfl, rfl, rfl⟩

theorem holds_withOutput (bs : List Byte) (s : State) : Holds s (withOutput bs s) :=
  SameKeyboard.holds ⟨rfl, rfl, rfl⟩

theorem holds_memWrite (w a v : Word) (s : State) : Holds s (memWrite w a v s) := by
  rcases memWrite_cases w a v s with ⟨-, -, -, h⟩ | ⟨-, -, h⟩ | ⟨-, h⟩ <;> rw [h]
  · exact SameKeyboard.holds ⟨rfl, rfl, rfl⟩
  · exact Holds.refl s
  · exact holds_raiseInstr _ _ _ s

/-- A console write, followed by something that holds every character. -/
theorem holds_emit {w : Word} {b : Byte} {f : Unit → State → State}
    (h : Holds (withOutput [b] s) (f () (withOutput [b] s))) : Holds s ((emit w b s).andThen f) := by
  rcases emit_cases w b s with ⟨-, he⟩ | ⟨rest, -, he⟩ <;> rw [he]
  · exact (holds_withOutput [b] s).trans h
  · exact SameKeyboard.holds ⟨rfl, rfl, rfl⟩

/-- Console writes, followed by something that takes one character at most. -/
theorem emitAll_takes {w : Word} {bs : List Byte} {f : Unit → State → State}
    (h : HoldsOrTakes P (withOutput bs s) (f () (withOutput bs s))) :
    HoldsOrTakes P s ((emitAll w bs s).andThen f) := by
  rcases emitAll_cases w bs s with he | ⟨done, left, rest, -, he⟩ <;> rw [he]
  · exact h.after (holds_withOutput bs s)
  · exact .inl (SameKeyboard.holds ⟨rfl, rfl, rfl⟩)

theorem holds_operateReg (f : Word → Word → Word) (dr sr1 sr2 : Reg) (s : State) :
    Holds s (operateReg f dr sr1 sr2 s) :=
  ((holds_readReg sr1 s).trans (holds_readReg sr2 _)).trans (holds_setRegFlag _ _ _)

theorem holds_operateOne (f : Word → Word) (dr sr1 : Reg) (s : State) : Holds s (operateOne f dr sr1 s) :=
  (holds_readReg sr1 s).trans (holds_setRegFlag _ _ _)

theorem holds_jumpThrough (base : Reg) (s : State) : Holds s (jumpThrough base s) :=
  (holds_readReg base s).trans (holds_setPc _ _)

theorem holds_outRoutine (w : Word) (s : State) : Holds s (outRoutine w s) :=
  (holds_readReg 0 s).trans (holds_emit (Holds.refl _))

theorem holds_deliverChar (routine : InputRoutine) (w : Word) (c : Byte) (s : State) :
    Holds s (deliverChar routine w c s) := by
  cases routine
  · exact holds_setReg 0 _ s
  · exact (holds_setReg 0 _ s).trans (holds_emit (Holds.refl _))

/-! ### Data reads -/

theorem buffered_ready (h : s.kbReady = true) : buffered s = s.kbLatch :: s.channel := by simp [buffered, h]

theorem buffered_not_ready (h : s.kbReady = false) : buffered s = s.channel := by simp [buffered, h]

/-- The head of the channel is the oldest character when none is latched. -/
theorem buffered_head {c : Byte} {rest : List Byte} (hs : s.kbReady = false) (hc : s.channel = c :: rest)
    (hu : u.kbReady = false) (hr : u.channel = rest) : buffered s = c :: buffered u := by
  rw [buffered_not_ready hs, buffered_not_ready hu, hc, hr]

/-- A KBSR read may latch the oldest character, which stays the oldest (R54). -/
theorem holds_kbsrRead (s : State) : Holds s (kbsrRead s).2 := by
  rcases kbsrRead_cases s with ⟨-, h⟩ | ⟨-, -, h⟩ | ⟨c, rest, hr, hc, h⟩ <;> rw [h]
  · exact Holds.refl s
  · exact Holds.refl s
  · exact ⟨by rw [buffered_not_ready hr, hc]; rfl, fun _ => rfl⟩

/-- Only a read of KBDR takes a character. -/
theorem holds_readWord {a : Word} (h : a ≠ kbdrAddr) (s : State) : Holds s (readWord a s).2 := by
  by_cases hk : a = kbsrAddr
  · rw [hk, readWord_kbsr]; exact holds_kbsrRead s
  · rw [readWord_plain hk h]; exact Holds.refl s

/-- A read of KBDR gives a character, zero-extended: the one it takes, or a free one (R55). -/
theorem readWord_kbdr_takes (s : State) :
    ∃ c, (readWord kbdrAddr s).1 = zext c ∧ HoldsOrTakes (fun d _ => d = c) s (readWord kbdrAddr s).2 := by
  rw [readWord_kbdr]
  cases hr : s.kbReady with
  | true => rw [kbdrRead_ready hr]; exact ⟨_, rfl, .inr ⟨_, buffered_ready hr, rfl⟩⟩
  | false => rw [kbdrRead_free hr]; exact ⟨_, rfl, .inl (SameKeyboard.holds ⟨rfl, rfl, rfl⟩)⟩

/-! ### Loads, and pointers -/

theorem inRegister_setRegFlag (r : Reg) (c : Byte) (s : State) : inRegister r c (setRegFlag r (zext c) s) := by
  obtain ⟨hv, hm, -⟩ := setRegFlag_says r (zext c) s
  exact ⟨hv, hm⟩

/-- A load takes a character only from KBDR, into its register. -/
theorem loadInto_takes (w ea : Word) (dr : Reg) (s : State) :
    HoldsOrTakes (fun c t => ea = kbdrAddr ∧ inRegister dr c t) s (loadInto w ea dr s) := by
  rcases loadInto_cases w ea dr s with ⟨-, h⟩ | ⟨-, h⟩ <;> rw [h]
  · exact .inl (holds_raiseInstr _ _ _ s)
  · by_cases hk : ea = kbdrAddr
    · subst hk
      obtain ⟨c, hv, hread⟩ := readWord_kbdr_takes s
      rw [hv]
      exact hread.before (holds_setRegFlag _ _ _) ⟨rfl, inRegister_setRegFlag _ _ _⟩
    · exact .inl ((holds_readWord hk s).trans (holds_setRegFlag _ _ _))

/-- A character is no address of the program section or of the keyboard (R51). -/
theorem readable_zext (s : State) (c : Byte) : readable s (zext c) = false := by
  have hc : (zext c).toNat < 256 := (toNat_zext_byte c).trans_lt c.isLt
  refine readable_eq_false.2 ⟨Bool.eq_false_iff.2 fun h => ?_, fun h => ?_, fun h => ?_⟩
  · have := (inImage_iff.1 h).1; omega
  · rw [h] at hc; exact absurd hc (by decide)
  · rw [h] at hc; exact absurd hc (by decide)

/-- LDI and STI: a pointer read from KBDR is a character, and the access `f` to it faults with it as the address. -/
theorem pointer_takes {w a : Word} {f : Word → State → State}
    (access : HoldsOrTakes P (readWord a s).2 (f (readWord a s).1 (readWord a s).2))
    (bad : ∀ (c : Byte) u, ∃ k, f (zext c) u = raiseInstr k (.address (zext c)) w u) :
    HoldsOrTakes (fun c t => (a = kbdrAddr ∧ asPointer c t) ∨ P c t) s ((memRead w a s).andThen f) := by
  rcases memRead_elim (w := w) (a := a) (s := s) f with ⟨-, h⟩ | ⟨-, h⟩ <;> rw [h]
  · exact .inl (holds_raiseInstr _ _ _ s)
  · by_cases hk : a = kbdrAddr
    · subst hk
      obtain ⟨c, hv, hread⟩ := readWord_kbdr_takes s
      obtain ⟨k, hbad⟩ := bad c (readWord kbdrAddr s).2
      rw [hv, hbad]
      exact hread.before (holds_raiseInstr _ _ _ _) (.inl ⟨rfl, _, rfl, rfl⟩)
    · exact (access.mono fun c t hp => .inr hp).after (holds_readWord hk s)

/-! ### GETC and IN -/

/-- A character is taken, and delivered by something that holds all the others. -/
theorem takeChar_takes {routine : InputRoutine} {w : Word} {f : Byte → State → State}
    (h : ∀ c u, Holds u (f c u) ∧ P c (f c u)) : HoldsOrTakes P s ((takeChar routine w s).andThen f) := by
  have taken : ∀ c u, buffered s = c :: buffered u → HoldsOrTakes P s (f c u) := fun c u hb =>
    HoldsOrTakes.before (c := c) (.inr ⟨c, hb, rfl⟩) (h c u).1 (h c u).2
  rcases takeChar_cases routine w s with ⟨hr, he⟩ | ⟨c, rest, hr, hc, he⟩ | ⟨-, -, he⟩ <;> rw [he]
  · exact taken _ _ (buffered_ready hr)
  · exact taken _ _ (buffered_head hr hc hr rfl)
  · exact .inl (SameKeyboard.holds ⟨rfl, rfl, rfl⟩)

theorem inRegister_deliverChar (routine : InputRoutine) (w : Word) (c : Byte) (s : State) :
    inRegister 0 c (deliverChar routine w c s) := by
  have q := deliverChar_eq routine w c s
  exact ⟨by simp [q.regs], by simp [q.gprWritten]⟩

theorem takeAndDeliver_takes (routine : InputRoutine) (w : Word) (s : State) :
    HoldsOrTakes (inRegister 0) s ((takeChar routine w s).andThen fun c s' => deliverChar routine w c s') :=
  takeChar_takes fun c u => ⟨holds_deliverChar routine w c u, inRegister_deliverChar routine w c u⟩

/-! ### PUTS and PUTSP -/

theorem lowByte_zext (c : Byte) : lowByte (zext c) = c := by
  apply BitVec.eq_of_toNat_eq
  simpa [lowByte, zext] using c.isLt

theorem highByte_zext (c : Byte) : highByte (zext c) = 0#8 := by
  apply BitVec.eq_of_toNat_eq
  have := c.isLt
  simp [highByte, zext, Nat.shiftRight_eq_div_pow]
  omega

theorem zext_eq_zero {c : Byte} : zext c = 0#16 ↔ c = 0#8 := by
  rw [← BitVec.toNat_inj, ← BitVec.toNat_inj, toNat_zext_byte]
  rfl

/-- Behind a readable address a string does not come to KBDR: the word between KBSR and KBDR is not readable. -/
theorem succ_ne_kbdr {a : Word} (hc : s.instructionCount ≤ programCapacity) (h : readable s a = true) :
    a + 1#16 ≠ kbdrAddr := by
  intro e
  have ha : a = 0xFE01#16 := by rw [← BitVec.add_sub_cancel a 1#16, e]; rfl
  have hi : inImage s 0xFE01#16 = false := Bool.eq_false_iff.2 fun hi => by
    have := ((inImage_bounds hc).1 hi).2
    simp only [programCapacity, BitVec.toNat_ofNat] at *
    omega
  rw [ha, readable_eq_false.2 ⟨hi, by decide, by decide⟩] at h
  exact absurd h (by decide)

theorem unreadable_succ_kbdr (hc : s.instructionCount ≤ programCapacity) : readable s (kbdrAddr + 1#16) = false := by
  have hi : inImage s (kbdrAddr + 1#16) = false := Bool.eq_false_iff.2 fun hi => by
    have := ((inImage_bounds hc).1 hi).2
    simp only [programCapacity, kbdrAddr, BitVec.toNat_add, BitVec.toNat_ofNat] at *
    omega
  exact readable_eq_false.2 ⟨hi, by decide, by decide⟩

theorem putsFrom_unreadable {w a : Word} (n : Nat) (h : readable s a = false) :
    putsFrom w n a s = raiseInstr .memoryReadOutOfRange (.address a) w s := by
  cases n
  · rfl
  · simp only [putsFrom, memRead_unreadable h, Res.andThen_stop]

/-- A string that does not start at KBDR takes no character. -/
theorem holds_putsFrom (w : Word) (n : Nat) {a : Word} (hc : s.instructionCount ≤ programCapacity) (h : a ≠ kbdrAddr) :
    Holds s (putsFrom w n a s) := by
  induction n generalizing a s with
  | zero => exact holds_raiseInstr _ _ _ s
  | succ n ih =>
    cases hr : readable s a with
    | false => rw [putsFrom_unreadable _ hr]; exact holds_raiseInstr _ _ _ s
    | true =>
      simp only [putsFrom, memRead_readable hr, Res.andThen_ok]
      refine (holds_readWord h s).trans ?_
      split
      · exact Holds.refl _
      · exact holds_emit (ih ((quiet_readWord a s).instructionCount.trans_le hc) (succ_ne_kbdr hc hr))

theorem holds_putspFrom (w : Word) (n : Nat) {a : Word} (hc : s.instructionCount ≤ programCapacity) (h : a ≠ kbdrAddr) :
    Holds s (putspFrom w n a s) := by
  induction n generalizing a s with
  | zero => exact holds_raiseInstr _ _ _ s
  | succ n ih =>
    cases hr : readable s a with
    | false =>
      simp only [putspFrom, memRead_unreadable hr, Res.andThen_stop]
      exact holds_raiseInstr _ _ _ s
    | true =>
      simp only [putspFrom, memRead_readable hr, Res.andThen_ok]
      refine (holds_readWord h s).trans ?_
      split
      · exact Holds.refl _
      · refine holds_emit ?_
        split
        · exact Holds.refl _
        · exact holds_emit (ih ((quiet_readWord a s).instructionCount.trans_le hc) (succ_ne_kbdr hc hr))

/-- The console that a string writes to may be taken before the reads that lead to it. -/
theorem asString_congr {c : Byte} (h : SameConsole s u) (hs : asString c u t) : asString c s t := by
  obtain ⟨hout, hwrites⟩ := h
  simpa [asString, writesSucceed, hout, hwrites] using hs

/-- The zero character ends a string without output. -/
theorem asString_zero (s : State) : asString 0#8 s s := .inl (by simp)

/-- Any other is printed, by something that writes no more, or its write fails. -/
theorem asString_emit {c : Byte} {w : Word} {f : Unit → State → State} (h0 : c ≠ 0#8)
    (hf : (f () (withOutput [c] s)).output = s.output ++ [c]) : asString c s ((emit w c s).andThen f) := by
  rcases emit_cases w c s with ⟨-, he⟩ | ⟨rest, hfail, he⟩ <;> rw [he]
  · exact .inl (by rw [Res.andThen_ok, hf, if_neg h0])
  · exact .inr ⟨h0, by simp [writesSucceed, hfail], _, rfl, rfl⟩

/-- A string that starts at KBDR takes one character, and the word behind it is not readable. -/
theorem putsFrom_kbdr_takes (w : Word) (n : Nat) (hc : s.instructionCount ≤ programCapacity) :
    HoldsOrTakes (fun c t => asString c s t) s (putsFrom w (n + 1) kbdrAddr s) := by
  obtain ⟨c, hv, hread⟩ := readWord_kbdr_takes s
  have hcon := sameConsole_readWord kbdrAddr s
  simp only [putsFrom, memRead_readable (readable_kbdr s), Res.andThen_ok, hv, lowByte_zext, zext_eq_zero]
  split
  · next h0 => exact hread.before (Holds.refl _) (asString_congr hcon (h0 ▸ asString_zero _))
  · next h0 =>
    have hu : readable (withOutput [c] (readWord kbdrAddr s).2) (kbdrAddr + 1#16) = false :=
      unreadable_succ_kbdr ((quiet_readWord kbdrAddr s).instructionCount.trans_le hc)
    exact hread.before (holds_emit (by rw [putsFrom_unreadable n hu]; exact holds_raiseInstr _ _ _ _))
      (asString_congr hcon (asString_emit h0 (by rw [putsFrom_unreadable n hu]; rfl)))

/-- The same for a packed string, which the high byte of the character's word ends. -/
theorem putspFrom_kbdr_takes (w : Word) (n : Nat) (s : State) :
    HoldsOrTakes (fun c t => asString c s t) s (putspFrom w (n + 1) kbdrAddr s) := by
  obtain ⟨c, hv, hread⟩ := readWord_kbdr_takes s
  have hcon := sameConsole_readWord kbdrAddr s
  simp only [putspFrom, memRead_readable (readable_kbdr s), Res.andThen_ok, hv, lowByte_zext, highByte_zext, if_true]
  split
  · next h0 => exact hread.before (Holds.refl _) (asString_congr hcon (h0 ▸ asString_zero _))
  · next h0 => exact hread.before (holds_emit (Holds.refl _)) (asString_congr hcon (asString_emit h0 rfl))

/-- A loop over a string from R0 on, by what it does from KBDR and from anywhere else. -/
theorem string_takes {loop : Word → State → State} (hc : s.instructionCount ≤ programCapacity)
    (other : ∀ a u, u.instructionCount ≤ programCapacity → a ≠ kbdrAddr → Holds u (loop a u))
    (start : ∀ u, u.instructionCount ≤ programCapacity → HoldsOrTakes (fun c t => asString c u t) u (loop kbdrAddr u)) :
    HoldsOrTakes (fun c t => (readReg 0 s).1 = kbdrAddr ∧ asString c s t) s (loop (readReg 0 s).1 (readReg 0 s).2) := by
  have hcu := (quiet_readReg 0 s).instructionCount.trans_le hc
  refine HoldsOrTakes.after (holds_readReg 0 s) ?_
  by_cases hk : (readReg 0 s).1 = kbdrAddr
  · rw [hk]
    exact (start _ hcu).mono fun c t h => ⟨rfl, asString_congr (sameConsole_readReg 0 s) h⟩
  · exact .inl (other _ _ hcu hk)

theorem putsRoutine_takes (w : Word) (hc : s.instructionCount ≤ programCapacity) :
    HoldsOrTakes (fun c t => (readReg 0 s).1 = kbdrAddr ∧ asString c s t) s (putsRoutine w s) :=
  string_takes hc (fun _ _ => holds_putsFrom w 65536) fun _ => putsFrom_kbdr_takes w 65535

theorem putspRoutine_takes (w : Word) (hc : s.instructionCount ≤ programCapacity) :
    HoldsOrTakes (fun c t => (readReg 0 s).1 = kbdrAddr ∧ asString c s t) s (putspRoutine w s) :=
  string_takes hc (fun _ _ => holds_putspFrom w 65536) fun u _ => putspFrom_kbdr_takes w 65535 u

/-! ### Every instruction -/

theorem dispatchTrap_unknown {v : BitVec 8} {ign : BitVec 4} (w : Word) (s : State)
    (h : (Instr.trap v ign).wellFormed = true) :
    dispatchTrap v w s = raiseInstr .unknownTrapRoutine (.vector v) w s := by
  simp only [Instr.wellFormed, trapVectors, Bool.not_eq_true', List.contains_eq_mem, decide_eq_false_iff_not,
    List.mem_cons, List.not_mem_nil, or_false, not_or] at h
  obtain ⟨h0, h1, h2, h3, h4, h5⟩ := h
  simp [dispatchTrap, h0, h1, h2, h3, h4, h5]

/-- An instruction that a word reads as holds every character, or takes the oldest and delivers it. -/
theorem exec_takes {i : Instr} (hc : s.instructionCount ≤ programCapacity) (hw : i.wellFormed = true)
    (h : exec i s = .next t) : HoldsOrTakes (fun c t => takenBy c i s t) s t := by
  cases i with
  | addReg dr a b _ => cases h; exact .inl (holds_operateReg _ dr a b s)
  | addImm dr a _ => cases h; exact .inl (holds_operateOne _ dr a s)
  | andReg dr a b _ => cases h; exact .inl (holds_operateReg _ dr a b s)
  | andImm dr a _ => cases h; exact .inl (holds_operateOne _ dr a s)
  | not dr a _ => cases h; exact .inl (holds_operateOne _ dr a s)
  | br n z p off =>
    cases h
    split
    · exact .inl ((holds_readFlag s).trans (holds_setPc _ _))
    · exact .inl (holds_readFlag s)
  | jsr off => cases h; exact .inl ((holds_setReg 7 _ s).trans (holds_setPc _ _))
  | jsrr base _ _ =>
    cases h
    split
    · exact .inl (((holds_readReg base s).trans (holds_setReg 7 _ _)).trans (holds_setPc _ _))
    · exact .inl (((holds_setReg 7 s.pc s).trans (holds_readReg base _)).trans (holds_setPc _ _))
  | jmp base _ _ => cases h; exact .inl (holds_jumpThrough base s)
  | ret _ _ => cases h; exact .inl (holds_jumpThrough 7 s)
  | ld dr off => cases h; exact loadInto_takes _ _ dr s
  | ldi dr off =>
    cases h
    exact pointer_takes (loadInto_takes _ _ dr _) fun c u => ⟨_, loadInto_unreadable (readable_zext u c)⟩
  | ldr dr base off => cases h; exact (loadInto_takes _ _ dr _).after (holds_readReg base s)
  | lea dr off => cases h; exact .inl (holds_setRegFlag dr _ s)
  | st sr off => cases h; exact .inl ((holds_readReg sr s).trans (holds_memWrite _ _ _ _))
  | sti sr off =>
    cases h
    refine HoldsOrTakes.after (holds_readReg sr s) (HoldsOrTakes.mono (pointer_takes (P := fun _ _ => False)
      (.inl (holds_memWrite _ _ _ _)) fun c u => ⟨_, memWrite_unreadable (readable_zext u c)⟩) fun c t hp => ?_)
    rw [pcRelative, readReg_pc, or_false] at hp
    exact hp
  | str sr base off =>
    cases h
    exact .inl (((holds_readReg sr s).trans (holds_readReg base _)).trans (holds_memWrite _ _ _ _))
  | trap v ign => cases h; rw [dispatchTrap_unknown _ s hw]; exact .inl (holds_raiseInstr _ _ _ s)
  | getc _ => cases h; exact takeAndDeliver_takes .getc _ s
  | out _ => cases h; exact .inl (holds_outRoutine _ s)
  | puts _ => cases h; exact putsRoutine_takes _ hc
  | input _ => cases h; exact emitAll_takes (takeAndDeliver_takes .input _ _)
  | putsp _ => cases h; exact putspRoutine_takes _ hc
  | halt _ => cases h; exact emitAll_takes (.inl (holds_haltRun _ _))
  | rti _ => cases h; exact .inl (holds_raiseInstr _ _ _ s)
  | reserved _ => cases h; exact .inl (holds_raiseInstr _ _ _ s)

end Sys2Proof.Machine
end

section
/-! SUPPORT. Moves that are not the producer's keep the order of the input (20_memory.md R62, R67, R68): what the
statement says of such a move, of the instruction at pc, the end of a wait, and the end of the run. -/

namespace Sys2Proof.Machine

/-- From `s` to `t` at most one character was taken, the oldest, `c`, with `P c t`. While the run goes on all the others
stay; at its end those of the channel may be dropped. -/
def InOrder (P : Byte → State → Prop) (s t : State) : Prop :=
  ∃ d ≤ 1, buffered t <+: (buffered s).drop d ∧ (runEnded t = false → buffered t = (buffered s).drop d) ∧
    (d = 0 → s.kbReady = true → t.kbReady = true) ∧ (d = 1 → ∃ c, (buffered s).head? = some c ∧ P c t)

variable {s t : State} {P Q : Byte → State → Prop}

theorem HoldsOrTakes.inOrder (h : HoldsOrTakes P s t) : InOrder P s t := by
  rcases h with ⟨hb, hr⟩ | ⟨c, hb, hp⟩
  · exact ⟨0, Nat.zero_le 1, hb ▸ List.prefix_refl _, fun _ => hb, fun _ => hr, nofun⟩
  · exact ⟨1, Nat.le_refl 1, by rw [hb]; exact List.prefix_refl _, fun _ => by rw [hb]; rfl, nofun,
      fun _ => ⟨c, by rw [hb]; rfl, hp⟩⟩

/-- The end of a move may drop the channel's characters, and never a latched one. -/
theorem InOrder.dropReceiver (h : InOrder P s t) (hp : ∀ c, P c t → P c (dropReceiver t)) :
    InOrder P s (dropReceiver t) := by
  cases he : runEnded t with
  | false => rw [dropReceiver_running he]; exact h
  | true =>
    obtain ⟨d, hd, hpre, -, hready, hc⟩ := h
    have hlatched : buffered (Machine.dropReceiver t) <+: buffered t := by
      rw [dropReceiver_ended he]
      exact (List.prefix_append_right_inj _).2 List.nil_prefix
    have hended : runEnded (Machine.dropReceiver t) = true := by rw [dropReceiver_ended he]; exact he
    have hkb : (Machine.dropReceiver t).kbReady = t.kbReady := by rw [dropReceiver_ended he]
    exact ⟨d, hd, hlatched.trans hpre, fun h' => by simp [hended] at h', fun h0 hr => hkb.trans (hready h0 hr),
      fun h1 => (hc h1).imp fun c hc => ⟨hc.1, hp c hc.2⟩⟩

/-! ### The end of a move shows what was delivered -/

theorem takenBy_dropReceiver {c : Byte} {i : Instr} {u : State} (h : takenBy c i u t) :
    takenBy c i u (dropReceiver t) := by
  obtain ⟨ch, e, -⟩ := dropReceiver_frame t
  rw [e]
  cases i <;> exact h

theorem delivered_dropReceiver {c : Byte} (h : delivered c s t) : delivered c s (dropReceiver t) := by
  obtain ⟨hturn, hrun, h⟩ := h
  refine ⟨hturn, hrun, h.imp (fun ⟨hwait, hreg⟩ => ⟨hwait, ?_⟩) fun ⟨hwait, hi, htaken⟩ =>
    ⟨hwait, hi, takenBy_dropReceiver htaken⟩⟩
  obtain ⟨ch, e, -⟩ := dropReceiver_frame t
  rw [e]
  exact hreg

theorem dropReceiver_inputStream (s : State) : (dropReceiver s).inputStream = s.inputStream := by
  obtain ⟨ch, h, -⟩ := dropReceiver_frame s
  rw [h]

/-! ### The moves of the core and of the host's start -/

/-- No character is taken from the host, and one at most is delivered, in order. -/
def DeliversInOrder (s t : State) : Prop :=
  t.inputStream = s.inputStream ∧ InOrder (fun c t => delivered c s t) s t

theorem DeliversInOrder.of_sameKeyboard (h : t.inputStream = s.inputStream) (hk : SameKeyboard s t) :
    DeliversInOrder s t := ⟨h, HoldsOrTakes.inOrder (.inl hk.holds)⟩

theorem DeliversInOrder.dropReceiver (h : DeliversInOrder s t) : DeliversInOrder s (dropReceiver t) :=
  ⟨(dropReceiver_inputStream t).trans h.1, h.2.dropReceiver fun _ => delivered_dropReceiver⟩

/-- What the iteration at pc does: it ends the run without touching the keyboard, or runs the instruction there. -/
theorem iteration_next (h : iteration s = .next t) :
    (∃ run, t = { s with run := run }) ∨
    (∃ w, fetch s.pc s = some w ∧ exec (decode w) (setPc (s.pc + 1#16) s) = .next t) := by
  by_cases hp : s.pc = programEnd s
  · rw [iteration_programEnd hp] at h
    cases h
    exact .inl ⟨_, rfl⟩
  · cases hf : fetch s.pc s with
    | none => rw [iteration_unfetched hp hf] at h; cases h; exact .inl ⟨_, rfl⟩
    | some w => rw [iteration_fetched hf] at h; exact .inr ⟨w, rfl, h⟩

theorem closeRun_next {o : Host.Outcome State Fault Refusal} (h : closeRun o = .next t) :
    ∃ x, o = .next x ∧ t = dropReceiver x := by
  cases o with
  | next x => cases h; exact ⟨x, rfl, rfl⟩
  | fault r => cases h
  | refused r => cases h

theorem iteration_delivers (hs : Inv s) (ht : nextTurn s = .core) (hr : s.run = .running) (hw : s.wait = .none)
    (h : iteration (popTurn s) = .next t) : DeliversInOrder s t := by
  obtain ⟨⟨-, hcount, -⟩, -⟩ := hs
  rcases iteration_next h with ⟨run, e⟩ | ⟨w, hf, hx⟩
  · subst e
    exact .of_sameKeyboard rfl ⟨rfl, rfl, rfl⟩
  · obtain ⟨hi, rfl⟩ := fetch_eq_some.1 hf
    obtain ⟨hstream, -⟩ := (exec_cases hx).sameEnvironment
    have hpc : Holds s (setPc (s.pc + 1#16) (popTurn s)) := SameKeyboard.holds ⟨rfl, rfl, rfl⟩
    have takes := exec_takes (s := setPc (s.pc + 1#16) (popTurn s)) hcount (wellFormed_decode _) hx
    exact ⟨hstream, (HoldsOrTakes.after hpc (takes.mono fun c t hc => ⟨ht, hr, .inr ⟨hw, hi, hc⟩⟩)).inOrder⟩

/-- A waiting core holds no latched character, so the one that ends the wait is the oldest. -/
theorem resumeInput_delivers {routine : InputRoutine} {w : Word} (hs : Inv s) (ht : nextTurn s = .core)
    (hw : s.wait = .waitingInput routine w) : DeliversInOrder s (resumeInput routine w (popTurn s)) := by
  obtain ⟨-, hwait, -⟩ := hs
  obtain ⟨hr, hk, -⟩ := (waitInv_iff hw).1 hwait
  unfold resumeInput
  split
  · exact .of_sameKeyboard rfl ⟨rfl, rfl, rfl⟩
  · next c rest hc =>
    have shown := inRegister_deliverChar routine w c { popTurn s with channel := rest, wait := .none }
    refine ⟨(deliverChar_eq routine w c _).inputStream, HoldsOrTakes.inOrder ?_⟩
    refine HoldsOrTakes.before ?_ (holds_deliverChar routine w c _) ⟨ht, hr, .inl ⟨⟨routine, w, hw⟩, shown⟩⟩
    exact .inr ⟨c, buffered_head hk hc hk rfl, rfl⟩

theorem step_core_delivers (hs : Inv s) (ht : nextTurn s = .core) (h : step s = .next t) : DeliversInOrder s t := by
  have idle : DeliversInOrder s (popTurn s) := .of_sameKeyboard rfl ⟨rfl, rfl, rfl⟩
  rw [step_core ht] at h
  cases hr : s.run with
  | notStarted => rw [coreTurn_notStarted (s := popTurn s) hr] at h; cases h; exact idle
  | halted reason => simp only [coreTurn, popTurn_run, hr] at h; cases h; exact idle
  | faulted record => simp only [coreTurn, popTurn_run, hr] at h; cases h
  | running =>
    cases hw : s.wait with
    | none =>
      rw [coreTurn_running (s := popTurn s) hr hw] at h
      obtain ⟨x, hx, rfl⟩ := closeRun_next h
      exact (iteration_delivers hs ht hr hw hx).dropReceiver
    | waitingInput routine w =>
      rw [coreTurn_waiting (s := popTurn s) hr hw] at h
      cases h
      exact (resumeInput_delivers hs ht hw).dropReceiver

theorem startTurn_frame (s : State) : ∃ run, startTurn s = { s with run := run } := by
  by_cases h : s.run = .notStarted
  · exact ⟨_, startTurn_notStarted h⟩
  · exact ⟨s.run, startTurn_started h⟩

theorem step_start_delivers (ht : nextTurn s = .start) (h : step s = .next t) : DeliversInOrder s t := by
  obtain ⟨run, e⟩ := startTurn_frame (popTurn s)
  rw [step_start ht, e] at h
  cases h
  exact .of_sameKeyboard rfl ⟨rfl, rfl, rfl⟩

/-! ### The producer's move -/

theorem buffered_append (s : State) (c : Byte) (rest : InputStream) :
    buffered { s with channel := s.channel ++ [c], inputStream := rest } = buffered s ++ [c] :=
  (List.append_assoc _ _ _).symm

/-- The producer has nothing to do, or sends its next character behind the others, or fails to. -/
theorem producerTurn_appends (s : State) :
    (buffered (producerTurn s) = buffered s ∧ (producerTurn s).inputStream = s.inputStream) ∨
    (runEnded s = false ∧ ∃ c, nextChar s.inputStream = some (c, (producerTurn s).inputStream) ∧
      buffered (producerTurn s) = buffered s ++ [c]) ∨
    (runEnded s = true ∧ buffered (producerTurn s) = buffered s ∧ (producerTurn s).inputStream = ⟨[], none⟩ ∧
      (producerTurn s).producerStopped = true) := by
  cases hp : s.producerStopped with
  | true => rw [producerTurn_idle (.inl hp)]; exact .inl ⟨rfl, rfl⟩
  | false =>
    cases hc : nextChar s.inputStream with
    | none => rw [producerTurn_idle (.inr hc)]; exact .inl ⟨rfl, rfl⟩
    | some next =>
      obtain ⟨c, rest⟩ := next
      cases he : runEnded s with
      | false =>
        rw [producerTurn_delivers hp hc he]
        exact .inr (.inl ⟨rfl, c, rfl, buffered_append s c rest⟩)
      | true =>
        rw [producerTurn_sendFails hp hc he]
        exact .inr (.inr ⟨rfl, rfl, rfl, rfl⟩)

end Sys2Proof.Machine
end

section
/-! The statements of 20_memory.md. -/

namespace Sys2Proof.Machine

/-- Settles O20: the cases of `MemRead` by its address. -/
theorem memReadChecksTheRange : Obligations.MemReadChecksTheRange := by
  refine fun w a s => ⟨fun h => ?kbsr, fun h => ?kbdr, fun h1 h2 hlo hhi => ?word, fun h1 h2 hout => ?fault⟩
  case kbsr => rw [h, ← kbsrAddr, memRead_readable (readable_kbsr s), readWord_kbsr]
  case kbdr => rw [h, ← kbdrAddr, memRead_readable (readable_kbdr s), readWord_kbdr]
  case word =>
    rw [memRead_readable (readable_of_inImage (inImage_iff.2 ⟨hlo, hhi⟩)), readWord_plain h1 h2]
  case fault =>
    have hi : inImage s a = false := Bool.eq_false_iff.2 fun h => hout (inImage_iff.1 h)
    exact ⟨_, memRead_unreadable (readable_eq_false.2 ⟨hi, h1, h2⟩), rfl, rfl⟩

/-- Settles O21: the cases of the two reads, and the number of a zero-extended byte. -/
theorem keyboardRegisterReads : Obligations.KeyboardRegisterReads := by
  refine fun s => ⟨kbsrRead_ready, fun _ _ => kbsrRead_latches, kbsrRead_empty, kbsrReady_bit15 _,
    kbsrNotReady_bit15 _, rfl, rfl, fun h => ?ready, fun h => ?free⟩
  case ready => rw [kbdrRead_ready h]; exact ⟨toNat_zext_byte _, rfl⟩
  case free => rw [kbdrRead_free h]; exact ⟨(toNat_zext_byte _).trans_lt (BitVec.isLt _), rfl⟩

/-- Settles O27: each of the three stores ends in `MemWrite`, after reads that leave pc and the parameters. -/
theorem storesToTheKeyboardFollowThePolicy : Obligations.StoresToTheKeyboardFollowThePolicy := by
  refine ⟨fun s sr off9 a ha hk => ?st, fun s sr base off6 a ha hk => ?str,
    fun s sr off9 a hr ha hk => ?sti⟩
  all_goals subst ha
  case st => exact (exec_st sr off9 s).trans (congrArg Host.Outcome.next (memWrite_policy (quiet_readReg sr s) hk))
  case str =>
    have q := (quiet_readReg sr s).trans (quiet_readReg base _)
    exact (exec_str sr base off6 s).trans (congrArg Host.Outcome.next (memWrite_policy q hk))
  case sti =>
    have q := (quiet_readReg sr s).trans (quiet_readWord (s.pc + sext off9) _)
    exact (exec_sti hr).trans (congrArg Host.Outcome.next (memWrite_policy q hk))

/-- Settles O59: the listing is a map over the offsets up to `program_end`, which does not wrap. -/
theorem listingIsTheLoadedProgram : Obligations.ListingIsTheLoadedProgram := by
  intro s hc
  have hend := toNat_programEnd hc
  refine ⟨hend, ?_, programSlice_getElem s⟩
  rw [programSlice_length, hend, Nat.add_sub_cancel_left]

/-- Settles O29: ST writes one word, and a fetch reads memory with the loaded range as it was. -/
theorem storeIsSeenByTheNextFetch : Obligations.StoreIsSeenByTheNextFetch := by
  intro s sr off9 a ha hwf hi h1 h2
  have q := quiet_readReg sr s
  have hir : inImage (readReg sr s).2 a = true := (inImage_congr q.instructionCount a).trans hi
  refine ⟨_, by rw [exec_st, ← ha, memWrite_inImage hir h1 h2], ?same, fun b hb => ?other⟩
  case same => exact fetch_eq_some.2 ⟨hir, by rw [setMem_mem, q.mem, Memory.read_write_same hwf]⟩
  case other =>
    have hread := Memory.read_write_other s.mem (readReg sr s).1 fun e => hb (BitVec.eq_of_toNat_eq e)
    unfold fetch
    rw [inImage_congr (setMem_instructionCount _ a _), inImage_congr q.instructionCount, setMem_mem, q.mem, hread]

/-- Settles O49: a step is one move, and a move writes to the loaded range alone. -/
theorem stepsKeepWhatIsOutsideTheProgram : Obligations.StepsKeepWhatIsOutsideTheProgram := by
  intro s t h
  obtain ⟨hparams, hcount, hread⟩ := (step_cases h).sameOutsideProgram
  exact ⟨hparams, hcount, hread⟩

/-- Settles O53: by the agent that moves. What the core's move takes is what its instruction or the end of its wait
takes, and the end of the move drops the channel at most. -/
theorem inputOrderIsKept : Obligations.InputOrderIsKept := by
  refine fun s t hs h => ⟨fun hne => ?others, fun ht => ?producer⟩
  case others =>
    cases ht : nextTurn s with
    | core => exact step_core_delivers hs ht h
    | start => exact step_start_delivers ht h
    | producer => exact absurd ht hne
  case producer =>
    rw [step_producer ht] at h
    cases h
    exact producerTurn_appends (popTurn s)

end Sys2Proof.Machine
end

section
/-! SUPPORT. Decoding the word of an instruction gives the instruction (30_encoding.md R81 to R86): each format of R84
is read back, field by field, as it was put together. -/

namespace Sys2Proof

/-! ### The fields of the four word shapes -/

/-- A field put together from two is read back as those two. -/
theorem bits_parts {w : Word} {lo m n : Nat} {a : BitVec m} {b : BitVec n} (h : bits w lo (m + n) = a ++ b) :
    bits w (lo + n) m = a ∧ bits w lo n = b := by
  rw [bits_eq_append] at h
  constructor
  · simpa only [BitVec.extractLsb'_append_eq_left] using congrArg (BitVec.extractLsb' n m) h
  · simpa only [BitVec.extractLsb'_append_eq_right] using congrArg (BitVec.extractLsb' 0 n) h

/-- A word is its own field of sixteen bits. -/
theorem bits_whole (w : Word) : bits w 0 16 = w := BitVec.extractLsb'_eq_self

theorem fields_word412 (op : BitVec 4) (a : BitVec 12) :
    bits (word412 op a) 12 4 = op ∧ bits (word412 op a) 0 12 = a :=
  bits_parts (a := op) (b := a) (bits_whole _)

theorem fields_word448 (op a : BitVec 4) (c : BitVec 8) :
    bits (word448 op a c) 12 4 = op ∧ bits (word448 op a c) 8 4 = a ∧ bits (word448 op a c) 0 8 = c := by
  obtain ⟨hhigh, hc⟩ := bits_parts (a := op ++ a) (b := c) (bits_whole _)
  obtain ⟨hop, ha⟩ := bits_parts hhigh
  exact ⟨hop, ha, hc⟩

theorem fields_word349 (op : BitVec 4) (a : BitVec 3) (c : BitVec 9) :
    bits (word349 op a c) 12 4 = op ∧ bits (word349 op a c) 9 3 = a ∧ bits (word349 op a c) 0 9 = c := by
  obtain ⟨hhigh, hc⟩ := bits_parts (a := op ++ a) (b := c) (bits_whole _)
  obtain ⟨hop, ha⟩ := bits_parts hhigh
  exact ⟨hop, ha, hc⟩

theorem fields_word3336 (op : BitVec 4) (a b : BitVec 3) (c : BitVec 6) :
    bits (word3336 op a b c) 12 4 = op ∧ bits (word3336 op a b c) 9 3 = a ∧ bits (word3336 op a b c) 6 3 = b ∧
      bits (word3336 op a b c) 0 6 = c := by
  obtain ⟨hhigh, hc⟩ := bits_parts (a := op ++ a ++ b) (b := c) (bits_whole _)
  obtain ⟨htop, hb⟩ := bits_parts hhigh
  obtain ⟨hop, ha⟩ := bits_parts htop
  exact ⟨hop, ha, hb, hc⟩

/-! ### The fields that only some formats have -/

/-- Format OP_REG below its two upper registers: the mode bit, the ignored bits and SR2. -/
theorem fields_opReg (op : BitVec 4) (a b : BitVec 3) (m : BitVec 1) (d : BitVec 2) (e : BitVec 3) :
    bits (word3336 op a b (m ++ d ++ e)) 5 1 = m ∧ bits (word3336 op a b (m ++ d ++ e)) 3 2 = d ∧
      bits (word3336 op a b (m ++ d ++ e)) 0 3 = e := by
  obtain ⟨-, -, -, hlow⟩ := fields_word3336 op a b (m ++ d ++ e)
  obtain ⟨hmode, he⟩ := bits_parts (a := m ++ d) (b := e) hlow
  obtain ⟨hm, hd⟩ := bits_parts hmode
  exact ⟨hm, hd, he⟩

/-- Format OP_IMM below its registers: the mode bit and imm5. -/
theorem fields_opImm (op : BitVec 4) (a b : BitVec 3) (m : BitVec 1) (d : BitVec 5) :
    bits (word3336 op a b (m ++ d)) 5 1 = m ∧ bits (word3336 op a b (m ++ d)) 0 5 = d := by
  obtain ⟨-, -, -, hlow⟩ := fields_word3336 op a b (m ++ d)
  exact bits_parts (a := m) (b := d) hlow

/-- Format BR below the opcode: n, z and p. -/
theorem fields_br (op : BitVec 4) (n z p : BitVec 1) (c : BitVec 9) :
    bits (word349 op (n ++ z ++ p) c) 11 1 = n ∧ bits (word349 op (n ++ z ++ p) c) 10 1 = z ∧
      bits (word349 op (n ++ z ++ p) c) 9 1 = p := by
  obtain ⟨-, hflags, -⟩ := fields_word349 op (n ++ z ++ p) c
  obtain ⟨hnz, hp⟩ := bits_parts (a := n ++ z) (b := p) hflags
  obtain ⟨hn, hz⟩ := bits_parts hnz
  exact ⟨hn, hz, hp⟩

/-- Format JSR below the opcode: the mode bit and PCoffset11. -/
theorem fields_jsr (op : BitVec 4) (m : BitVec 1) (c : BitVec 11) :
    bits (word412 op (m ++ c)) 11 1 = m ∧ bits (word412 op (m ++ c)) 0 11 = c := by
  obtain ⟨-, hlow⟩ := fields_word412 op (m ++ c)
  exact bits_parts (a := m) (b := c) hlow

/-- Format JSRR between the opcode and BaseR: the mode bit and the ignored bits. -/
theorem fields_jsrr (op : BitVec 4) (m : BitVec 1) (d : BitVec 2) (b : BitVec 3) (c : BitVec 6) :
    bits (word3336 op (m ++ d) b c) 11 1 = m ∧ bits (word3336 op (m ++ d) b c) 9 2 = d := by
  obtain ⟨-, hmid, -, -⟩ := fields_word3336 op (m ++ d) b c
  exact bits_parts (a := m) (b := d) hmid

/-! ### Decoding -/

theorem flagBit_eq_msb (w : Word) (i : Nat) : flagBit w i = (bits w i 1).msb := by
  rw [bits_one, oneBit, BitVec.msb_ofBool]

theorem wellFormed_trap {v : BitVec 8} {ign : BitVec 4} (h : (Instr.trap v ign).wellFormed = true) :
    v ≠ 0x20#8 ∧ v ≠ 0x21#8 ∧ v ≠ 0x22#8 ∧ v ≠ 0x23#8 ∧ v ≠ 0x24#8 ∧ v ≠ 0x25#8 := by
  simpa [Instr.wellFormed, trapVectors] using h

/-- Decoding the word of a well-formed instruction gives the instruction, its ignored bits included (R81 to R86). By
format: the opcode and the mode bit pick the format again, and the lemma about its word gives back its fields. Being
well-formed keeps JMP's base from reading as RET and TRAP's vector from reading as a routine. -/
theorem decode_encode {i : Instr} (h : i.wellFormed = true) : decode (encode i) = i := by
  cases i
  case br => simp [encode, decode, opcodeOf, flagBit_eq_msb, oneBit, fields_word349, fields_br]
  case addReg | andReg =>
    simp [encode, decode, opcodeOf, regField, flagBit_eq_msb, fields_word3336, fields_opReg]
  case addImm | andImm =>
    simp [encode, decode, opcodeOf, regField, flagBit_eq_msb, fields_word3336, fields_opImm]
  case jsr => simp [encode, decode, opcodeOf, flagBit_eq_msb, fields_word412, fields_jsr]
  case jsrr => simp [encode, decode, opcodeOf, regField, flagBit_eq_msb, fields_word3336, fields_jsrr]
  case ld | ldi | lea | st | sti => simp [encode, decode, opcodeOf, regField, fields_word349]
  case ldr | str | not | ret => simp [encode, decode, opcodeOf, regField, fields_word3336]
  case jmp =>
    have hbase := bne_iff_ne.1 h
    simp [encode, decode, opcodeOf, regField, fields_word3336, hbase]
  case getc | out | puts | input | putsp | halt =>
    simp [encode, decode, opcodeOf, decodeTrap, fields_word448]
  case trap =>
    have hvect := wellFormed_trap h
    simp [encode, decode, opcodeOf, decodeTrap, fields_word448, hvect]
  case rti | reserved => simp [encode, decode, opcodeOf, fields_word412]

end Sys2Proof
end

section
/-! SUPPORT. The instruction's word reaches the state only through a fault record or a wait (30_encoding.md R85,
60_exceptions.md R171): an operation run under two words ends in states that are equal once the word is forgotten. -/

namespace Sys2Proof.Machine

/-- An answer with its word forgotten: only the end of the instruction can have put it into the state. -/
def Res.forgetWord {α : Type} : Res α → Res α
  | .ok v s => .ok v s
  | .stop s => .stop (Machine.forgetWord s)

/-- Two answers that differ by their word, each gone on from in a way that differs by its word. -/
theorem forgetWord_andThen {α : Type} {x y : Res α} {f g : α → State → State} (hxy : x.forgetWord = y.forgetWord)
    (hfg : ∀ v s, forgetWord (f v s) = forgetWord (g v s)) :
    forgetWord (x.andThen f) = forgetWord (y.andThen g) := by
  cases x with
  | ok v s =>
    cases y with
    | ok => injection hxy with hv hs; subst hv hs; exact hfg v s
    | stop => nomatch hxy
  | stop s =>
    cases y with
    | ok => nomatch hxy
    | stop => injection hxy

variable (w w' : Word) (s : State)

/-! ### The operations that are told the word -/

theorem forgetWord_raiseInstr (k : FaultKind) (i : FaultInfo) :
    forgetWord (raiseInstr k i w s) = forgetWord (raiseInstr k i w' s) := rfl

theorem forgetWord_memRead (a : Word) : (memRead w a s).forgetWord = (memRead w' a s).forgetWord := by
  cases h : readable s a
  · rw [memRead_unreadable h, memRead_unreadable h]; rfl
  · rw [memRead_readable h, memRead_readable h]

theorem forgetWord_emit (b : Byte) : (emit w b s).forgetWord = (emit w' b s).forgetWord := by
  unfold emit
  split <;> rfl

theorem forgetWord_emitAll (bs : List Byte) : (emitAll w bs s).forgetWord = (emitAll w' bs s).forgetWord := by
  induction bs generalizing s with
  | nil => rfl
  | cons b bs ih =>
    rcases emit_cases w b s with ⟨hs, h⟩ | ⟨rest, hr, h⟩
    · simp only [emitAll, h, emit_succeeds hs]
      exact ih _
    · have h' : emit w' b s = .stop (raiseInstr .ioError .nothing w' { s with writeOutcomes := rest }) := by
        simp [emit, hr]
      simp only [emitAll, h, h']
      rfl

theorem forgetWord_takeChar (routine : InputRoutine) :
    (takeChar routine w s).forgetWord = (takeChar routine w' s).forgetWord := by
  unfold takeChar
  split
  · rfl
  · split <;> rfl

/-! ### The routines of TRAP -/

theorem forgetWord_deliverChar (routine : InputRoutine) (c : Byte) :
    forgetWord (deliverChar routine w c s) = forgetWord (deliverChar routine w' c s) := by
  cases routine
  · rfl
  · exact forgetWord_andThen (forgetWord_emit w w' _ c) fun _ _ => rfl

theorem forgetWord_getcRoutine : forgetWord (getcRoutine w s) = forgetWord (getcRoutine w' s) :=
  forgetWord_andThen (forgetWord_takeChar w w' s .getc) fun c s' => forgetWord_deliverChar w w' s' .getc c

theorem forgetWord_outRoutine : forgetWord (outRoutine w s) = forgetWord (outRoutine w' s) :=
  forgetWord_andThen (forgetWord_emit w w' _ _) fun _ _ => rfl

theorem forgetWord_putsFrom (n : Nat) (a : Word) :
    forgetWord (putsFrom w n a s) = forgetWord (putsFrom w' n a s) := by
  induction n generalizing a s with
  | zero => rfl
  | succ n ih =>
    refine forgetWord_andThen (forgetWord_memRead w w' s a) fun v s1 => ?_
    split
    · rfl
    · exact forgetWord_andThen (forgetWord_emit w w' s1 _) fun _ s2 => ih s2 _

theorem forgetWord_inRoutine : forgetWord (inRoutine w s) = forgetWord (inRoutine w' s) :=
  forgetWord_andThen (forgetWord_emitAll w w' s inputPrompt) fun _ s1 =>
    forgetWord_andThen (forgetWord_takeChar w w' s1 .input) fun c s2 => forgetWord_deliverChar w w' s2 .input c

theorem forgetWord_putspFrom (n : Nat) (a : Word) :
    forgetWord (putspFrom w n a s) = forgetWord (putspFrom w' n a s) := by
  induction n generalizing a s with
  | zero => rfl
  | succ n ih =>
    refine forgetWord_andThen (forgetWord_memRead w w' s a) fun v s1 => ?_
    split
    · rfl
    · refine forgetWord_andThen (forgetWord_emit w w' s1 _) fun _ s2 => ?_
      split
      · rfl
      · exact forgetWord_andThen (forgetWord_emit w w' s2 _) fun _ s3 => ih s3 _

theorem forgetWord_haltRoutine : forgetWord (haltRoutine w s) = forgetWord (haltRoutine w' s) :=
  forgetWord_andThen (forgetWord_emitAll w w' s haltBanner) fun _ _ => rfl

theorem forgetWord_dispatchTrap (v : BitVec 8) :
    forgetWord (dispatchTrap v w s) = forgetWord (dispatchTrap v w' s) := by
  unfold dispatchTrap
  split_ifs
  · exact forgetWord_getcRoutine w w' s
  · exact forgetWord_outRoutine w w' s
  · exact forgetWord_putsFrom w w' _ _ _
  · exact forgetWord_inRoutine w w' s
  · exact forgetWord_putspFrom w w' _ _ _
  · exact forgetWord_haltRoutine w w' s
  · exact forgetWord_raiseInstr w w' s _ _

/-! ### Every instruction -/

/-- An instruction and the same with its ignored bits cleared. All but TRAP's rows, RTI and the reserved opcode have no
ignored bits, or do not use their word. -/
theorem forgetWord_exec {i : Instr} {s t u : State} (ht : exec i s = .next t) (hu : exec (clearIgnored i) s = .next u) :
    forgetWord u = forgetWord t := by
  cases i <;> cases ht <;> cases hu
  case trap v ign => exact forgetWord_dispatchTrap _ _ s v
  case getc => exact forgetWord_getcRoutine _ _ s
  case out => exact forgetWord_outRoutine _ _ s
  case puts => exact forgetWord_putsFrom _ _ _ _ _
  case input => exact forgetWord_inRoutine _ _ s
  case putsp => exact forgetWord_putspFrom _ _ _ _ _
  case halt => exact forgetWord_haltRoutine _ _ s
  case rti | reserved => exact forgetWord_raiseInstr _ _ s _ _
  all_goals rfl

end Sys2Proof.Machine
end

section
/-! SUPPORT. Which moves of the core answer a next state (10_state.md R35, 60_exceptions.md R172; log 3). -/

namespace Sys2Proof.Machine

theorem coreTurn_faulted {s : State} {r : FaultRecord} (h : s.run = .faulted r) :
    coreTurn s = .fault (.runFaulted r) := by
  simp [coreTurn, h]

theorem coreTurn_halted {s : State} {reason : HaltReason} (h : s.run = .halted reason) : coreTurn s = .next s := by
  simp [coreTurn, h]

theorem iteration_answers (s : State) : ∃ t, iteration s = .next t := by
  by_cases hp : s.pc = programEnd s
  · exact ⟨_, iteration_programEnd hp⟩
  · cases hf : fetch s.pc s with
    | none => exact ⟨_, iteration_unfetched hp hf⟩
    | some w =>
      obtain ⟨t, ht⟩ := exec_next (decode w) (setPc (s.pc + 1#16) s)
      exact ⟨t, (iteration_fetched hf).trans ht⟩

theorem coreTurn_answers {s : State} (h : ∀ r, s.run ≠ .faulted r) : ∃ t, coreTurn s = .next t := by
  cases hr : s.run with
  | notStarted => exact ⟨s, coreTurn_notStarted hr⟩
  | halted reason => exact ⟨s, coreTurn_halted hr⟩
  | faulted r => exact absurd hr (h r)
  | running =>
    cases hw : s.wait with
    | none =>
      obtain ⟨t, ht⟩ := iteration_answers s
      exact ⟨dropReceiver t, by rw [coreTurn_running hr hw, ht]; rfl⟩
    | waitingInput routine w => exact ⟨_, coreTurn_waiting hr hw⟩

end Sys2Proof.Machine
end

section
/-! The statements of 30_encoding.md. -/

namespace Sys2Proof.Machine

/-- Settles O1: each format is read back field by field. -/
theorem decodeOfEncodeIsTheInstruction : Obligations.DecodeOfEncodeIsTheInstruction := fun _ => decode_encode

/-- Settles O2: the word is put together again from the fields that were read. -/
theorem encodeOfDecodeIsTheWord : Obligations.EncodeOfDecodeIsTheWord :=
  fun w => ⟨wellFormed_decode w, encode_decode w⟩

/-- Settles O4: both answer a next state, and the two words are all that the states differ by. -/
theorem ignoredBitsChangeNothing : Obligations.IgnoredBitsChangeNothing := by
  intro i s
  obtain ⟨t, ht⟩ := exec_next i s
  obtain ⟨u, hu⟩ := exec_next (clearIgnored i) s
  exact ⟨t, u, ht, hu, forgetWord_exec ht hu⟩

/-- Settles O46: the producer and the host's start always have a next state, and so has the core until its run is
faulted. -/
theorem onlyAFaultedRunStopsTheStep : Obligations.OnlyAFaultedRunStopsTheStep := by
  refine ⟨fun s => ?_, exec_next⟩
  cases hturn : nextTurn s with
  | producer => exact .inl ⟨_, step_producer hturn⟩
  | start => exact .inl ⟨_, step_start hturn⟩
  | core =>
    rw [step_core hturn]
    by_cases hf : ∃ r, s.run = .faulted r
    · obtain ⟨r, hr⟩ := hf
      exact .inr ⟨r, hr, rfl, coreTurn_faulted (s := popTurn s) hr⟩
    · exact .inl (coreTurn_answers (s := popTurn s) (not_exists.1 hf))

/-- Settles O3: `decode` computes on each of the 27 words. -/
theorem testVectorWordsDecode : Obligations.TestVectorWordsDecode := by
  unfold Obligations.TestVectorWordsDecode
  decide

end Sys2Proof.Machine
end

section
/-! SUPPORT. ADD, AND, NOT and LEA as one write of DR and the flag (40_operate.md R100 to R103, 42_data_movement.md
R123): the value each writes, and what such a write after register reads leaves alone. -/

namespace Sys2Proof.Machine

/-! ### What each instruction writes -/

theorem exec_addReg (dr sr1 sr2 : Reg) (ign : BitVec 2) (s : State) : exec (.addReg dr sr1 sr2 ign) s =
    .next (setRegFlag dr ((readReg sr1 s).1 + (readReg sr2 (readReg sr1 s).2).1)
      (readReg sr2 (readReg sr1 s).2).2) := rfl

theorem exec_addImm (dr sr1 : Reg) (imm5 : BitVec 5) (s : State) : exec (.addImm dr sr1 imm5) s =
    .next (setRegFlag dr ((readReg sr1 s).1 + sext imm5) (readReg sr1 s).2) := rfl

theorem exec_andReg (dr sr1 sr2 : Reg) (ign : BitVec 2) (s : State) : exec (.andReg dr sr1 sr2 ign) s =
    .next (setRegFlag dr ((readReg sr1 s).1 &&& (readReg sr2 (readReg sr1 s).2).1)
      (readReg sr2 (readReg sr1 s).2).2) := by
  rw [← andWord_eq]; rfl

theorem exec_andImm (dr sr1 : Reg) (imm5 : BitVec 5) (s : State) : exec (.andImm dr sr1 imm5) s =
    .next (setRegFlag dr ((readReg sr1 s).1 &&& sext imm5) (readReg sr1 s).2) := by
  rw [← andWord_eq]; rfl

theorem exec_not (dr sr : Reg) (ign : BitVec 6) (s : State) : exec (.not dr sr ign) s =
    .next (setRegFlag dr (~~~(readReg sr s).1) (readReg sr s).2) := rfl

theorem exec_lea (dr : Reg) (off9 : BitVec 9) (s : State) : exec (.lea dr off9) s =
    .next (setRegFlag dr (s.pc + sext off9) s) := rfl

/-! ### The write of DR and the flag -/

theorem setRegFlag_regs_self (dr : Reg) (v : Word) (u : State) : (setRegFlag dr v u).regs[dr] = v :=
  (setRegFlag_says dr v u).1

/-- DR is marked, and the flag is set and says what DR now holds. -/
theorem setRegFlag_flags_register (dr : Reg) (v : Word) (u : State) :
    (setRegFlag dr v u).gprWritten[dr] = true ∧ (setRegFlag dr v u).ccSet = true ∧
      flagSays (setRegFlag dr v u).regs[dr] (setRegFlag dr v u).cc := by
  obtain ⟨hreg, hrest⟩ := setRegFlag_says dr v u
  rwa [hreg]

/-- Reading two registers changes the draw counter at most. -/
theorem readReg_readReg_frame (sr1 sr2 : Reg) (s : State) :
    ∃ n, (readReg sr2 (readReg sr1 s).2).2 = { s with draws := n } := by
  obtain ⟨m, hm⟩ := readReg_frame sr1 s
  obtain ⟨n, hn⟩ := readReg_frame sr2 (readReg sr1 s).2
  exact ⟨n, by rw [hn, hm]⟩

/-- DR and the flag written after reads of registers: everything but DR, the flag and the draws is as it was. -/
theorem setRegFlag_frame (dr : Reg) (v : Word) {s u : State} (hu : ∃ n, u = { s with draws := n }) :
    SameRegsExcept [dr] s (setRegFlag dr v u) ∧ (setRegFlag dr v u).pc = s.pc ∧
      SameMemoryExcept [] s (setRegFlag dr v u) ∧ SameOutside s (setRegFlag dr v u) := by
  obtain ⟨n, rfl⟩ := hu
  have hregs : SameRegsExcept [dr] s (setRegFlag dr v { s with draws := n }) :=
    .of_set (List.mem_singleton_self dr) rfl rfl
  exact ⟨hregs, rfl, ⟨rfl, fun _ _ => rfl⟩, ⟨rfl, rfl, rfl⟩, ⟨rfl, rfl⟩, ⟨rfl, rfl⟩, rfl, rfl, rfl, rfl⟩

/-! ### A sign-extended field, bit by bit (R11) -/

/-- Above the field every bit is the field's top bit. -/
theorem getLsbD_sext {n k : Nat} (f : BitVec n) (hk : k < 16) : (sext f).getLsbD k = f.getLsbD (min k (n - 1)) := by
  rw [sext, BitVec.getLsbD_signExtend, BitVec.msb_eq_getLsbD_last]
  by_cases hin : k < n
  · simp [hk, hin, Nat.min_eq_left (Nat.le_sub_one_of_lt hin)]
  · simp [hk, hin, Nat.min_eq_right (show n - 1 ≤ k by omega)]

end Sys2Proof.Machine
end

section
/-! The statements of 40_operate.md. -/

namespace Sys2Proof.Machine

/-- Settles O13: each of the six reads at most two registers and then writes DR and the flag. -/
theorem operateInstructionsFrame : Obligations.OperateInstructionsFrame := by
  rintro i dr s (⟨sr1, sr2, ign, rfl⟩ | ⟨sr1, imm5, rfl⟩ | ⟨sr1, sr2, ign, rfl⟩ | ⟨sr1, imm5, rfl⟩ | ⟨sr, ign, rfl⟩ |
    ⟨off9, rfl⟩)
  · exact ⟨_, exec_addReg .., setRegFlag_frame dr _ (readReg_readReg_frame sr1 sr2 s)⟩
  · exact ⟨_, exec_addImm .., setRegFlag_frame dr _ (readReg_frame sr1 s)⟩
  · exact ⟨_, exec_andReg .., setRegFlag_frame dr _ (readReg_readReg_frame sr1 sr2 s)⟩
  · exact ⟨_, exec_andImm .., setRegFlag_frame dr _ (readReg_frame sr1 s)⟩
  · exact ⟨_, exec_not .., setRegFlag_frame dr _ (readReg_frame sr s)⟩
  · exact ⟨_, exec_lea .., setRegFlag_frame dr _ ⟨s.draws, rfl⟩⟩

/-- Settles O11: the word sum is the sum modulo 2^16, and adding a sign-extended field adds its signed value. -/
theorem addWrapsAndSetsTheFlag : Obligations.AddWrapsAndSetsTheFlag := by
  refine ⟨fun s dr sr1 sr2 ign => ⟨_, exec_addReg .., ?register, setRegFlag_flags_register ..⟩,
    fun s dr sr1 imm5 => ⟨_, exec_addImm .., ?immediate, setRegFlag_flags_register ..⟩⟩
  case register => rw [setRegFlag_regs_self]; exact BitVec.toNat_add _ _
  case immediate => rw [setRegFlag_regs_self]; exact toNat_add_sext _ imm5 (by decide)

/-- Settles O12: AND and NOT on words act bit by bit, and bit k of the widened imm5 is its bit min k 4. -/
theorem andAndNotAreBitwise : Obligations.AndAndNotAreBitwise := by
  refine ⟨fun s dr sr1 sr2 ign => ⟨_, exec_andReg .., fun k hk => ?register, setRegFlag_flags_register ..⟩,
    fun s dr sr1 imm5 => ⟨_, exec_andImm .., fun k hk => ?immediate, setRegFlag_flags_register ..⟩,
    fun s dr sr ign => ⟨_, exec_not .., ?complement, setRegFlag_flags_register ..⟩⟩
  case register => rw [setRegFlag_regs_self, BitVec.getLsbD_and]
  case immediate => rw [setRegFlag_regs_self, BitVec.getLsbD_and, getLsbD_sext imm5 hk]
  case complement => rw [setRegFlag_regs_self]; exact BitVec.toNat_not

end Sys2Proof.Machine
end

section
/-! SUPPORT. BR, JSR, JSRR, JMP and RET as one jump after reads of the flag or of a register (41_control.md R110 to
R116): where each jumps, whether it links, and what such a jump leaves alone. -/

namespace Sys2Proof.Machine

/-! ### BR (R110) -/

/-- The branch condition in the rule's words. -/
theorem branchTaken_iff (n z p : Bool) (f : Flag) : branchTaken n z p f = true ↔
    (n = false ∧ z = false ∧ p = false) ∨ (n = true ∧ f = .neg) ∨ (z = true ∧ f = .zero) ∨ (p = true ∧ f = .pos) := by
  simp [branchTaken, or_assoc, and_assoc]

/-- The flag has no fourth value (R27), so nzp = 111 matches whatever it holds. -/
theorem branchTaken_all (f : Flag) : branchTaken true true true f = true := by
  cases f <;> rfl

/-- Where BR leaves pc: at its target, or where the fetch left it. -/
def branchTarget (n z p : Bool) (off9 : BitVec 9) (s : State) : Word :=
  if branchTaken n z p (readFlag s).1 then s.pc + sext off9 else s.pc

theorem readFlag_pc (s : State) : (readFlag s).2.pc = s.pc := (quiet_readFlag s).pc

theorem exec_br (n z p : Bool) (off9 : BitVec 9) (s : State) : exec (.br n z p off9) s =
    .next (setPc (branchTarget n z p off9 s) (readFlag s).2) := by
  change Host.Outcome.next (if branchTaken n z p (readFlag s).1 then _ else _) = _
  unfold branchTarget
  split
  · rw [pcRelative, readFlag_pc]
  · rw [← readFlag_pc s]; rfl

theorem toNat_branchTarget_taken {n z p : Bool} {s : State} (off9 : BitVec 9)
    (h : branchTaken n z p (readFlag s).1 = true) :
    ((branchTarget n z p off9 s).toNat : Int) = (s.pc.toNat + off9.toInt) % 65536 := by
  rw [branchTarget, if_pos h]
  exact toNat_add_sext s.pc off9 (by decide)

theorem branchTarget_not_taken {n z p : Bool} {s : State} (off9 : BitVec 9)
    (h : ¬ branchTaken n z p (readFlag s).1 = true) : branchTarget n z p off9 s = s.pc :=
  if_neg h

/-! ### JSR and JSRR (R111, R112) -/

theorem exec_jsr (off11 : BitVec 11) (s : State) : exec (.jsr off11) s =
    .next (setPc (s.pc + sext off11) (setReg 7 s.pc s)) := rfl

/-- What JSRR reads from BaseR: before the link is written or after it, by the parameter (D12). -/
def jsrrTarget (base : Reg) (s : State) : Word :=
  if s.params.jsrrBaseReadFirst then (readReg base s).1 else (readReg base (setReg 7 s.pc s)).1

/-- In either order JSRR links and jumps; the order decides only what it reads and how many draws that takes. -/
theorem exec_jsrr (base : Reg) (ignHi : BitVec 2) (ignLo : BitVec 6) (s : State) :
    ∃ k, exec (.jsrr base ignHi ignLo) s =
      .next (setPc (jsrrTarget base s) (setReg 7 s.pc { s with draws := k })) := by
  change ∃ k, Host.Outcome.next (if s.params.jsrrBaseReadFirst then _ else _) = _
  unfold jsrrTarget
  split
  · obtain ⟨k, hk⟩ := readReg_frame base s
    exact ⟨k, by simp only [hk]⟩
  · obtain ⟨k, hk⟩ := readReg_frame base (setReg 7 s.pc s)
    exact ⟨k, by simp only [hk]; rfl⟩

theorem jsrrTarget_other {base : Reg} (h : base ≠ 7) (s : State) : jsrrTarget base s = (readReg base s).1 := by
  rw [jsrrTarget, readReg_setReg_other h, ite_self]

theorem jsrrTarget_link_first {s : State} (h : s.params.jsrrBaseReadFirst = false) : jsrrTarget 7 s = s.pc := by
  simp [jsrrTarget, h, readReg_setReg_same]

theorem jsrrTarget_base_first {base : Reg} {s : State} (h : s.params.jsrrBaseReadFirst = true) :
    jsrrTarget base s = (readReg base s).1 :=
  if_pos h

/-- After a link and a jump R7 holds the link and is marked. -/
theorem setPc_setReg_link (a v : Word) (u : State) :
    (setPc a (setReg 7 v u)).regs[(7 : Reg)] = v ∧ (setPc a (setReg 7 v u)).gprWritten[(7 : Reg)] = true := by
  simp

/-! ### JMP and RET (R113, R114) -/

theorem exec_jmp (base : Reg) (ignHi : BitVec 3) (ignLo : BitVec 6) (s : State) : exec (.jmp base ignHi ignLo) s =
    .next (setPc (readReg base s).1 (readReg base s).2) := rfl

theorem encode_ret (ignHi : BitVec 3) (ignLo : BitVec 6) : encode (.ret ignHi ignLo) = encode (.jmp 7 ignHi ignLo) :=
  rfl

theorem exec_ret (ignHi : BitVec 3) (ignLo : BitVec 6) (s : State) :
    exec (.ret ignHi ignLo) s = exec (.jmp 7 ignHi ignLo) s := rfl

/-! ### The frame -/

/-- A control transfer jumps, with R7 linked or not; besides that it changes the draw counter at most. -/
theorem exec_control {i : Instr} (hi : isControl i = true) (s : State) :
    ∃ a k, exec i s = .next (setPc a { s with draws := k }) ∨
      (7 : Reg) ∈ writtenRegs i ∧ exec i s = .next (setPc a (setReg 7 s.pc { s with draws := k })) := by
  cases i with
  | br n z p off9 =>
    obtain ⟨k, hk⟩ := readFlag_frame s
    exact ⟨_, k, .inl (by rw [exec_br, hk])⟩
  | jsr off11 => exact ⟨_, s.draws, .inr ⟨by simp [writtenRegs], exec_jsr off11 s⟩⟩
  | jsrr base ignHi ignLo =>
    obtain ⟨k, hk⟩ := exec_jsrr base ignHi ignLo s
    exact ⟨_, k, .inr ⟨by simp [writtenRegs], hk⟩⟩
  | jmp base ignHi ignLo =>
    obtain ⟨k, hk⟩ := readReg_frame base s
    exact ⟨_, k, .inl (by rw [exec_jmp, hk])⟩
  | ret ignHi ignLo =>
    obtain ⟨k, hk⟩ := readReg_frame 7 s
    exact ⟨_, k, .inl (by rw [exec_ret, exec_jmp, hk])⟩
  | _ => cases hi

/-- A jump after a change of registers and draws at most leaves the flag, memory and everything outside. -/
theorem setPc_frame (a : Word) {s u : State}
    (hu : ∃ rs ms k, u = { s with regs := rs, gprWritten := ms, draws := k }) :
    SameFlag s (setPc a u) ∧ SameMemoryExcept [] s (setPc a u) ∧ SameOutside s (setPc a u) := by
  obtain ⟨rs, ms, k, rfl⟩ := hu
  exact ⟨⟨rfl, rfl⟩, ⟨rfl, fun _ _ => rfl⟩, ⟨rfl, rfl, rfl⟩, ⟨rfl, rfl⟩, ⟨rfl, rfl⟩, rfl, rfl, rfl, rfl⟩

end Sys2Proof.Machine
end

section
/-! The statements of 41_control.md. -/

namespace Sys2Proof.Machine

/-- Settles O18: a jump writes pc and the draw counter, and a link R7; every other field is as it was. -/
theorem controlInstructionsFrame : Obligations.ControlInstructionsFrame := by
  intro i s hi
  obtain ⟨a, k, h | ⟨hw, h⟩⟩ := exec_control hi s
  · exact ⟨_, h, .of_eq rfl rfl, setPc_frame a ⟨_, _, k, rfl⟩⟩
  · exact ⟨_, h, .of_set hw rfl rfl, setPc_frame a ⟨_, _, k, rfl⟩⟩

/-- Settles O14: the rule's condition is `branchTaken`, which decides between the two values of `branchTarget`. -/
theorem branchIsTakenByItsCondition : Obligations.BranchIsTakenByItsCondition := by
  intro s n z p off9
  refine ⟨_, exec_br n z p off9 s, readFlag_set, readFlag_unset, rfl, fun h => ?taken, fun h => ?notTaken, ?always⟩
  case taken => exact toNat_branchTarget_taken off9 ((branchTaken_iff ..).2 h)
  case notTaken => exact branchTarget_not_taken off9 (mt (branchTaken_iff ..).1 h)
  case always =>
    rintro rfl rfl rfl
    exact toNat_branchTarget_taken off9 (branchTaken_all _)

/-- Settles O15: adding the sign-extended offset adds its signed value modulo 65536. -/
theorem jsrLinksAndJumps : Obligations.JsrLinksAndJumps := by
  intro s off11
  obtain ⟨hlink, hmark⟩ := setPc_setReg_link (s.pc + sext off11) s.pc s
  exact ⟨_, exec_jsr off11 s, hlink, hmark, toNat_add_sext s.pc off11 (by decide)⟩

/-- Settles O16: JSRR's target by BaseR and the order of R112, and JMP's equation. -/
theorem registerJumpsReadTheirBase : Obligations.RegisterJumpsReadTheirBase := by
  refine ⟨fun s base ignHi ignLo => ?jsrr, fun s base ignHi ignLo => ⟨_, exec_jmp .., rfl⟩⟩
  case jsrr =>
    obtain ⟨k, hk⟩ := exec_jsrr base ignHi ignLo s
    obtain ⟨hlink, hmark⟩ := setPc_setReg_link (jsrrTarget base s) s.pc { s with draws := k }
    refine ⟨_, hk, hlink, hmark, fun hb => jsrrTarget_other hb s, ?linkFirst, ?baseFirst⟩
    case linkFirst => rintro rfl hp; exact jsrrTarget_link_first hp
    case baseFirst => rintro rfl hp; exact jsrrTarget_base_first hp

/-- Settles O17: RET's word and its meaning are those of JMP through R7. -/
theorem retIsJmpThroughR7 : Obligations.RetIsJmpThroughR7 :=
  ⟨by decide, encode_ret, fun s ignHi ignLo =>
    ⟨_, (exec_ret ignHi ignLo s).trans (exec_jmp 7 ignHi ignLo s), exec_jmp 7 ignHi ignLo s, rfl⟩⟩

end Sys2Proof.Machine
end

section
/-! SUPPORT. LD, LDI, LDR, ST, STI and STR as reads of their operands, with one access of memory after them
(42_data_movement.md R120 to R127): what the reads leave alone, and what the access does to the state they end in. -/

namespace Sys2Proof.Machine

/-! ### Each instruction by its address -/

theorem exec_ld (dr : Reg) (off9 : BitVec 9) (s : State) : exec (.ld dr off9) s =
    .next (loadInto (encode (.ld dr off9)) (s.pc + sext off9) dr s) := rfl

theorem exec_ldr (dr base : Reg) (off6 : BitVec 6) (s : State) : exec (.ldr dr base off6) s =
    .next (loadInto (encode (.ldr dr base off6)) ((readReg base s).1 + sext off6) dr (readReg base s).2) := rfl

/-- LDI reads its pointer, and loads from where it points. -/
theorem exec_ldi {dr : Reg} {off9 : BitVec 9} {s : State} (h : readable s (s.pc + sext off9) = true) :
    exec (.ldi dr off9) s = .next (loadInto (encode (.ldi dr off9)) (readWord (s.pc + sext off9) s).1 dr
      (readWord (s.pc + sext off9) s).2) := by
  simp only [exec, execLdi, indirect, pcRelative, memRead_readable h, Res.andThen_ok]

/-- An LDI whose pointer cannot be read faults at the pointer's address. -/
theorem exec_ldi_unreadable {dr : Reg} {off9 : BitVec 9} {s : State} (h : readable s (s.pc + sext off9) = false) :
    exec (.ldi dr off9) s =
      .next (raiseInstr .memoryReadOutOfRange (.address (s.pc + sext off9)) (encode (.ldi dr off9)) s) := by
  simp only [exec, execLdi, indirect, pcRelative, memRead_unreadable h, Res.andThen_stop]

/-- An STI whose pointer cannot be read faults at the pointer's address. -/
theorem exec_sti_unreadable {sr : Reg} {off9 : BitVec 9} {s : State} (h : readable s (s.pc + sext off9) = false) :
    exec (.sti sr off9) s = .next (raiseInstr .memoryReadOutOfRange (.address (s.pc + sext off9))
      (encode (.sti sr off9)) (readReg sr s).2) := by
  have hr : readable (readReg sr s).2 (s.pc + sext off9) = false := (readable_readReg sr s _).trans h
  simp only [exec, execSti, indirect, pcRelative, readReg_pc, memRead_unreadable hr, Res.andThen_stop]

/-! ### Reading the operands -/

/-- Reads of operands in `s` led to `u`: the keyboard's own fields and the draw counter changed at most. -/
def OperandsRead (s u : State) : Prop :=
  ∃ ready latch ch n, u = { s with kbReady := ready, kbLatch := latch, channel := ch, draws := n }

theorem OperandsRead.refl (s : State) : OperandsRead s s := ⟨_, _, _, _, rfl⟩

variable {s u : State}

theorem OperandsRead.then_readReg (h : OperandsRead s u) (r : Reg) : OperandsRead s (readReg r u).2 := by
  obtain ⟨ready, latch, ch, n, rfl⟩ := h
  obtain ⟨m, hm⟩ := readReg_frame r _
  exact ⟨ready, latch, ch, m, hm⟩

theorem OperandsRead.then_readWord (h : OperandsRead s u) (a : Word) : OperandsRead s (readWord a u).2 := by
  obtain ⟨_, _, _, _, rfl⟩ := h
  obtain ⟨ready, latch, ch, m, hm⟩ := readWord_frame a _
  exact ⟨ready, latch, ch, m, hm⟩

theorem operandsRead_readReg (r : Reg) (s : State) : OperandsRead s (readReg r s).2 :=
  (OperandsRead.refl s).then_readReg r

theorem operandsRead_readWord (a : Word) (s : State) : OperandsRead s (readWord a s).2 :=
  (OperandsRead.refl s).then_readWord a

theorem OperandsRead.pc (h : OperandsRead s u) : u.pc = s.pc := by
  obtain ⟨_, _, _, _, rfl⟩ := h; rfl

theorem OperandsRead.run (h : OperandsRead s u) : u.run = s.run := by
  obtain ⟨_, _, _, _, rfl⟩ := h; rfl

theorem OperandsRead.inImage (h : OperandsRead s u) (a : Word) : Machine.inImage u a = Machine.inImage s a := by
  obtain ⟨_, _, _, _, rfl⟩ := h; rfl

theorem OperandsRead.readable (h : OperandsRead s u) (a : Word) : Machine.readable u a = Machine.readable s a := by
  obtain ⟨_, _, _, _, rfl⟩ := h; rfl

/-! ### The keyboard -/

theorem SameKeyboard.trans {t : State} (h : SameKeyboard s t) (g : SameKeyboard t u) : SameKeyboard s u := by
  obtain ⟨hready, hlatch, hchannel⟩ := h
  obtain ⟨gready, glatch, gchannel⟩ := g
  exact ⟨gready.trans hready, glatch.trans hlatch, gchannel.trans hchannel⟩

theorem sameKeyboard_readReg (r : Reg) (s : State) : SameKeyboard s (readReg r s).2 := by
  obtain ⟨n, h⟩ := readReg_frame r s
  rw [h]
  exact ⟨rfl, rfl, rfl⟩

theorem sameKeyboard_setMem (a v : Word) (s : State) : SameKeyboard s (setMem a v s) := ⟨rfl, rfl, rfl⟩

/-- A load reaches the keyboard at its two registers alone. -/
theorem sameKeyboard_loadInto {w ea : Word} {dr : Reg} (h1 : ea ≠ kbsrAddr) (h2 : ea ≠ kbdrAddr) :
    SameKeyboard s (loadInto w ea dr s) := by
  rcases loadInto_cases w ea dr s with ⟨-, h⟩ | ⟨-, h⟩ <;> rw [h]
  · exact ⟨rfl, rfl, rfl⟩
  · rw [readWord_plain h1 h2]
    exact ⟨rfl, rfl, rfl⟩

/-! ### Loads -/

/-- A load of an address that can be read: DR, its mark, the flag, the run and the keyboard. -/
theorem OperandsRead.loadInto_says {w ea : Word} {dr : Reg} (h : OperandsRead s u)
    (hr : Machine.readable s ea = true) :
    (loadInto w ea dr u).regs[dr] = (readWord ea u).1 ∧ (loadInto w ea dr u).gprWritten[dr] = true ∧
      (loadInto w ea dr u).ccSet = true ∧ flagSays (loadInto w ea dr u).regs[dr] (loadInto w ea dr u).cc ∧
      (loadInto w ea dr u).run = s.run ∧ SameKeyboard (readWord ea u).2 (loadInto w ea dr u) := by
  rw [loadInto_readable ((h.readable ea).trans hr)]
  obtain ⟨hmark, hset, hsays⟩ := setRegFlag_flags_register dr (readWord ea u).1 (readWord ea u).2
  exact ⟨setRegFlag_regs_self .., hmark, hset, hsays, (h.then_readWord ea).run, rfl, rfl, rfl⟩

/-- A load of an address that cannot be read. -/
theorem OperandsRead.loadInto_faults {w ea : Word} {dr : Reg} (h : OperandsRead s u)
    (hr : Machine.readable s ea = false) :
    loadInto w ea dr u = faultedWith (instrRecord .memoryReadOutOfRange (.address ea) w s) u := by
  rw [loadInto_unreadable ((h.readable ea).trans hr), raiseInstr_eq h.pc]

/-- What a load into `dr` keeps. -/
def LoadFrame (dr : Reg) (s t : State) : Prop :=
  SameRegsExcept [dr] s t ∧ t.pc = s.pc ∧ SameMemoryExcept [] s t ∧ SameConsole s t ∧ t.wait = s.wait ∧
    SameEnvironment s t

/-- A fault raised after the operands were read writes the run state alone. -/
theorem OperandsRead.raiseInstr_frame (h : OperandsRead s u) (k : FaultKind) (i : FaultInfo) (w : Word) (dr : Reg) :
    LoadFrame dr s (raiseInstr k i w u) := by
  obtain ⟨_, _, _, _, rfl⟩ := h
  exact ⟨.of_eq rfl rfl, rfl, ⟨rfl, fun _ _ => rfl⟩, ⟨rfl, rfl⟩, rfl, rfl, rfl, rfl, rfl⟩

/-- DR and the flag written after the operands were read. -/
theorem OperandsRead.setRegFlag_frame (h : OperandsRead s u) (dr : Reg) (v : Word) :
    LoadFrame dr s (setRegFlag dr v u) := by
  obtain ⟨_, _, _, _, rfl⟩ := h
  exact ⟨.of_set (List.mem_singleton_self dr) rfl rfl, rfl, ⟨rfl, fun _ _ => rfl⟩, ⟨rfl, rfl⟩, rfl, rfl, rfl, rfl, rfl⟩

/-- A load, whether it completes or faults. -/
theorem OperandsRead.loadInto_frame (h : OperandsRead s u) (w ea : Word) (dr : Reg) :
    LoadFrame dr s (loadInto w ea dr u) := by
  rcases loadInto_cases w ea dr u with ⟨-, e⟩ | ⟨-, e⟩ <;> rw [e]
  · exact h.raiseInstr_frame ..
  · exact (h.then_readWord ea).setRegFlag_frame ..

/-- LDI, whether it completes or faults at one of its reads. -/
theorem exec_ldi_frame (dr : Reg) (off9 : BitVec 9) (s : State) :
    ∃ t, exec (.ldi dr off9) s = .next t ∧ LoadFrame dr s t := by
  cases h : readable s (s.pc + sext off9) with
  | false => exact ⟨_, exec_ldi_unreadable h, (OperandsRead.refl s).raiseInstr_frame ..⟩
  | true => exact ⟨_, exec_ldi h, (operandsRead_readWord _ s).loadInto_frame ..⟩

/-! ### Stores -/

/-- A store outside the loaded range. -/
theorem OperandsRead.memWrite_faults {w a v : Word} (h : OperandsRead s u) (hr : Machine.readable s a = false) :
    memWrite w a v u = faultedWith (instrRecord .memoryWriteOutOfRange (.address a) w s) u := by
  rw [memWrite_unreadable ((h.readable a).trans hr), raiseInstr_eq h.pc]

/-- From `s` to `t` the word `v` was stored at `a`, and nothing else changed but the keyboard and the draws. -/
def Stored (a v : Word) (s t : State) : Prop :=
  t.mem.read a.toNat = v ∧ SameMemoryExcept [a] s t ∧ SameRegsExcept [] s t ∧ SameFlag s t ∧ t.pc = s.pc ∧
    SameConsole s t ∧ SameRun s t ∧ SameEnvironment s t

theorem sameMemoryExcept_setMem (a v : Word) (s : State) : SameMemoryExcept [a] s (setMem a v s) := by
  refine ⟨rfl, fun b hb => Memory.read_write_other _ _ fun e => hb ?_⟩
  exact List.mem_singleton.2 (BitVec.eq_of_toNat_eq e)

/-- A word of the loaded range stored after the operands were read. -/
theorem OperandsRead.memWrite_stores {a : Word} (h : OperandsRead s u) (w v : Word) (hwf : s.mem.wf)
    (hi : Machine.inImage s a = true) (h1 : a ≠ kbsrAddr) (h2 : a ≠ kbdrAddr) :
    Stored a v s (memWrite w a v u) ∧ SameKeyboard u (memWrite w a v u) := by
  rw [memWrite_inImage ((h.inImage a).trans hi) h1 h2]
  refine ⟨?_, sameKeyboard_setMem a v u⟩
  obtain ⟨_, _, _, _, rfl⟩ := h
  exact ⟨Memory.read_write_same hwf _ v, sameMemoryExcept_setMem a v s, .of_eq rfl rfl, ⟨rfl, rfl⟩, rfl, ⟨rfl, rfl⟩,
    ⟨rfl, rfl⟩, rfl, rfl, rfl, rfl⟩

end Sys2Proof.Machine
end

section
/-! The statements of 42_data_movement.md. -/

namespace Sys2Proof.Machine

/-- Settles O23: a load reads its operands and then writes DR and the flag, or the run state at a fault. -/
theorem loadInstructionsFrame : Obligations.LoadInstructionsFrame := by
  refine ⟨?frame, fun s t dr off9 h1 h2 h => ?ld, fun s t dr base off6 h1 h2 h => ?ldr,
    fun s t dr off9 h1 h2 h3 h4 h => ?ldi⟩
  case frame =>
    rintro i dr s (⟨off9, rfl⟩ | ⟨off9, rfl⟩ | ⟨base, off6, rfl⟩)
    · exact ⟨_, exec_ld .., (OperandsRead.refl s).loadInto_frame ..⟩
    · exact exec_ldi_frame dr off9 s
    · exact ⟨_, exec_ldr .., (operandsRead_readReg base s).loadInto_frame ..⟩
  case ld =>
    cases h
    exact sameKeyboard_loadInto h1 h2
  case ldr =>
    cases h
    exact (sameKeyboard_readReg base s).trans (sameKeyboard_loadInto h1 h2)
  case ldi =>
    cases hr : readable s (s.pc + sext off9) with
    | false =>
      rw [exec_ldi_unreadable hr] at h
      cases h
      exact ⟨rfl, rfl, rfl⟩
    | true =>
      rw [exec_ldi hr, readWord_plain h1 h2] at h
      cases h
      exact sameKeyboard_loadInto h3 h4

/-- Settles O26: each store reads its operands, which leaves memory, and then writes the one word. -/
theorem storesWriteTheirWord : Obligations.StoresWriteTheirWord := by
  refine ⟨fun s sr off9 a ha hwf hi h1 h2 => ?st, fun s sr base off6 a ha hwf hi h1 h2 => ?str,
    fun s sr off9 a hr ha hwf hi h1 h2 => ?sti⟩
  case st =>
    have read := operandsRead_readReg sr s
    obtain ⟨⟨hword, hmem, hregs, hflag, hpc, hrest⟩, hkeys⟩ :=
      read.memWrite_stores (encode (.st sr off9)) (readReg sr s).1 hwf hi h1 h2
    exact ⟨_, ha ▸ exec_st sr off9 s, hword, hmem, hregs, hflag, hpc, (sameKeyboard_readReg sr s).trans hkeys, hrest⟩
  case str =>
    have read := (operandsRead_readReg sr s).then_readReg base
    obtain ⟨⟨hword, hmem, hregs, hflag, hpc, hrest⟩, hkeys⟩ :=
      read.memWrite_stores (encode (.str sr base off6)) (readReg sr s).1 hwf hi h1 h2
    have hread := (sameKeyboard_readReg sr s).trans (sameKeyboard_readReg base _)
    exact ⟨_, ha ▸ exec_str sr base off6 s, hword, hmem, hregs, hflag, hpc, hread.trans hkeys, hrest⟩
  case sti =>
    have read := (operandsRead_readReg sr s).then_readWord (s.pc + sext off9)
    obtain ⟨⟨hword, hmem, hregs, hflag, hpc, hconsole, hrun, henv⟩, hkeys⟩ :=
      read.memWrite_stores (encode (.sti sr off9)) (readReg sr s).1 hwf hi h1 h2
    refine ⟨_, ha ▸ exec_sti hr, hword, hmem, hregs, hflag, hpc, hconsole, hrun, henv, hkeys, fun g1 g2 => ?_⟩
    rw [readWord_plain g1 g2] at hkeys ⊢
    exact (sameKeyboard_readReg sr s).trans hkeys

/-- Settles O22: each load ends in one read after its operands were read. -/
theorem loadsReadTheirAddress : Obligations.LoadsReadTheirAddress :=
  ⟨fun s dr off9 h => ⟨_, exec_ld dr off9 s, (OperandsRead.refl s).loadInto_says h⟩,
    fun s dr base off6 h => ⟨_, exec_ldr dr base off6 s, (operandsRead_readReg base s).loadInto_says h⟩,
    fun s _ off9 h h' => ⟨_, exec_ldi h, (operandsRead_readWord (s.pc + sext off9) s).loadInto_says h'⟩⟩

/-- Settles O24: the read that cannot be made raises its fault in the state that the reads before it left. -/
theorem loadsOutOfRangeFault : Obligations.LoadsOutOfRangeFault := by
  refine ⟨fun s dr off9 h => ⟨?ld, ?ldi⟩, fun s dr base off6 h => ?ldr, fun s dr off9 h h' => ?ldiSecond⟩
  case ld => rw [exec_ld, (OperandsRead.refl s).loadInto_faults h]
  case ldi => rw [exec_ldi_unreadable h, raiseInstr_eq rfl]
  case ldr => rw [exec_ldr, (operandsRead_readReg base s).loadInto_faults h]
  case ldiSecond => rw [exec_ldi h, (operandsRead_readWord _ s).loadInto_faults h']

/-- Settles O25: adding the sign-extended offset adds its signed value modulo 65536. -/
theorem leaGivesTheAddress : Obligations.LeaGivesTheAddress := by
  refine fun s dr off9 => ⟨_, exec_lea dr off9 s, ?_, setRegFlag_flags_register ..⟩
  rw [setRegFlag_regs_self]
  exact toNat_add_sext s.pc off9 (by decide)

/-- Settles O28: the access that cannot be made raises its fault in the state that the reads before it left. -/
theorem storesOutOfRangeFault : Obligations.StoresOutOfRangeFault := by
  refine ⟨fun s sr off9 a ha h => ?st, fun s sr base off6 a ha h => ?str, fun s sr off9 a hr ha h => ?sti,
    fun s sr off9 h => ?pointer⟩
  case st => rw [exec_st, ← ha, (operandsRead_readReg sr s).memWrite_faults h]
  case str => rw [exec_str, ← ha, ((operandsRead_readReg sr s).then_readReg base).memWrite_faults h]
  case sti => rw [exec_sti hr, ← ha, ((operandsRead_readReg sr s).then_readWord _).memWrite_faults h]
  case pointer => rw [exec_sti_unreadable h, raiseInstr_eq (readReg_pc sr s)]

end Sys2Proof.Machine
end

section
/-! SUPPORT. The strings of PUTS and PUTSP (43_trap.md R144, R146, R149): what the reads of a string leave alone, the
loops behind the words that they print whole, and the three ways in which they end there. -/

namespace Sys2Proof.Machine

/-! ### A write that fails -/

theorem emit_fails {w : Word} {b : Byte} {s : State} {rest : List Bool} (h : s.writeOutcomes = false :: rest) :
    emit w b s = .stop (raiseInstr .ioError .nothing w { s with writeOutcomes := rest }) := by
  simp [emit, h]

/-- As many writes succeed as stand before the failing one. -/
theorem writesSucceed_of_outcomes {n : Nat} {s : State} {later : List Bool}
    (h : s.writeOutcomes = List.replicate n true ++ later) : writesSucceed n s = true := by
  simp [writesSucceed, h]

/-- After those writes the failing one is next. -/
theorem withOutput_outcomes {bs : List Byte} {n : Nat} {s : State} {later : List Bool}
    (h : s.writeOutcomes = List.replicate n true ++ later) (hn : bs.length = n) :
    (withOutput bs s).writeOutcomes = later := by
  simp [withOutput, h, hn]

/-! ### The two bytes of a word (R58) -/

theorem toNat_lowByte (w : Word) : (lowByte w).toNat = w.toNat % 256 := by
  simp [lowByte]

theorem toNat_highByte (w : Word) : (highByte w).toNat = w.toNat / 256 := by
  have := w.isLt
  simp only [highByte, BitVec.extractLsb'_toNat, Nat.shiftRight_eq_div_pow]
  omega

theorem length_packedBytes (ws : List Word) : (packedBytes ws).length = 2 * ws.length := by
  simp [packedBytes, Nat.mul_comm]

/-! ### Reading a string -/

theorem quiet_afterReads (n : Nat) (a : Word) (s : State) : Quiet s (afterReads n a s) := by
  obtain ⟨ready, latch, ch, m, h⟩ := afterReads_frame n a s
  rw [h]
  exact ⟨rfl, rfl, rfl, rfl, rfl, rfl, rfl, List.prefix_refl _, rfl, rfl, rfl, rfl⟩

theorem sameConsole_afterReads (n : Nat) (a : Word) (s : State) : SameConsole s (afterReads n a s) := by
  obtain ⟨ready, latch, ch, m, h⟩ := afterReads_frame n a s
  rw [h]
  exact ⟨rfl, rfl⟩

/-- The reads of a string and then the read of the word behind it. -/
theorem afterReads_append (ws : List Word) (n : Nat) (a : Word) (s : State) :
    afterReads (ws.length + n) a s = afterReads n (a + BitVec.ofNat 16 ws.length) (afterReads ws.length a s) := by
  induction ws generalizing a s with
  | nil => simp [afterReads]
  | cons v ws ih =>
    rw [address_cons, List.length_cons, Nat.succ_add_eq_add_succ, Nat.add_succ]
    exact ih (a + 1#16) (readWord a s).2

variable {w a last : Word} {ws : List Word} {s : State} {rest : List Bool}

/-- The read of a string's last word, whatever was printed before it. -/
theorem memRead_last (h : readsWords s a (ws ++ [last]) = true) (bs : List Byte) :
    memRead w (a + BitVec.ofNat 16 ws.length) (withOutput bs (afterReads ws.length a s)) =
      .ok last (withOutput bs (afterReads (ws.length + 1) a s)) := by
  obtain ⟨-, hlast⟩ := (readsWords_append ws [last] a s).1 h
  obtain ⟨hreadable, hword⟩ := (readsWords_singleton _ _ _).1 hlast
  rw [memRead_readable ((readable_withOutput _ bs _).trans hreadable), readWord_withOutput, hword, afterReads_append]
  rfl

/-! ### PUTS from an address -/

/-- PUTS behind words that it prints: a round is left there. -/
theorem putsFrom_behind (hr : readsWords s a ws = true) (hz : ∀ v ∈ ws, v ≠ 0#16)
    (hw : writesSucceed ws.length s = true) : ∃ m, putsFrom w 65536 a s =
      putsFrom w (m + 1) (a + BitVec.ofNat 16 ws.length) (withOutput (ws.map lowByte) (afterReads ws.length a s)) := by
  obtain ⟨m, hm, h⟩ := putsFrom_prefix w ws 65536 a s hr hz hw (by omega)
  have hlt := (a + BitVec.ofNat 16 ws.length).isLt
  exact ⟨m - 1, by rw [h, Nat.sub_add_cancel (by omega)]⟩

/-- A string that ends is printed. -/
theorem putsFrom_prints (hr : readsWords s a (ws ++ [0#16]) = true) (hz : ∀ v ∈ ws, v ≠ 0#16)
    (hw : writesSucceed ws.length s = true) :
    putsFrom w 65536 a s = withOutput (ws.map lowByte) (afterReads (ws.length + 1) a s) := by
  obtain ⟨m, h⟩ := putsFrom_behind (w := w) ((readsWords_append ws _ a s).1 hr).1 hz hw
  rw [h, putsFrom, memRead_last hr, Res.andThen_ok, if_pos rfl]

/-- A string that comes to an unreadable address raises its fault there. -/
theorem putsFrom_runsOut (hr : readsWords s a ws = true) (hz : ∀ v ∈ ws, v ≠ 0#16)
    (hw : writesSucceed ws.length s = true) (ha : readable s (a + BitVec.ofNat 16 ws.length) = false) :
    putsFrom w 65536 a s = raiseInstr .memoryReadOutOfRange (.address (a + BitVec.ofNat 16 ws.length)) w
      (withOutput (ws.map lowByte) (afterReads ws.length a s)) := by
  obtain ⟨m, h⟩ := putsFrom_behind (w := w) hr hz hw
  rw [h, putsFrom_unreadable]
  exact (readable_congr (quiet_afterReads ws.length a s).instructionCount _).trans ha

/-- A write that fails raises IoError at its word. -/
theorem putsFrom_fails (hr : readsWords s a (ws ++ [last]) = true) (hz : ∀ v ∈ ws, v ≠ 0#16) (hl : last ≠ 0#16)
    (ho : s.writeOutcomes = List.replicate ws.length true ++ false :: rest) :
    putsFrom w 65536 a s = raiseInstr .ioError .nothing w
      { withOutput (ws.map lowByte) (afterReads (ws.length + 1) a s) with writeOutcomes := rest } := by
  obtain ⟨m, h⟩ := putsFrom_behind (w := w) ((readsWords_append ws _ a s).1 hr).1 hz (writesSucceed_of_outcomes ho)
  have hnext := withOutput_outcomes ((sameConsole_afterReads (ws.length + 1) a s).2.trans ho) (ws.length_map lowByte)
  rw [h, putsFrom, memRead_last hr, Res.andThen_ok, if_neg hl, emit_fails hnext, Res.andThen_stop]

/-! ### PUTSP from an address -/

theorem putspFrom_unreadable (n : Nat) (h : readable s a = false) :
    putspFrom w n a s = raiseInstr .memoryReadOutOfRange (.address a) w s := by
  cases n with
  | zero => rfl
  | succ n => rw [putspFrom, memRead_unreadable h, Res.andThen_stop]

/-- PUTSP behind words that it prints, with `k` more writes to be made: a round is left there. -/
theorem putspFrom_behind (k : Nat) (hr : readsWords s a ws = true)
    (hz : ∀ v ∈ ws, lowByte v ≠ 0#8 ∧ highByte v ≠ 0#8) (hw : writesSucceed (2 * ws.length + k) s = true) :
    ∃ m, putspFrom w 65536 a s = putspFrom w (m + 1) (a + BitVec.ofNat 16 ws.length)
      (withOutput (packedBytes ws) (afterReads ws.length a s)) := by
  obtain ⟨m, hm, -, h⟩ := putspFrom_prefix w ws k 65536 a s hr hz hw (by omega)
  have hlt := (a + BitVec.ofNat 16 ws.length).isLt
  exact ⟨m - 1, by rw [h, Nat.sub_add_cancel (by omega)]⟩

/-- The writes that are left behind words that PUTSP printed. -/
theorem writesSucceed_behind {k : Nat} (n : Nat) (hw : writesSucceed (2 * ws.length + k) s = true) :
    writesSucceed k (withOutput (packedBytes ws) (afterReads n a s)) = true := by
  refine (writesSucceed_withOutput (packedBytes ws) k _ ?_).2
  rw [length_packedBytes, writesSucceed, (sameConsole_afterReads n a s).2]
  exact hw

/-- A packed string that ends is printed, up to its first zero byte. -/
theorem putspFrom_prints (hr : readsWords s a (ws ++ [last]) = true)
    (hz : ∀ v ∈ ws, lowByte v ≠ 0#8 ∧ highByte v ≠ 0#8) (hl : lowByte last = 0#8 ∨ highByte last = 0#8)
    (hw : writesSucceed (2 * ws.length + if lowByte last = 0#8 then 0 else 1) s = true) :
    putspFrom w 65536 a s = withOutput (packedBytes ws ++ if lowByte last = 0#8 then [] else [lowByte last])
      (afterReads (ws.length + 1) a s) := by
  obtain ⟨m, h⟩ := putspFrom_behind (w := w) _ ((readsWords_append ws _ a s).1 hr).1 hz hw
  rw [h, putspFrom, memRead_last hr, Res.andThen_ok]
  by_cases hlow : lowByte last = 0#8
  · rw [if_pos hlow, if_pos hlow, List.append_nil]
  · rw [if_neg hlow] at hw
    rw [if_neg hlow, if_neg hlow, emit_succeeds (writesSucceed_behind _ hw), Res.andThen_ok,
      if_pos (hl.resolve_left hlow), withOutput_withOutput]

theorem putspFrom_runsOut (hr : readsWords s a ws = true) (hz : ∀ v ∈ ws, lowByte v ≠ 0#8 ∧ highByte v ≠ 0#8)
    (hw : writesSucceed (2 * ws.length) s = true) (ha : readable s (a + BitVec.ofNat 16 ws.length) = false) :
    putspFrom w 65536 a s = raiseInstr .memoryReadOutOfRange (.address (a + BitVec.ofNat 16 ws.length)) w
      (withOutput (packedBytes ws) (afterReads ws.length a s)) := by
  obtain ⟨m, h⟩ := putspFrom_behind (w := w) 0 hr hz hw
  rw [h, putspFrom_unreadable]
  exact (readable_congr (quiet_afterReads ws.length a s).instructionCount _).trans ha

/-- A write of a low byte that fails raises IoError at its word. -/
theorem putspFrom_failsLow (hr : readsWords s a (ws ++ [last]) = true)
    (hz : ∀ v ∈ ws, lowByte v ≠ 0#8 ∧ highByte v ≠ 0#8) (hl : lowByte last ≠ 0#8)
    (ho : s.writeOutcomes = List.replicate (2 * ws.length) true ++ false :: rest) :
    putspFrom w 65536 a s = raiseInstr .ioError .nothing w
      { withOutput (packedBytes ws) (afterReads (ws.length + 1) a s) with writeOutcomes := rest } := by
  obtain ⟨m, h⟩ :=
    putspFrom_behind (w := w) 0 ((readsWords_append ws _ a s).1 hr).1 hz (writesSucceed_of_outcomes ho)
  have hnext := withOutput_outcomes ((sameConsole_afterReads (ws.length + 1) a s).2.trans ho) (length_packedBytes ws)
  rw [h, putspFrom, memRead_last hr, Res.andThen_ok, if_neg hl, emit_fails hnext, Res.andThen_stop]

/-- A write of a high byte that fails raises IoError, with the low byte of its word printed. -/
theorem putspFrom_failsHigh (hr : readsWords s a (ws ++ [last]) = true)
    (hz : ∀ v ∈ ws, lowByte v ≠ 0#8 ∧ highByte v ≠ 0#8) (hl : lowByte last ≠ 0#8) (hh : highByte last ≠ 0#8)
    (ho : s.writeOutcomes = List.replicate (2 * ws.length + 1) true ++ false :: rest) :
    putspFrom w 65536 a s = raiseInstr .ioError .nothing w
      { withOutput (packedBytes ws ++ [lowByte last]) (afterReads (ws.length + 1) a s) with
        writeOutcomes := rest } := by
  have hw := writesSucceed_of_outcomes ho
  obtain ⟨m, h⟩ := putspFrom_behind (w := w) 1 ((readsWords_append ws _ a s).1 hr).1 hz hw
  have hnext := withOutput_outcomes (bs := packedBytes ws ++ [lowByte last])
    ((sameConsole_afterReads (ws.length + 1) a s).2.trans ho) (by simp [length_packedBytes])
  rw [h, putspFrom, memRead_last hr, Res.andThen_ok, if_neg hl, emit_succeeds (writesSucceed_behind _ hw),
    Res.andThen_ok, if_neg hh, withOutput_withOutput, emit_fails hnext, Res.andThen_stop]

end Sys2Proof.Machine
end

section
/-! SUPPORT. PUTS and PUTSP as their loops from the address in R0 (43_trap.md R144, R146), and how their instructions
end: printed, out of the readable words, or with a failing write. -/

namespace Sys2Proof.Machine

/-! ### From R0 -/

theorem exec_puts (ign : BitVec 4) (s : State) : exec (.puts ign) s =
    .next (putsFrom (encode (.puts ign)) 65536 (readReg 0 s).1 (readReg 0 s).2) := rfl

theorem exec_putsp (ign : BitVec 4) (s : State) : exec (.putsp ign) s =
    .next (putspFrom (encode (.putsp ign)) 65536 (readReg 0 s).1 (readReg 0 s).2) := rfl

theorem writesSucceed_readReg (n : Nat) (r : Reg) (s : State) :
    writesSucceed n (readReg r s).2 = writesSucceed n s := by
  rw [writesSucceed, (sameConsole_readReg r s).2, writesSucceed]

/-- Reading R0 and then `n` words from there on is quiet. -/
theorem quiet_string (n : Nat) (r : Reg) (s : State) : Quiet s (afterReads n (readReg r s).1 (readReg r s).2) :=
  (quiet_readReg r s).trans (quiet_afterReads n _ _)

theorem sameConsole_string (n : Nat) (r : Reg) (s : State) :
    SameConsole s (afterReads n (readReg r s).1 (readReg r s).2) :=
  (sameConsole_readReg r s).trans (sameConsole_afterReads n _ _)

variable {ws : List Word} {last : Word} {s : State} (ign : BitVec 4)

/-- A string in the loaded range is read as it stands, and its reads change nothing. -/
theorem string_of_holdsWords (h : holdsWords s (readReg 0 s).1 ws = true) :
    readsWords (readReg 0 s).2 (readReg 0 s).1 ws = true ∧
      afterReads ws.length (readReg 0 s).1 (readReg 0 s).2 = (readReg 0 s).2 :=
  reads_of_holdsWords h (quiet_readReg 0 s).mem (quiet_readReg 0 s).instructionCount

/-! ### PUTS -/

theorem exec_puts_prints (hr : readsWords (readReg 0 s).2 (readReg 0 s).1 (ws ++ [0#16]) = true)
    (hz : ∀ v ∈ ws, v ≠ 0#16) (hw : writesSucceed ws.length s = true) :
    exec (.puts ign) s =
      .next (withOutput (ws.map lowByte) (afterReads (ws.length + 1) (readReg 0 s).1 (readReg 0 s).2)) := by
  rw [exec_puts, putsFrom_prints hr hz ((writesSucceed_readReg _ 0 s).trans hw)]

theorem exec_puts_runsOut (hr : readsWords (readReg 0 s).2 (readReg 0 s).1 ws = true)
    (ha : readable s ((readReg 0 s).1 + BitVec.ofNat 16 ws.length) = false) (hz : ∀ v ∈ ws, v ≠ 0#16)
    (hw : writesSucceed ws.length s = true) :
    exec (.puts ign) s = .next (faultedWith
      (instrRecord .memoryReadOutOfRange (.address ((readReg 0 s).1 + BitVec.ofNat 16 ws.length))
        (encode (.puts ign)) s)
      (withOutput (ws.map lowByte) (afterReads ws.length (readReg 0 s).1 (readReg 0 s).2))) := by
  have hpc := (quiet_string ws.length 0 s).trans (quiet_withOutput (ws.map lowByte) _) |>.pc
  rw [exec_puts, putsFrom_runsOut hr hz ((writesSucceed_readReg _ 0 s).trans hw) ((readable_readReg 0 s _).trans ha),
    raiseInstr_eq hpc]

/-! ### PUTSP -/

theorem exec_putsp_prints (hr : readsWords (readReg 0 s).2 (readReg 0 s).1 (ws ++ [last]) = true)
    (hz : ∀ v ∈ ws, lowByte v ≠ 0#8 ∧ highByte v ≠ 0#8) (hl : lowByte last = 0#8 ∨ highByte last = 0#8)
    (hw : writesSucceed (2 * ws.length + if lowByte last = 0#8 then 0 else 1) s = true) :
    exec (.putsp ign) s = .next (withOutput (packedBytes ws ++ if lowByte last = 0#8 then [] else [lowByte last])
      (afterReads (ws.length + 1) (readReg 0 s).1 (readReg 0 s).2)) := by
  rw [exec_putsp, putspFrom_prints hr hz hl ((writesSucceed_readReg _ 0 s).trans hw)]

theorem exec_putsp_runsOut (hr : readsWords (readReg 0 s).2 (readReg 0 s).1 ws = true)
    (ha : readable s ((readReg 0 s).1 + BitVec.ofNat 16 ws.length) = false)
    (hz : ∀ v ∈ ws, lowByte v ≠ 0#8 ∧ highByte v ≠ 0#8) (hw : writesSucceed (2 * ws.length) s = true) :
    exec (.putsp ign) s = .next (faultedWith
      (instrRecord .memoryReadOutOfRange (.address ((readReg 0 s).1 + BitVec.ofNat 16 ws.length))
        (encode (.putsp ign)) s)
      (withOutput (packedBytes ws) (afterReads ws.length (readReg 0 s).1 (readReg 0 s).2))) := by
  have hpc := (quiet_string ws.length 0 s).trans (quiet_withOutput (packedBytes ws) _) |>.pc
  rw [exec_putsp, putspFrom_runsOut hr hz ((writesSucceed_readReg _ 0 s).trans hw)
    ((readable_readReg 0 s _).trans ha), raiseInstr_eq hpc]

/-! ### A failing write -/

/-- The fault that a failing write raises once `n` words of a string were read and `bs` written. -/
theorem ioError_in_string (w : Word) (n : Nat) (bs : List Byte) (rest : List Bool) (s : State) :
    raiseInstr .ioError .nothing w
      { withOutput bs (afterReads n (readReg 0 s).1 (readReg 0 s).2) with writeOutcomes := rest } =
    faultedWith (instrRecord .ioError .nothing w s)
      { afterReads n (readReg 0 s).1 (readReg 0 s).2 with
        output := s.output ++ bs, writeOutcomes := rest } := by
  rw [← (sameConsole_string n 0 s).1]
  exact raiseInstr_eq (quiet_string n 0 s).pc

end Sys2Proof.Machine
end

section
/-! SUPPORT. The other routines by what they meet: a character latched, in the channel or none, and a console that
accepts their bytes or fails at one (43_trap.md R142, R143, R145, R147 to R150). -/

namespace Sys2Proof.Machine

variable {s : State} {w : Word} {routine : InputRoutine} {c : Byte} {ch : List Byte} {rest : List Bool}

/-! ### The table of vectors -/

theorem dispatchTrap_table (w : Word) (s : State) :
    dispatchTrap 0x20#8 w s = getcRoutine w s ∧ dispatchTrap 0x21#8 w s = outRoutine w s ∧
    dispatchTrap 0x22#8 w s = putsRoutine w s ∧ dispatchTrap 0x23#8 w s = inRoutine w s ∧
    dispatchTrap 0x24#8 w s = putspRoutine w s ∧ dispatchTrap 0x25#8 w s = haltRoutine w s := by
  simp [dispatchTrap]

/-- A vector below or above the table's is a well-formed TRAP of its own. -/
theorem wellFormed_trap_of_outside {v : BitVec 8} (ign : BitVec 4) (h : v.toNat < 0x20 ∨ 0x25 < v.toNat) :
    (Instr.trap v ign).wellFormed = true := by
  have hlisted : ∀ u ∈ trapVectors, 0x20 ≤ u.toNat ∧ u.toNat ≤ 0x25 := by decide
  have hv : v ∉ trapVectors := fun hmem => by
    obtain ⟨hlow, hhigh⟩ := hlisted v hmem
    omega
  simpa [Instr.wellFormed] using hv

/-! ### A sequence of console writes -/

/-- A sequence of writes that fails at its byte `k` appends the bytes before it. -/
theorem emitAll_fails {bs : List Byte} {k : Nat} (hk : k < bs.length)
    (ho : s.writeOutcomes = List.replicate k true ++ false :: rest) :
    emitAll w bs s = .stop (raiseInstr .ioError .nothing w
      { s with output := s.output ++ bs.take k, writeOutcomes := rest }) := by
  induction bs generalizing k s with
  | nil => simp at hk
  | cons b bs ih =>
    match k with
    | 0 => simp [emitAll, emit_fails ho]
    | k + 1 =>
      have hfirst : emit w b s = .ok () (withOutput [b] s) :=
        emit_succeeds (by simp [writesSucceed, ho, List.replicate_succ])
      have hlater : (withOutput [b] s).writeOutcomes = List.replicate k true ++ false :: rest := by
        simp [withOutput, ho, List.replicate_succ]
      simp only [emitAll, hfirst, ih (Nat.lt_of_succ_lt_succ hk) hlater]
      simp [withOutput]

/-! ### OUT and HALT -/

theorem exec_out (ign : BitVec 4) (s : State) : exec (.out ign) s =
    .next ((emit (encode (.out ign)) (lowByte (readReg 0 s).1) (readReg 0 s).2).andThen fun _ u => u) := rfl

theorem exec_halt (ign : BitVec 4) (s : State) : exec (.halt ign) s =
    .next ((emitAll (encode (.halt ign)) haltBanner s).andThen fun _ u => haltRun .trapHalt u) := rfl

/-! ### Taking a character -/

theorem takeChar_latched (hr : s.kbReady = true) :
    takeChar routine w s = .ok s.kbLatch { s with kbReady := false } := by
  simp [takeChar, hr]

theorem takeChar_head (hr : s.kbReady = false) (hc : s.channel = c :: ch) :
    takeChar routine w s = .ok c { s with channel := ch } := by
  simp [takeChar, hr, hc]

theorem takeChar_waits (hr : s.kbReady = false) (hc : s.channel = []) :
    takeChar routine w s = .stop { s with wait := .waitingInput routine w } := by
  simp [takeChar, hr, hc]

theorem exec_getc (ign : BitVec 4) (s : State) : exec (.getc ign) s =
    .next ((takeChar .getc (encode (.getc ign)) s).andThen fun c u => setReg 0 (zext c) u) := rfl

/-! ### IN's echo -/

theorem deliverChar_echoes (h : writesSucceed 1 s = true) :
    deliverChar .input w c s = withOutput [c] (setReg 0 (zext c) s) := by
  rw [deliverChar, emit_succeeds (s := setReg 0 (zext c) s) h, Res.andThen_ok]

theorem deliverChar_fails (ho : s.writeOutcomes = false :: rest) : deliverChar .input w c s =
    raiseInstr .ioError .nothing w { setReg 0 (zext c) s with writeOutcomes := rest } := by
  rw [deliverChar, emit_fails (s := setReg 0 (zext c) s) ho, Res.andThen_stop]

/-! ### IN after its prompt -/

theorem exec_input (ign : BitVec 4) (s : State) : exec (.input ign) s =
    .next ((emitAll (encode (.input ign)) inputPrompt s).andThen fun _ u =>
      (takeChar .input (encode (.input ign)) u).andThen fun c u' =>
        deliverChar .input (encode (.input ign)) c u') := rfl

theorem emitAll_inputPrompt (hw : writesSucceed 7 s = true) :
    emitAll w inputPrompt s = .ok () (withOutput inputPrompt s) := emitAll_succeeds inputPrompt hw

theorem exec_input_latched (ign : BitVec 4) (hw : writesSucceed 7 s = true) (hr : s.kbReady = true) :
    exec (.input ign) s = .next (deliverChar .input (encode (.input ign)) s.kbLatch
      (withOutput inputPrompt { s with kbReady := false })) := by
  rw [exec_input, emitAll_inputPrompt hw, Res.andThen_ok, takeChar_latched (s := withOutput inputPrompt s) hr]
  rfl

theorem exec_input_head (ign : BitVec 4) (hw : writesSucceed 7 s = true) (hr : s.kbReady = false)
    (hc : s.channel = c :: ch) : exec (.input ign) s = .next (deliverChar .input (encode (.input ign)) c
      (withOutput inputPrompt { s with channel := ch })) := by
  rw [exec_input, emitAll_inputPrompt hw, Res.andThen_ok, takeChar_head (s := withOutput inputPrompt s) hr hc]
  rfl

theorem exec_input_waits (ign : BitVec 4) (hw : writesSucceed 7 s = true) (hr : s.kbReady = false)
    (hc : s.channel = []) : exec (.input ign) s = .next { withOutput inputPrompt s with
      wait := .waitingInput .input (encode (.input ign)) } := by
  rw [exec_input, emitAll_inputPrompt hw, Res.andThen_ok, takeChar_waits (s := withOutput inputPrompt s) hr hc]
  rfl

/-- The character in R0 and echoed after the prompt, written out. -/
theorem echoed_after_prompt (c : Byte) (s : State) :
    withOutput [c] (setReg 0 (zext c) (withOutput inputPrompt s)) = { s with
      output := s.output ++ [0x49, 0x6E, 0x70, 0x75, 0x74, 0x3A, 0x20, c], writeOutcomes := s.writeOutcomes.drop 8,
      regs := s.regs.set 0 (zext c), gprWritten := s.gprWritten.set 0 true } := by
  change withOutput [c] (withOutput inputPrompt (setReg 0 (zext c) s)) = _
  rw [withOutput_withOutput]
  rfl

/-! ### The end of a wait -/

/-- A waiting core takes the head of the channel and completes its routine. -/
theorem step_resumes (ht : nextTurn s = .core) (hr : s.run = .running) (hw : s.wait = .waitingInput routine w)
    (hc : s.channel = c :: ch) : step s =
      .next (dropReceiver (deliverChar routine w c { popTurn s with channel := ch, wait := .none })) := by
  rw [step_core ht, coreTurn_waiting (s := popTurn s) hr hw]
  simp [resumeInput, hc]

/-- Without a character it goes on waiting. -/
theorem step_waits (ht : nextTurn s = .core) (hr : s.run = .running) (hw : s.wait = .waitingInput routine w)
    (hc : s.channel = []) : step s = .next (popTurn s) := by
  rw [step_core ht, coreTurn_waiting (s := popTurn s) hr hw]
  simp [resumeInput, hc, dropReceiver_running (runEnded_of_run_running (s := popTurn s) hr)]

/-! ### TRAP's rows -/

/-- TRAP and the rows of its routines. -/
def IsTrap (i : Instr) (ign : BitVec 4) : Prop :=
  (∃ v, i = .trap v ign) ∨ i = .getc ign ∨ i = .out ign ∨ i = .puts ign ∨ i = .input ign ∨ i = .putsp ign ∨
    i = .halt ign

/-- None of them has a DR, jumps, stores or writes R7. -/
theorem IsTrap.writes {i : Instr} {ign : BitVec 4} (h : IsTrap i ign) :
    flagDest i = none ∧ isControl i = false ∧ isStore i = false ∧ (7 : Reg) ∉ writtenRegs i := by
  rcases h with ⟨v, rfl⟩ | rfl | rfl | rfl | rfl | rfl | rfl
  · refine ⟨rfl, rfl, rfl, ?_⟩
    simp only [writtenRegs]
    split <;> decide
  all_goals exact ⟨rfl, rfl, rfl, by simp [writtenRegs]⟩

end Sys2Proof.Machine
end

section
/-! The statements of 43_trap.md. -/

namespace Sys2Proof.Machine

/-- Settles O37: PUTS behind the words it prints comes to the zero word. In the loaded range the reads change
nothing. -/
theorem putsPrintsItsString : Obligations.PutsPrintsItsString := by
  refine ⟨fun s ign ws hr hz hw => exec_puts_prints ign hr hz hw, fun s ign ws h hz hw => ?held, toNat_lowByte⟩
  obtain ⟨hr, hstill⟩ := string_of_holdsWords h
  rw [List.length_append, List.length_singleton] at hstill
  rw [exec_puts_prints ign hr hz hw, hstill, withOutput, (sameConsole_readReg 0 s).1, (sameConsole_readReg 0 s).2,
    List.length_map]

/-- Settles O38: PUTSP behind the words it prints comes to the word with the zero byte. In the loaded range the reads
change nothing. -/
theorem putspPrintsItsString : Obligations.PutspPrintsItsString := by
  refine ⟨fun s ign ws last hr hz hl hw => exec_putsp_prints ign hr hz hl hw, fun s ign ws last h hz hl hw => ?held,
    fun w => ⟨toNat_lowByte w, toNat_highByte w⟩⟩
  obtain ⟨hr, hstill⟩ := string_of_holdsWords h
  rw [List.length_append, List.length_singleton] at hstill
  rw [exec_putsp_prints ign hr hz hl hw, hstill]

/-- Settles O39: behind the words they print both loops come to the unreadable address. In the loaded range the reads
change nothing. -/
theorem stringsRunningOutFault : Obligations.StringsRunningOutFault := by
  refine ⟨?reads, ?held⟩
  case reads =>
    rintro s ign ws _ hr rfl ha
    exact ⟨exec_puts_runsOut ign hr ha, exec_putsp_runsOut ign hr ha⟩
  case held =>
    rintro s ign ws _ h rfl ha
    obtain ⟨hr, hstill⟩ := string_of_holdsWords h
    refine ⟨fun hz hw => ?_, fun hz hw => ?_⟩
    · rw [exec_puts_runsOut ign hr ha hz hw, hstill]
    · rw [exec_putsp_runsOut ign hr ha hz hw, hstill]

/-- Settles O60: behind the words they print both loops come to the write that fails. -/
theorem failedStringWritesRaiseIoError : Obligations.FailedStringWritesRaiseIoError := by
  intro s ign ws last rest hr
  have outcomes : ∀ {l : List Bool}, s.writeOutcomes = l → (readReg 0 s).2.writeOutcomes = l :=
    (sameConsole_readReg 0 s).2.trans
  refine ⟨fun hz hl ho => ?puts, fun hz hl => ⟨fun ho => ?low, fun hh ho => ?high⟩⟩
  case puts => rw [exec_puts, putsFrom_fails hr hz hl (outcomes ho), ioError_in_string]
  case low => rw [exec_putsp, putspFrom_failsLow hr hz hl (outcomes ho), ioError_in_string]
  case high =>
    rw [exec_putsp, putspFrom_failsHigh hr hz hl hh (outcomes ho), ioError_in_string, List.append_assoc]

/-- Settles O42: an instruction that has no DR, does not jump and does not store leaves the flag, pc and memory, and R7
is not among the registers it writes. -/
theorem trapInstructionsFrame : Obligations.TrapInstructionsFrame := by
  intro i ign s hi
  obtain ⟨hflag, hcontrol, hstore, h7⟩ := IsTrap.writes hi
  obtain ⟨t, ht⟩ := exec_next i s
  have did := exec_cases ht
  have hmem := onlyStoresChangeMemory i s t ht hstore
  exact ⟨t, ht, did.sameRegs, (did.sameRegs 7 h7).1, did.sameFlag hflag, did.pc hcontrol,
    ⟨did.instructionCount, fun a _ => by rw [hmem]⟩, did.sameEnvironment⟩

/-- Settles O31: the table's entry is the routine of the row, and both words are the same. -/
theorem trapDispatchesToItsRoutines : Obligations.TrapDispatchesToItsRoutines := by
  intro ign s
  have table := fun i => dispatchTrap_table (encode i) s
  obtain ⟨getc, -⟩ := table (.getc ign)
  obtain ⟨-, out, -⟩ := table (.out ign)
  obtain ⟨-, -, puts, -⟩ := table (.puts ign)
  obtain ⟨-, -, -, input, -⟩ := table (.input ign)
  obtain ⟨-, -, -, -, putsp, -⟩ := table (.putsp ign)
  obtain ⟨-, -, -, -, -, halt⟩ := table (.halt ign)
  exact ⟨congrArg Host.Outcome.next getc, congrArg Host.Outcome.next out, congrArg Host.Outcome.next puts,
    congrArg Host.Outcome.next input, congrArg Host.Outcome.next putsp, congrArg Host.Outcome.next halt⟩

/-- Settles O32: such a vector is none of the table's. -/
theorem unknownTrapVectorFaults : Obligations.UnknownTrapVectorFaults := by
  intro v ign s hv
  exact ⟨instrRecord .unknownTrapRoutine (.vector v) (encode (.trap v ign)) s,
    congrArg Host.Outcome.next (dispatchTrap_unknown _ s (wellFormed_trap_of_outside ign hv)), rfl, rfl⟩

/-- Settles O33: GETC takes the latched character, else the channel's head, and writes R0. -/
theorem getcTakesACharacter : Obligations.GetcTakesACharacter := by
  refine fun s ign c => ⟨fun hr hc => ?latched, fun rest hr hc => ?head⟩
  case latched => rw [exec_getc, takeChar_latched hr, hc]; rfl
  case head => rw [exec_getc, takeChar_head hr hc]; rfl

/-- Settles O34: seven of the eight writes are the prompt's, and the last is the echo's. -/
theorem inPromptsTakesAndEchoes : Obligations.InPromptsTakesAndEchoes := by
  intro s ign c hw
  obtain ⟨hprompt, hecho⟩ := writesSucceed_withOutput inputPrompt 1 s hw
  refine ⟨fun hr hc => ?latched, fun rest hr hc => ?head⟩
  case latched =>
    rw [exec_input_latched ign hprompt hr, deliverChar_echoes, echoed_after_prompt, hc]
    exact hecho
  case head =>
    rw [exec_input_head ign hprompt hr hc, deliverChar_echoes, echoed_after_prompt]
    exact hecho

/-- Settles O35: without a character both routines wait, and a waiting core's move is `step_waits` or
`step_resumes`. -/
theorem inputWaitsAndResumes : Obligations.InputWaitsAndResumes := by
  refine ⟨fun s ign hr hc => ⟨?getcWaits, fun hw => ?inputWaits⟩, fun s routine w ht hr hw =>
    ⟨fun hc => step_waits ht hr hw hc, fun c rest hc hget => ?getcResumes, fun c rest hc hin hecho => ?inputResumes⟩⟩
  case getcWaits => rw [exec_getc, takeChar_waits hr hc]; rfl
  case inputWaits => rw [exec_input_waits ign hw hr hc]; rfl
  case getcResumes =>
    subst hget
    rw [step_resumes ht hr hw hc, dropReceiver_running]
    · rfl
    · exact runEnded_of_run_running hr
  case inputResumes =>
    subst hin
    rw [step_resumes ht hr hw hc, deliverChar_echoes, dropReceiver_running]
    · rfl
    · exact runEnded_of_run_running hr
    · exact hecho

/-- Settles O36: OUT reads R0 and makes one write, which succeeds or fails. -/
theorem outEmitsTheLowByte : Obligations.OutEmitsTheLowByte := by
  intro s ign
  refine ⟨_, exec_out ign s, .of_eq (quiet_outRoutine _ s).regs (quiet_outRoutine _ s).gprWritten,
    (quiet_outRoutine _ s).sameFlag, ?_⟩
  have hkeys := sameKeyboard_readReg 0 s
  have hwait := (goes_readReg 0 s).wait
  have hout := (sameConsole_readReg 0 s).1
  rcases emit_cases (encode (.out ign)) (lowByte (readReg 0 s).1) (readReg 0 s).2 with ⟨hw, he⟩ | ⟨rest, ho, he⟩
  · rw [writesSucceed_readReg] at hw
    rw [he, Res.andThen_ok]
    exact ⟨hkeys, hwait, fun _ => ⟨readReg_run 0 s, _, toNat_lowByte _, congrArg (· ++ _) hout⟩, by simp [hw]⟩
  · rw [(sameConsole_readReg 0 s).2] at ho
    rw [he, Res.andThen_stop]
    exact ⟨hkeys, hwait, by simp [writesSucceed, ho], fun _ => ⟨hout, _, rfl, rfl⟩⟩

/-- Settles O40: the banner is sixteen writes, and then the run is halted. -/
theorem haltPrintsAndEndsTheRun : Obligations.HaltPrintsAndEndsTheRun := by
  intro s ign hw
  rw [exec_halt, emitAll_succeeds haltBanner hw]
  rfl

/-- Settles O41: HALT and IN's prompt are sequences of writes, and IN's echo is one write after R0's. -/
theorem failedWritesRaiseIoError : Obligations.FailedWritesRaiseIoError := by
  refine ⟨fun s ign k rest hk ho => ?halt, fun s ign k rest hk ho => ?prompt, fun s ign rest ho hr => ?latched,
    fun s ign c ch rest ho hr hc => ?head, fun s w c ch rest ht hr hw hc ho => ?afterWait⟩
  case halt => rw [exec_halt, emitAll_fails (bs := haltBanner) hk ho]; rfl
  case prompt => rw [exec_input, emitAll_fails (bs := inputPrompt) hk ho]; rfl
  case latched =>
    rw [exec_input_latched ign (writesSucceed_of_outcomes ho) hr,
      deliverChar_fails (withOutput_outcomes (s := { s with kbReady := false }) ho rfl)]
    rfl
  case head =>
    rw [exec_input_head ign (writesSucceed_of_outcomes ho) hr hc,
      deliverChar_fails (withOutput_outcomes (s := { s with channel := ch }) ho rfl)]
    rfl
  case afterWait =>
    rw [step_resumes ht hr hw hc, deliverChar_fails, dropReceiver_ended rfl]
    · rfl
    · exact ho

end Sys2Proof.Machine
end

section
/-! SUPPORT. RTI and the reserved opcode: the word of each and its meaning (44_rti_reserved.md R160, R161). -/

namespace Sys2Proof.Machine

theorem encode_rti (ign : BitVec 12) : encode (.rti ign) = 0x8#4 ++ ign := rfl

theorem encode_reserved (ign : BitVec 12) : encode (.reserved ign) = 0xD#4 ++ ign := rfl

theorem exec_rti (ign : BitVec 12) (s : State) : exec (.rti ign) s =
    .next (raiseInstr .rtiUnimplemented .nothing (encode (.rti ign)) s) := rfl

theorem exec_reserved (ign : BitVec 12) (s : State) : exec (.reserved ign) s =
    .next (raiseInstr .reservedInstructionFound .nothing (encode (.reserved ign)) s) := rfl

end Sys2Proof.Machine
end

section
/-! The statement of 44_rti_reserved.md. -/

namespace Sys2Proof.Machine

/-- Settles O43: each row raises its own fault, and a raised fault is its record in the run state and nothing else. -/
theorem rtiAndReservedFault : Obligations.RtiAndReservedFault := by
  refine fun ign s => ⟨?rti, ?reserved⟩
  case rti => rw [exec_rti, raiseInstr_eq rfl, encode_rti, instrRecord]
  case reserved => rw [exec_reserved, raiseInstr_eq rfl, encode_reserved, instrRecord]

end Sys2Proof.Machine
end

section
/-! SUPPORT. The load of an object file (70_reset_and_hazards.md R191 to R194): the words of its bytes, what `load`
answers in each case of its checks, and the loaded core. -/

namespace Sys2Proof.Machine

/-! ### The words of a file (R191) -/

theorem length_wordsOf (file : List Byte) : (wordsOf file).length = file.length / 2 := by
  induction file using wordsOf.induct with
  | case1 hi lo rest ih => simp only [wordsOf, List.length_cons, ih]; omega
  | case2 | case3 => simp [wordsOf]

/-- Two bytes are one word, the first being its high byte. -/
theorem toNat_bytePair (hi lo : Byte) : (hi ++ lo : Word).toNat = hi.toNat * 256 + lo.toNat := toNat_append_add hi lo

theorem toNat_wordsOf_getD (file : List Byte) {k : Nat} (hk : k < file.length / 2) :
    ((wordsOf file).getD k 0#16).toNat = (file.getD (2 * k) 0#8).toNat * 256 + (file.getD (2 * k + 1) 0#8).toNat := by
  induction file using wordsOf.induct generalizing k with
  | case1 hi lo rest ih =>
    cases k with
    | zero => exact toNat_bytePair hi lo
    | succ k =>
      have hrest : k < rest.length / 2 := by simp only [List.length_cons] at hk; omega
      exact ih hrest
  | case2 | case3 => simp at hk

/-- The header is the word 0x3000 in one way only. -/
theorem bytePair_eq_programStart {hi lo : Byte} : hi ++ lo = programStart ↔ hi = 0x30#8 ∧ lo = 0x00#8 := by
  refine ⟨fun h => ?_, fun ⟨hh, hl⟩ => by rw [hh, hl]; rfl⟩
  have hsum : hi.toNat * 256 + lo.toNat = 0x3000 := (toNat_bytePair hi lo).symm.trans (congrArg BitVec.toNat h)
  have hlo : lo.toNat < 256 := lo.isLt
  constructor
  · exact BitVec.eq_of_toNat_eq (show hi.toNat = 0x30 by omega)
  · exact BitVec.eq_of_toNat_eq (show lo.toNat = 0x00 by omega)

/-! ### What a load answers, check by check (R192) -/

/-- The core with the program's words placed from 0x3000 on. -/
def withProgram (program : List Word) (s : State) : State :=
  { s with mem := imageAt programStart.toNat program, instructionCount := program.length }

section
variable {s : State} {hi lo : Byte} {file body : List Byte}

theorem load_oddLength (h : file.length % 2 = 1) : load s (.bytes file) = .error (.oddByteCount file.length) := by
  simp [load, h]

/-- Past the first check, a file of at least two bytes is judged by its first word and the number of the others. -/
theorem load_evenLength (h : body.length % 2 = 0) : load s (.bytes (hi :: lo :: body)) =
    if hi ++ lo ≠ programStart then .error (.wrongOrigin (hi ++ lo))
    else if body.length = 0 then .error .emptyProgram
    else if body.length > 2 * programCapacity then .error (.programTooLong (body.length / 2) programCapacity)
    else .ok (withProgram (wordsOf body) s) := by
  have heven : ¬ (hi :: lo :: body).length % 2 = 1 := by simp only [List.length_cons]; omega
  have hnone : body.length / 2 = 0 ↔ body.length = 0 := by omega
  have hlong : body.length / 2 > programCapacity ↔ body.length > 2 * programCapacity := by omega
  simp only [load, if_neg heven, wordsOf, length_wordsOf, hnone, hlong, withProgram]

theorem load_wrongOrigin (h : body.length % 2 = 0) (hw : ¬(hi = 0x30#8 ∧ lo = 0x00#8)) :
    load s (.bytes (hi :: lo :: body)) = .error (.wrongOrigin (hi ++ lo)) := by
  rw [load_evenLength h, if_pos (mt bytePair_eq_programStart.1 hw)]

/-- With the header in place, the length decides. -/
theorem load_header (h : body.length % 2 = 0) : load s (.bytes (0x30#8 :: 0x00#8 :: body)) =
    if body.length = 0 then .error .emptyProgram
    else if body.length > 2 * programCapacity then .error (.programTooLong (body.length / 2) programCapacity)
    else .ok (withProgram (wordsOf body) s) := by
  rw [load_evenLength h, if_neg (not_not.2 (bytePair_eq_programStart.2 ⟨rfl, rfl⟩))]

theorem load_programTooLong (h : body.length % 2 = 0) (hl : 2 * programCapacity < body.length) :
    load s (.bytes (0x30#8 :: 0x00#8 :: body)) = .error (.programTooLong (body.length / 2) programCapacity) := by
  rw [load_header h, if_neg (Nat.ne_zero_of_lt hl), if_pos hl]

theorem load_lawful (h : body.length % 2 = 0) (h0 : 0 < body.length) (hl : body.length ≤ 2 * programCapacity) :
    load s (.bytes (0x30#8 :: 0x00#8 :: body)) = .ok (withProgram (wordsOf body) s) := by
  rw [load_header h, if_neg h0.ne', if_neg (Nat.not_lt.2 hl)]

/-- A load succeeds in one way: no check failed, and the program's words are placed. -/
theorem load_ok {src : Source} {t : State} (h : load s src = .ok t) :
    ∃ body, src = .bytes (0x30#8 :: 0x00#8 :: body) ∧ body.length % 2 = 0 ∧ 0 < body.length ∧
      body.length ≤ 2 * programCapacity ∧ t = withProgram (wordsOf body) s := by
  match src with
  | .unreadable detail => cases h
  | .bytes [] => cases h
  | .bytes [b] => cases h
  | .bytes (hi :: lo :: body) =>
    rcases Nat.mod_two_eq_zero_or_one body.length with heven | hodd
    · rw [load_evenLength heven] at h
      split_ifs at h with hw h0 hl
      obtain ⟨rfl, rfl⟩ := bytePair_eq_programStart.1 (not_not.1 hw)
      cases h
      exact ⟨body, rfl, heven, Nat.pos_of_ne_zero h0, Nat.not_lt.1 hl, rfl⟩
    · rw [load_oddLength (by simp only [List.length_cons]; omega)] at h
      cases h

end

/-! ### The loaded core (R193) -/

theorem length_wordsOf_le {body : List Byte} (h : body.length ≤ 2 * programCapacity) :
    (wordsOf body).length ≤ programCapacity := by
  rw [length_wordsOf]; omega

theorem read_withProgram (program : List Word) (s : State) (k : Nat) :
    (withProgram program s).mem.read (0x3000 + k) = program.getD k 0#16 := by
  have hread := read_imageAt programStart.toNat program (programStart.toNat + k)
  rw [if_pos (Nat.le_add_right _ _), Nat.add_sub_cancel_left] at hread
  exact hread

/-- A program of lawful length lies in the loaded range. -/
theorem memoryInv_withProgram {program : List Word} (s : State) (h : program.length ≤ programCapacity) :
    memoryInv (withProgram program s) := by
  have hcap : program.length ≤ 0xCE00 := h
  refine ⟨imageAt_wf (show 0x3000 + program.length ≤ 65536 by omega), h, fun c hc => ?_⟩
  have hin : 0x3000 ≤ c.1 ∧ c.1 < 0x3000 + program.length ∧ c.2 ≠ 0#16 := mem_imageAt hc
  obtain ⟨hlo, hhi, -⟩ := hin
  have haddr : (BitVec.ofNat 16 c.1).toNat = c.1 := by rw [BitVec.toNat_ofNat]; omega
  exact (inImage_bounds h).2 (haddr.symm ▸ ⟨hlo, hhi⟩)

/-- A core that is not started, does not wait and whose producer has not stopped meets the invariant if its memory
does. -/
theorem inv_notStarted {s : State} (hm : memoryInv s) (hr : s.run = .notStarted) (hw : s.wait = .none)
    (hp : s.producerStopped = false) : Inv s := by
  have hended : ¬ runEnded s = true := by simp [runEnded_of_run_notStarted hr]
  exact ⟨hm, waitInv_of_none hw, faultInv_of_not_faulted (by simp [hr]), fun he => absurd he hended, by simp [hp]⟩

theorem gprWritten_reset (r : Reg) : State.reset.gprWritten[r] = false := by simp [State.reset]

theorem memoryInv_reset : memoryInv State.reset := ⟨Memory.nil_wf, Nat.zero_le _, nofun⟩

end Sys2Proof.Machine
end

section
/-! SUPPORT. Runs of the agents in any order from a core that waits for a character (43_trap.md R150,
70_reset_and_hazards.md R199): until the wait ends only the producer changes anything, and the core's move ends the wait
once there is a character. -/

namespace Sys2Proof.Machine

/-! ### The moves from a waiting core -/

/-- Whoever moves, the move is one of `Moved`. -/
theorem takeTurn_cases {turn : Turn} {s t : State} (h : takeTurn turn s = .next t) : Moved s t := by
  cases turn with
  | core => exact coreTurn_cases h
  | producer => cases h; exact producerTurn_cases s
  | start => cases h; exact startTurn_cases s

/-- Delivering a character starts no wait. -/
theorem deliverChar_wait (routine : InputRoutine) (w : Word) (c : Byte) (s : State) :
    (deliverChar routine w c s).wait = s.wait := by
  cases routine with
  | getc => rfl
  | input =>
    rcases emit_cases w c (setReg 0 (zext c) s) with ⟨-, h⟩ | ⟨rest, -, h⟩
    · rw [deliverChar, h]; rfl
    · rw [deliverChar, h]; rfl

theorem dropReceiver_wait (s : State) : (dropReceiver s).wait = s.wait := by
  obtain ⟨ch, h, -⟩ := dropReceiver_frame s
  rw [h]

/-- A move that leaves a waiting core waiting changes nothing, or is the producer's and sends a character. -/
theorem Moved.ofWaiting {s t : State} (h : Moved s t) (hr : s.run = .running) (hs : s.wait ≠ .none)
    (ht : t.wait ≠ .none) :
    t = s ∨ (t.run = s.run ∧ t.channel ≠ []) := by
  cases h with
  | idle e => exact .inl e
  | instr w x r n => exact absurd n hs
  | programEnd r n => exact absurd n hs
  | fetchFault r n => exact absurd n hs
  | resume routine w c rest r n h e =>
    subst e
    rw [dropReceiver_wait, deliverChar_wait] at ht
    exact absurd rfl ht
  | delivers c rest p h r e =>
    subst e
    exact .inr ⟨rfl, List.append_ne_nil_of_right_ne_nil _ (List.cons_ne_nil c [])⟩
  | sendFails c rest p h r => simp [runEnded_of_run_running hr] at r
  | starts r => simp [hr] at r

/-- The core's move ends the wait if the channel is not empty. -/
theorem coreTurn_ends_wait {s t : State} (hr : s.run = .running) (hc : s.channel ≠ []) (hs : s.wait ≠ .none)
    (h : coreTurn s = .next t) : t.wait = .none := by
  cases hw : s.wait with
  | none => exact absurd hw hs
  | waitingInput routine w =>
    obtain ⟨c, rest, hch⟩ := List.exists_cons_of_ne_nil hc
    rw [coreTurn_waiting hr hw, resumeInput, hch] at h
    cases h
    rw [dropReceiver_wait, deliverChar_wait]

/-! ### A run that would wait for ever -/

section
variable {turns : Nat → Turn} {states : Nat → State} (hrun : IsRun turns states)
  (hr : (states 0).run = .running) (hwait : ∀ n, (states n).wait ≠ .none)
include hrun hr hwait

theorem running_while_waiting (n : Nat) : (states n).run = .running := by
  induction n with
  | zero => exact hr
  | succ n ih =>
    rcases (takeTurn_cases (hrun n)).ofWaiting ih (hwait n) (hwait (n + 1)) with e | ⟨hsame, -⟩
    · rw [e, ih]
    · rw [hsame, ih]

theorem move_while_waiting (n : Nat) : states (n + 1) = states n ∨ (states (n + 1)).channel ≠ [] :=
  ((takeTurn_cases (hrun n)).ofWaiting (running_while_waiting hrun hr hwait n) (hwait n) (hwait (n + 1))).imp_right
    And.right

/-- A character in the channel stays there. -/
theorem channel_ne_nil_while_waiting {n m : Nat} (hnm : n ≤ m) (hc : (states n).channel ≠ []) :
    (states m).channel ≠ [] := by
  induction m, hnm using Nat.le_induction with
  | base => exact hc
  | succ m _ ih =>
    rcases move_while_waiting hrun hr hwait m with e | hch
    · rw [e]; exact ih
    · exact hch

/-- While no character comes nothing changes. -/
theorem constant_while_waiting (hc : ∀ n, (states n).channel = []) (n : Nat) : states n = states 0 := by
  induction n with
  | zero => rfl
  | succ n ih => exact ((move_while_waiting hrun hr hwait n).resolve_right (not_not.2 (hc (n + 1)))).trans ih

/-- A fair core does not leave a character in the channel for ever. -/
theorem channel_empty_while_waiting (hfair : WeaklyFair turns states) (n : Nat) : (states n).channel = [] := by
  by_contra hc
  have running := running_while_waiting hrun hr hwait
  have kept : ∀ m, n ≤ m → (states m).channel ≠ [] := fun m hnm =>
    channel_ne_nil_while_waiting hrun hr hwait hnm hc
  obtain ⟨hcore, -⟩ := hfair
  obtain ⟨m, hnm, hm⟩ := hcore n fun m hnm => by simp [coreEnabled, running m, kept m hnm]
  have hmove : coreTurn (states m) = .next (states (m + 1)) := by
    have h := hrun m
    rwa [hm] at h
  exact hwait (m + 1) (coreTurn_ends_wait (running m) (kept m hnm) (hwait m) hmove)

/-- A fair producer with a character does not keep it for ever. -/
theorem producer_idle_while_waiting (hfair : WeaklyFair turns states)
    (hnext : (nextChar (states 0).inputStream).isSome = true) : (states 0).producerStopped = true := by
  by_contra hgo
  have hp : (states 0).producerStopped = false := Bool.eq_false_iff.2 hgo
  have empty := channel_empty_while_waiting hrun hr hwait hfair
  have constant := constant_while_waiting hrun hr hwait empty
  have ended := runEnded_of_run_running hr
  obtain ⟨-, hproducer⟩ := hfair
  obtain ⟨m, -, hm⟩ := hproducer 0 fun m _ => by simp [producerEnabled, constant m, ended, hp, hnext]
  obtain ⟨⟨c, rest⟩, hchar⟩ := Option.isSome_iff_exists.1 hnext
  have hmove : states (m + 1) = producerTurn (states 0) := by
    have h := hrun m
    rw [hm, constant m] at h
    exact (Host.Outcome.next.inj h).symm
  have hnil := empty (m + 1)
  rw [hmove, producerTurn_delivers hp hchar ended] at hnil
  exact absurd hnil (List.append_ne_nil_of_right_ne_nil _ (List.cons_ne_nil c []))

end

end Sys2Proof.Machine
end

section
/-! The statements of 70_reset_and_hazards.md. -/

namespace Sys2Proof.Machine

/-- Settles O54: a run that waited for ever would never have a character in its channel, since the core would take it,
nor a producer with one to deliver, since it would send it. -/
theorem waitEndsUnderFairness : Obligations.WaitEndsUnderFairness := by
  intro turns states hrun hfair hr _ hchar
  by_contra hforever
  have hwait : ∀ n, (states n).wait ≠ .none := not_exists.1 hforever
  rcases hchar with hc | ⟨hnext, hp⟩
  · exact hc (channel_empty_while_waiting hrun hr hwait hfair 0)
  · have hstopped := producer_idle_while_waiting hrun hr hwait hfair hnext
    exact absurd (hp.symm.trans hstopped) (by decide)

/-- Settles O56: a successful load places the program's words in the constructed core, and changes nothing else. -/
theorem loadedCoreIsAsReset : Obligations.LoadedCoreIsAsReset := by
  refine ⟨rfl, fun src t h => ?_⟩
  obtain ⟨body, -, heven, h0, hl, rfl⟩ := load_ok h
  have hcap : (wordsOf body).length ≤ programCapacity := length_wordsOf_le hl
  have hpos : 1 ≤ (wordsOf body).length := by rw [length_wordsOf]; omega
  exact ⟨rfl, gprWritten_reset, rfl, rfl, rfl, rfl, rfl, rfl, hpos, hcap, toNat_programEnd hcap,
    inv_notStarted (memoryInv_withProgram State.reset hcap) rfl rfl rfl⟩

/-- Settles O57: `load` places the words of the file after its header, and each reads back as its two bytes. -/
theorem loadPlacesBigEndianWords : Obligations.LoadPlacesBigEndianWords := by
  refine ⟨fun s body heven h0 hl => ?placed, fun _ _ => load_oddLength, fun _ _ _ _ => load_wrongOrigin⟩
  case placed =>
    refine ⟨_, load_lawful heven h0 hl, length_wordsOf body, fun k hk => ?_, rfl⟩
    rw [read_withProgram]
    exact toNat_wordsOf_getD body hk

/-- Settles O50: a constructed core is not started, and its memory is empty. -/
theorem resetMeetsTheInvariant : Obligations.ResetMeetsTheInvariant := inv_notStarted memoryInv_reset rfl rfl rfl

/-- Settles O58: the checks of `load` in their order, and the one way in which it succeeds. -/
theorem loadChecksInOrder : Obligations.LoadChecksInOrder := by
  refine ⟨fun _ _ => rfl, fun _ => rfl, fun _ => load_header rfl, fun _ _ => load_programTooLong, fun s file t h => ?_⟩
  obtain ⟨body, hsrc, heven, h0, hl, -⟩ := load_ok h
  exact ⟨body, Source.bytes.inj hsrc, heven, h0, hl⟩

end Sys2Proof.Machine
end
